-- ==== Sys2Proof/Word.lean ====
section
/-! DEFINITION. The unit of data of the machine: a byte, and the 16-bit quantities of the command port (R10, R52). -/

namespace Sys2Proof

/-- A byte is 8 bits (R10); no command moves a quantity wider than a byte (R52). -/
abbrev Byte := BitVec 8

/-- A 16-bit unsigned quantity: ADDR, LEN, N, IDX, RLEN (R22 to R24, R29). -/
abbrev Half := BitVec 16

end Sys2Proof
end

