-- ==== Sys2Proof/Config.lean ====
section
/-! DEFINITION. The parameters of the block (R8, R9, R34) and the free values ("draws") the spec leaves open.
Every `opaque` constant below has no body: nothing can be proved about its value, so a claim holds for every value. -/

namespace Sys2Proof.Config

/-- PAGE_BITS of this hardware (R8). -/
abbrev pageBits : Nat := 4

/-- PAGE_SIZE of this hardware: 16 bytes (R8). -/
abbrev pageSize : Nat := 16

/-- ADDR_WIDTH (R8). -/
abbrev addrWidth : Nat := 16

/-- FILLER, the byte clocked out while a byte is clocked in: 0x00 (R8, D8). -/
abbrev filler : Byte := 0x00#8

/-- T_WC, the longest internal write cycle of the device, in milliseconds: open (R63). -/
opaque tWcMs : Nat

/-- By how much the configured settle delay exceeds T_WC: open (DESIGN CHOICE, log entry 4). -/
opaque settleSlackMs : Nat

/-- T_SETTLE_MS: open; R8 makes it at least 1 and at least the device's write cycle time.
Every legal value is reached by some value of `tWcMs` and `settleSlackMs` (log entry 4). -/
def tSettleMs : Nat := max 1 (tWcMs + settleSlackMs)

/-- N_MARGIN: open, read by no rule (R8, R115; DEDUCED, log entry 18). -/
opaque nMargin : Nat

/-- Which legal MEM_SIZE the attached part has: open (R8; DESIGN CHOICE, log entry 5). -/
opaque memPageIndex : Fin 4096

/-- MEM_SIZE: a multiple of PAGE_SIZE, from PAGE_SIZE to 65536 (R8). -/
def memSize : Nat := (memPageIndex.val + 1) * pageSize

/-- The parameters of the block as one record (R8). -/
structure Params where
  pageSize : Nat
  pageBits : Nat
  tSettleMs : Nat
  filler : Byte
  nMargin : Nat
  addrWidth : Nat
  memSize : Nat
  deriving DecidableEq, Repr

/-- The legal ranges of R8. -/
def Params.Legal (p : Params) (tWc : Nat) : Prop :=
  p.pageSize = 2 ^ p.pageBits ∧ p.pageBits ≤ 15 ∧
  1 ≤ p.tSettleMs ∧ tWc ≤ p.tSettleMs ∧
  p.addrWidth = 16 ∧
  p.pageSize ∣ p.memSize ∧ p.pageSize ≤ p.memSize ∧ p.memSize ≤ 65536

/-- The configuration of this hardware; no command changes it (R9, R34). -/
def params : Params :=
  { pageSize := pageSize, pageBits := pageBits, tSettleMs := tSettleMs, filler := filler,
    nMargin := nMargin, addrWidth := addrWidth, memSize := memSize }

/-! The draws. The first argument is always a count that the state advances, so that each draw is a fresh
value (DESIGN CHOICE, log entry 20). -/

/-- The device's array before anything of the run wrote it, by generation and address (R56: MEM is arbitrary).
Generation 0 is the start of the run; a later one follows an unspecified effect on the whole array (R63). -/
opaque drawMem : Nat → Nat → Byte

/-- SR at the start of the run (R56: SR is arbitrary). -/
opaque initialSr : Byte

/-- The ok flag the transport reports for a transfer the state's script does not list (R101, I14). -/
opaque drawOk : Nat → Bool

/-- Whether the byte of a failed transfer reached the device (R173; DEDUCED, log entry 7). -/
opaque drawReached : Nat → Bool

/-- A byte clocked in that no rule fixes: the status byte (R61), a read past the array (R59), an answer during the
write cycle (R63). -/
opaque drawByte : Nat → Byte

/-- A byte of a page that a device-defined write left open, by count and address (R60, last arm). -/
opaque drawPage : Nat → Nat → Byte

/-- WEL after a device-defined effect (R60 last arm, R63). -/
opaque drawWel : Nat → Bool

/-- WIP after a device-defined effect: such a write may start a write cycle (R173, R201, R63). -/
opaque drawWip : Nat → Bool

/-- SR after WRSR (R62), or after an unspecified effect (R63). -/
opaque drawSr : Nat → Byte

/-- Which waiting requester's command is accepted (R188). -/
opaque drawArbiter : Nat → Nat

/-- KIND after a reset taken during a run (R41: unspecified). -/
opaque drawKind : Nat → BitVec 3

/-- A 16-bit latch after a reset taken during a run, by count and latch number (R41: unspecified). -/
opaque drawHalf : Nat → Nat → Half

/-- ERR after a reset taken during a run (R41: unspecified). -/
opaque drawErr : Nat → Bool

/-- A byte of WBUF or RBUF after a reset taken during a run, by count, buffer number and index (R41: unspecified). -/
opaque drawBuffer : Nat → Nat → Nat → Byte

/-- What the host sees of a byte of RBUF that is not valid, by count and index (R27). -/
opaque drawUnread : Nat → Nat → Byte

end Sys2Proof.Config
end

