-- ==== Sys2Proof/Syntax.lean ====
section
/-! DEFINITION. The commands: the operands a host presents, the descriptor at the command port (R82), the seven
commands of the sequencer (R83) and one constructor of `Instr` per row of the opcode table (R83, R91). -/

namespace Sys2Proof

/-- A buffer of PAGE_SIZE bytes: WDATA, WBUF, RBUF (R23, R27, R82). -/
abbrev Page := Vector Byte Config.pageSize

/-- The three operand fields of a command descriptor (R82). Every command is presented with all of them; a field
that the command does not use is ignored, not absent (R93). -/
structure Operands where
  /-- ADDR: the device address. -/
  addr : Half
  /-- LEN: the number of data bytes. -/
  len : Half
  /-- WDATA: the payload, `wdata[0]` first. -/
  wdata : Page
  deriving DecidableEq, Repr

/-- A command descriptor as the command port takes it (R36, R82): KIND and the operands. -/
structure Descriptor where
  /-- KIND: which command (R83); 0 is reserved (R88). -/
  kind : BitVec 3
  operands : Operands
  deriving DecidableEq, Repr

/-- The seven commands of the sequencer (R83). -/
inductive Command where
  | wrsr
  | write
  | read
  | wrdi
  | rdsr
  | wren
  | writePage
  deriving DecidableEq, Repr

/-- The direction of the data bytes of a frame (R85). -/
inductive Direction where
  | out
  | inward
  | none
  deriving DecidableEq, Repr

/-- The instructions: one constructor per row of spec/opcode_table.json. The seven commands of R83 carry every
operand field of their descriptor, the ignored ones too (R93); the three aliases of R91 carry the operands of their
written form (R92). -/
inductive Instr where
  /-- WRSR v: KIND 1, `v` is `wdata[0]` (R131). -/
  | wrsr (o : Operands)
  /-- WRITE a, [b0 ...]: KIND 2 (R150). -/
  | write (o : Operands)
  /-- READ a, n: KIND 3 (R140). -/
  | read (o : Operands)
  /-- WRDI: KIND 4 (R121). -/
  | wrdi (o : Operands)
  /-- RDSR: KIND 5 (R130). -/
  | rdsr (o : Operands)
  /-- WREN: KIND 6 (R120). -/
  | wren (o : Operands)
  /-- WRITE_PAGE a, [b0 ...]: KIND 7 (R152). -/
  | writePage (o : Operands)
  /-- READ_PAGE a: alias of READ a, PAGE_SIZE (R142). -/
  | readPage (addr : Half)
  /-- READ_BYTE a: alias of READ a, 1 (R143). -/
  | readByte (addr : Half)
  /-- WRITE_BYTE a, v: alias of WRITE a, [v] (R153). -/
  | writeByte (addr : Half) (value : Byte)
  deriving DecidableEq, Repr

end Sys2Proof
end

