-- ==== Sys2Proof/WellFormed.lean ====
section
/-! DEFINITION. Well-formedness of an instruction: it is in the written form of R92, in which a field the command
ignores (R93) is not given. The model writes such a field as zero; a descriptor with another value there is the same
command to the sequencer, but no frame and no written form can tell the two apart (DESIGN CHOICE, log entry 23). -/

namespace Sys2Proof

/-- The payload is zero from byte `k` on: these bytes are the ignored ones. -/
def Operands.zeroFrom (k : Nat) (o : Operands) : Bool :=
  decide (∀ i : Fin Config.pageSize, k ≤ i.val → o.wdata[i] = 0#8)

/-- ADDR and LEN are zero: the command ignores both. -/
def Operands.noRange (o : Operands) : Bool :=
  o.addr == 0#16 && o.len == 0#16

/-- The ignored fields of R93 are zero. -/
def Instr.wellFormed : Instr → Bool
  | .wrsr o => o.noRange && o.zeroFrom 1
  | .write o => o.zeroFrom o.len.toNat
  | .read o => o.zeroFrom 0
  | .wrdi o => o.noRange && o.zeroFrom 0
  | .rdsr o => o.noRange && o.zeroFrom 0
  | .wren o => o.noRange && o.zeroFrom 0
  | .writePage o => o.zeroFrom o.len.toNat
  | .readPage _ => true
  | .readByte _ => true
  | .writeByte _ _ => true

end Sys2Proof
end

