-- ==== Sys2Proof/Decode.lean ====
section
/-! DEFINITION. The two encodings (spec file 30_encoding): the KIND code of a descriptor (R83) and the wire frame
(R80, R81, R94), each with its decoder, and the encoder of the wire frame. The frame decoder reads every byte clocked
out between select and deselect, the filler bytes of a read among them, so that the number of data bytes is the
frame's length less its header (R90; DESIGN CHOICE, log entry 25). -/

namespace Sys2Proof

/-! ## Bytes of the address (R50) -/

/-- `v[7:0]` (R10). -/
def lowByte (v : Half) : Byte := v.extractLsb' 0 8

/-- `v[15:8]` (R10). -/
def highByte (v : Half) : Byte := v.extractLsb' 8 8

/-- `{hi, lo}`: the address two header bytes stand for, the low byte sent first (R50, R95; DEDUCED, log entry 21). -/
def joinBytes (lo hi : Byte) : Half := hi ++ lo

/-! ## Tables of the commands (R80, R83 to R86, R90) -/

/-- The command a KIND code stands for; 0 is reserved (R83, R88). -/
def Command.ofKind (k : BitVec 3) : Option Command :=
  match k.toNat with
  | 1 => some .wrsr
  | 2 => some .write
  | 3 => some .read
  | 4 => some .wrdi
  | 5 => some .rdsr
  | 6 => some .wren
  | 7 => some .writePage
  | _ => none

/-- The KIND code of a command (R83). -/
def Command.kind : Command → BitVec 3
  | .wrsr => 1#3
  | .write => 2#3
  | .read => 3#3
  | .wrdi => 4#3
  | .rdsr => 5#3
  | .wren => 6#3
  | .writePage => 7#3

/-- `Opcode(KIND)`: the byte sent in phase OPC (R80, R84). -/
def Command.opcode : Command → Byte
  | .wrsr => 0x01#8
  | .write => 0x02#8
  | .read => 0x03#8
  | .wrdi => 0x04#8
  | .rdsr => 0x05#8
  | .wren => 0x06#8
  | .writePage => 0x02#8

/-- `HasAddr(KIND)` (R85). -/
def Command.hasAddr : Command → Bool
  | .write => true
  | .read => true
  | .writePage => true
  | .wrsr => false
  | .wrdi => false
  | .rdsr => false
  | .wren => false

/-- `Dir(KIND)` (R85). -/
def Command.dir : Command → Direction
  | .wrsr => .out
  | .write => .out
  | .writePage => .out
  | .read => .inward
  | .rdsr => .inward
  | .wrdi => .none
  | .wren => .none

/-- `NData(KIND, LEN)` (R86). -/
def Command.nData (len : Half) : Command → Half
  | .wren => 0#16
  | .wrdi => 0#16
  | .wrsr => 1#16
  | .rdsr => 1#16
  | .read => len
  | .write => len
  | .writePage => len

/-- `FrameLen(KIND, LEN)` (R90). -/
def Command.frameLen (len : Half) (c : Command) : Nat :=
  (if c.hasAddr then 3 else 1) + (c.nData len).toNat

/-- The header of a frame: the opcode and, for format OAD, the two address bytes, low byte first (R81, R87). -/
def Command.header (addr : Half) (c : Command) : List Byte :=
  c.opcode :: (if c.hasAddr then [lowByte addr, highByte addr] else [])

/-- The data bytes clocked out after the header: the payload, or one FILLER for each byte clocked in (R87, R94). -/
def Command.dataOut (o : Operands) (c : Command) : List Byte :=
  match c.dir with
  | .out => o.wdata.toList.take (c.nData o.len).toNat
  | .inward => List.replicate (c.nData o.len).toNat Config.filler
  | .none => []

/-- `Frame(desc)`: the bytes clocked out for a descriptor that passed its check (R94). -/
def Command.frame (o : Operands) (c : Command) : List Byte :=
  c.header o.addr ++ c.dataOut o

/-! ## Instructions, descriptors and frames -/

/-- A payload of zeros: what the model's aliases present in WDATA bytes their command ignores (DESIGN CHOICE, log
entry 9). -/
def zeroPage : Page := Vector.replicate Config.pageSize 0#8

/-- The command an instruction is or expands to (R83, R91). -/
def Instr.command : Instr → Command
  | .wrsr _ => .wrsr
  | .write _ => .write
  | .read _ => .read
  | .wrdi _ => .wrdi
  | .rdsr _ => .rdsr
  | .wren _ => .wren
  | .writePage _ => .writePage
  | .readPage _ => .read
  | .readByte _ => .read
  | .writeByte _ _ => .write

/-- The operands an instruction presents; for an alias those of its expansion (R91). -/
def Instr.operands : Instr → Operands
  | .wrsr o => o
  | .write o => o
  | .read o => o
  | .wrdi o => o
  | .rdsr o => o
  | .wren o => o
  | .writePage o => o
  | .readPage a => { addr := a, len := 16#16, wdata := zeroPage }
  | .readByte a => { addr := a, len := 1#16, wdata := zeroPage }
  | .writeByte a v => { addr := a, len := 1#16, wdata := zeroPage.set 0 v }

/-- The descriptor the host builds for an instruction (R82, R91). -/
def Instr.descriptor (i : Instr) : Descriptor :=
  { kind := i.command.kind, operands := i.operands }

/-- Why a descriptor or a frame stands for no instruction. -/
inductive DecodeError where
  /-- KIND 0 is reserved (R88). -/
  | reservedKind
  /-- A frame of no bytes has no opcode (R80). -/
  | emptyFrame
  /-- The first byte is none of the six opcodes (R89). -/
  | unknownOpcode (b : Byte)
  /-- The frame's length is none its opcode allows (R81, R90). -/
  | badLength (n : Nat)
  deriving DecidableEq, Repr

/-- The instruction of a command with its operands. -/
def Command.instr (o : Operands) : Command → Instr
  | .wrsr => .wrsr o
  | .write => .write o
  | .read => .read o
  | .wrdi => .wrdi o
  | .rdsr => .rdsr o
  | .wren => .wren o
  | .writePage => .writePage o

/-- What the sequencer reads at its command port: the instruction of a descriptor, or the reserved code (R83, R88). -/
def decodeDescriptor (d : Descriptor) : Except DecodeError Instr :=
  match Command.ofKind d.kind with
  | some c => .ok (c.instr d.operands)
  | none => .error .reservedKind

/-- A payload from the data bytes of a frame, the bytes after them zero. -/
def pageOfList (l : List Byte) : Page :=
  Vector.ofFn fun i => l.getD i.val 0#8

/-- The operands of a frame: the fields a frame does not carry are zero (R93, R95). -/
def frameOperands (addr : Half) (len : Nat) (data : List Byte) : Operands :=
  { addr := addr, len := BitVec.ofNat 16 len, wdata := pageOfList data }

/-- A frame of format O: the opcode alone (R81). -/
def decodeO (c : Command) (rest : List Byte) : Except DecodeError Instr :=
  match rest with
  | [] => .ok (c.instr (frameOperands 0#16 0 []))
  | _ :: _ => .error (.badLength (1 + rest.length))

/-- A frame of format OD: the opcode and one data byte; the byte clocked out of a read is a filler (R81). -/
def decodeOD (c : Command) (rest : List Byte) : Except DecodeError Instr :=
  match rest with
  | [v] => .ok (c.instr (frameOperands 0#16 0 (if c.dir = .out then [v] else [])))
  | _ => .error (.badLength (1 + rest.length))

/-- A frame of format OAD: the opcode, the address low byte first, 1 to PAGE_SIZE data bytes (R81, R95). -/
def decodeOAD (c : Command) (rest : List Byte) : Except DecodeError Instr :=
  match rest with
  | lo :: hi :: d :: ds =>
    if ds.length < Config.pageSize then
      .ok (c.instr (frameOperands (joinBytes lo hi) (ds.length + 1) (if c.dir = .out then d :: ds else [])))
    else .error (.badLength (1 + rest.length))
  | _ => .error (.badLength (1 + rest.length))

/-- Decoding a frame (R95): the first byte selects the row of R80. A WRITE_PAGE cannot be told from a WRITE of a
full page on the wire and decodes as WRITE. -/
def decodeFrame (bytes : List Byte) : Except DecodeError Instr :=
  match bytes with
  | [] => .error .emptyFrame
  | op :: rest =>
    if op = 0x01#8 then decodeOD .wrsr rest
    else if op = 0x02#8 then decodeOAD .write rest
    else if op = 0x03#8 then decodeOAD .read rest
    else if op = 0x04#8 then decodeO .wrdi rest
    else if op = 0x05#8 then decodeOD .rdsr rest
    else if op = 0x06#8 then decodeO .wren rest
    else .error (.unknownOpcode op)

/-- The encoder: the frame of an instruction whose descriptor passes its check (R94). -/
def encode (i : Instr) : List Byte := i.command.frame i.operands

/-- The instruction a frame shows: WRITE_PAGE shows as WRITE and an alias as its expansion (R91, R95). -/
def Instr.onWire : Instr → Instr
  | .wrsr o => .wrsr o
  | .write o => .write o
  | .read o => .read o
  | .wrdi o => .wrdi o
  | .rdsr o => .rdsr o
  | .wren o => .wren o
  | .writePage o => .write o
  | .readPage a => .read (Instr.operands (.readPage a))
  | .readByte a => .read (Instr.operands (.readByte a))
  | .writeByte a v => .write (Instr.operands (.writeByte a v))

/-! ## Words of the opcode table (R96) -/

/-- The shortest frame an opcode can head: R81's length with one data byte for format OAD (DESIGN CHOICE, log
entry 10). -/
def shortestFrame (op : Byte) : Nat :=
  if op = 0x02#8 ∨ op = 0x03#8 then 4
  else if op = 0x01#8 ∨ op = 0x05#8 then 2
  else 1

/-- The frame a table word stands for: byte `k` is bits `8k+7..8k` of `w`, and what the frame has beyond `nbits` is
zero, up to the shortest frame of its opcode (DESIGN CHOICE, log entry 10). -/
def tableFrame (nbits w : Nat) : List Byte :=
  let bytes := (List.range (nbits / 8)).map fun k => BitVec.ofNat 8 (w / 2 ^ (8 * k))
  match bytes with
  | [] => []
  | op :: _ => bytes ++ List.replicate (shortestFrame op - bytes.length) 0#8

/-- The instruction the frame decoder reads from a word of the opcode table. -/
def decodeTableWord (nbits w : Nat) : Option Instr :=
  match decodeFrame (tableFrame nbits w) with
  | .ok i => some i
  | .error _ => none

end Sys2Proof
end

