-- ==== Sys2Proof/Machine/State.lean ====
section
/-! DEFINITION. Everything the spec gives the machine as plain data: the sequencer's registers (spec file 10_state),
the device behind the bus (R55), the environment's inputs (R35: the hosts' commands, the bus oracle, the reset input)
and the two records of what was produced (the trace of R101 and the host-side events). -/

namespace Sys2Proof.Machine

/-- The values of PHASE (R21). -/
inductive Phase where
  | idle
  | check
  | sel
  | opc
  | alo
  | ahi
  | data
  | desel
  | settle
  | done
  deriving DecidableEq, Repr

/-- The bus-side events (R101). -/
inductive Event where
  /-- `Sel`: the select line is driven low. -/
  | sel
  /-- `Tx(b, ok)`: byte `b` is clocked out. -/
  | tx (b : Byte) (ok : Bool)
  /-- `Rx(f, b, ok)`: `f` is clocked out while `b` is clocked in. -/
  | rx (f : Byte) (b : Byte) (ok : Bool)
  /-- `Desel`: the select line is driven high. -/
  | desel
  /-- `Delay(ms)`. -/
  | delay (ms : Nat)
  deriving DecidableEq, Repr

/-- The host-side events (R101). -/
inductive HostEvent where
  /-- `Issue(desc)` (R36). -/
  | issue (d : Descriptor)
  /-- `Complete(status)` (R38). -/
  | complete (status : BitVec 2)
  deriving DecidableEq, Repr

/-- What a requester does next: issue a command (R189), or let time pass before it goes on (R206). -/
inductive HostAction where
  | issue (d : Descriptor)
  | wait (ms : Nat)
  deriving DecidableEq, Repr

/-- The device's array: the bytes this run has written, addresses strictly rising. An unlisted address reads as
nothing written, and the device then answers with its arbitrary start content (R56; DESIGN CHOICE, log entry 6). -/
abbrev Memory := List Host.Cell

/-- The frame the device is taking (R57): what was clocked out to it since the select edge. -/
structure DeviceFrame where
  /-- The bytes received, in order. -/
  bytes : List Byte
  /-- A transfer of the frame failed (R60 last arm, R173, I13). -/
  failed : Bool
  /-- A reset fell into the frame (R201). -/
  cut : Bool
  /-- The frame started while WIP was true (R63). -/
  inCycle : Bool
  deriving DecidableEq, Repr

/-- The device (R55). -/
structure Device where
  /-- MEM, as far as this run has written it. -/
  mem : Memory
  /-- Which arbitrary content the unwritten addresses hold (model's own; DESIGN CHOICE, log entry 6). -/
  memGen : Nat
  /-- WEL, the write-enable latch. -/
  wel : Bool
  /-- SR, the status register. -/
  sr : Byte
  /-- WIP: an internal write cycle may be running. -/
  wip : Bool
  /-- The most milliseconds the write cycle can still take (model's own, R63; DESIGN CHOICE, log entry 14). -/
  cycleLeft : Nat
  /-- The frame in progress, between `Sel` and `Desel`. -/
  frame : Option DeviceFrame
  deriving DecidableEq, Repr

/-- The machine. -/
structure State where
  /-- PHASE (R21). -/
  phase : Phase
  /-- CS_N, the level of the select line: true is 1, deselected (R32). -/
  csN : Bool
  /-- KIND (R23). -/
  kind : BitVec 3
  /-- ADDR (R23). -/
  addr : Half
  /-- LEN (R23). -/
  len : Half
  /-- WBUF (R23, R26). -/
  wbuf : Page
  /-- N (R24). -/
  n : Half
  /-- IDX (R22). -/
  idx : Half
  /-- ERR (R25). -/
  err : Bool
  /-- RBUF (R27). -/
  rbuf : Page
  /-- STATUS (R28). -/
  status : BitVec 2
  /-- RLEN (R29). -/
  rlen : Half
  /-- The device behind the bus (R55). -/
  dev : Device
  /-- What each requester has still to do, in its own order (R65, R188; environment; DESIGN CHOICE, log entry 3). -/
  requesters : List (List HostAction)
  /-- The ok flags of the coming transfers, as far as the environment fixes them (R101, I14; environment;
  DESIGN CHOICE, log entry 2). -/
  oks : List Bool
  /-- The reset input: after how many steps of the machine it is next asserted, each counted from the one before
  (R200, R201; environment; DESIGN CHOICE, log entry 13). -/
  resets : List Nat
  /-- The trace: the bus-side events so far (R101; record). -/
  trace : List Event
  /-- The host-side events so far (R101; record). -/
  hostTrace : List HostEvent
  /-- How many free values were drawn (model's own; DESIGN CHOICE, log entry 20). -/
  draws : Nat
  deriving DecidableEq, Repr

/-- What stops the machine: phases in which no step of R103 to R112 is enabled. All are safe: the machine stops where
the spec gives no step (DEDUCED, log entry 19). No state that a run from reset reaches is one of these. -/
inductive Fault where
  /-- A phase that needs a command while KIND is 0, for which `Opcode`, `HasAddr`, `Dir` and `NData` are not defined
  (R84). Raised by `advance`. Safe. -/
  | reservedKindInFrame
  /-- Phase DATA while IDX is not below N, or points past the buffers (R109: enabled with IDX < N). Raised by
  `advance`. Safe. -/
  | dataNotEnabled
  deriving DecidableEq, Repr

/-- Why an instruction has no meaning. -/
inductive Refusal where
  /-- An instruction without a meaning in this model, rejected by name in `exec`. Raised by no arm: every instruction
  has its meaning. Safe. -/
  | notModelled (mnemonic : String)
  deriving DecidableEq, Repr

/-- The outcome of a step of this machine. -/
abbrev Result := Host.Outcome State Fault Refusal

/-- The device at the start of a run (R56; PRESUMED by the spec, log entry 17). -/
def Device.start : Device :=
  { mem := [], memGen := 0, wel := false, sr := Config.initialSr, wip := false, cycleLeft := 0, frame := none }

/-- The machine right after reset (R41, R200). PHASE, CS_N, STATUS and RLEN as the spec says; the latches and buffers
it leaves unspecified are zero here (DESIGN CHOICE, log entry 1); no requester has a command, the bus script is empty
and no reset is to come. -/
def State.reset : State :=
  { phase := .idle, csN := true, kind := 0#3, addr := 0#16, len := 0#16,
    wbuf := Vector.replicate Config.pageSize 0#8, n := 0#16, idx := 0#16, err := false,
    rbuf := Vector.replicate Config.pageSize 0#8, status := 0#2, rlen := 0#16,
    dev := Device.start, requesters := [], oks := [], resets := [], trace := [], hostTrace := [], draws := 0 }

end Sys2Proof.Machine
end

