-- ==== Sys2Proof/Machine/Operands.lean ====
section
/-! DEFINITION. The page arithmetic and the check of a descriptor (R53, R54, R102, R141, R151, R152). All arithmetic is
on natural numbers without wrap-around (R76). -/

namespace Sys2Proof.Machine

/-- `PageOf(a)` for a page size (R53). -/
def pageOf (pageSize a : Nat) : Nat := a / pageSize

/-- `OffsetOf(a)` for a page size (R53). -/
def offsetOf (pageSize a : Nat) : Nat := a % pageSize

/-- `Crosses(a, n)` for a page size (R54): the `n` bytes from `a` do not all lie in one page. -/
def crosses (pageSize a n : Nat) : Bool := decide (pageSize < offsetOf pageSize a + n)

/-- The read check (R141). -/
def readCheck (pageSize : Nat) (len : Half) : Bool :=
  decide (1 ≤ len.toNat) && decide (len.toNat ≤ pageSize)

/-- The write check, the page-boundary checker (R151). -/
def writeCheck (pageSize : Nat) (addr len : Half) : Bool :=
  decide (1 ≤ len.toNat) && decide (len.toNat ≤ pageSize) && !crosses pageSize addr.toNat len.toNat

/-- The strict page write's check (R152). -/
def writePageCheck (pageSize : Nat) (addr len : Half) : Bool :=
  decide (len.toNat = pageSize) && !crosses pageSize addr.toNat len.toNat

/-- `Valid` for one of the seven commands (R102), for a page size. -/
def commandCheck (pageSize : Nat) (addr len : Half) : Command → Bool
  | .wrsr => true
  | .wrdi => true
  | .rdsr => true
  | .wren => true
  | .read => readCheck pageSize len
  | .write => writeCheck pageSize addr len
  | .writePage => writePageCheck pageSize addr len

/-- `Valid(desc)` (R102): KIND 0 fails. -/
def valid (kind : BitVec 3) (addr len : Half) : Bool :=
  match Command.ofKind kind with
  | none => false
  | some c => commandCheck Config.pageSize addr len c

/-- `Valid` of an instruction's descriptor. -/
def instrValid (i : Instr) : Bool :=
  valid i.descriptor.kind i.operands.addr i.operands.len

/-- The command whose descriptor is latched (R23); none for the reserved code. -/
def State.command (s : State) : Option Command := Command.ofKind s.kind

end Sys2Proof.Machine
end

