-- ==== Sys2Proof/Machine/Flags.lean ====
section
/-! DEFINITION. The flags and result codes (R25, R28 to R31, R171, R112) and what the host reads (R27, R38). -/

namespace Sys2Proof.Machine

/-- STATUS code OK (R171). -/
abbrev statusOk : BitVec 2 := 0#2

/-- STATUS code InvalidArgument (R171). -/
abbrev statusInvalidArgument : BitVec 2 := 1#2

/-- STATUS code BusError (R171). -/
abbrev statusBusError : BitVec 2 := 2#2

/-- BUSY, derived from PHASE (R30). -/
def State.busy (s : State) : Bool := s.phase != Phase.idle

/-- What RLEN becomes in DONE when no transfer failed (R29, R112). -/
def resultLength (c : Command) (n : Half) : Half :=
  match c.dir with
  | .inward => n
  | .out => 0#16
  | .none => 0#16

/-- What the host reads as `RBUF[i]` (R27, R38, R189): the buffer's byte while it is valid, which is below RLEN and
while no later command runs; a free value otherwise (DESIGN CHOICE, log entry 15). -/
def State.hostRbuf (s : State) (i : Nat) : Byte :=
  if h : i < Config.pageSize then
    if i < s.rlen.toNat ∧ s.busy = false then s.rbuf[i] else Config.drawUnread s.draws i
  else Config.drawUnread s.draws i

end Sys2Proof.Machine
end

