-- ==== Sys2Proof/Machine/Memory.lean ====
section
/-! DEFINITION. The device's array as a list of written cells in one canonical form (addresses strictly rising). -/

namespace Sys2Proof.Machine

/-- The canonical form: addresses strictly rising. An unlisted address reads as `none`, so no entry can equal what an
unlisted address reads as. -/
abbrev Memory.wf (m : Memory) : Prop := m.Pairwise fun x y => x.1 < y.1

/-- The byte this run wrote at an address, if it wrote one. -/
def Memory.read (m : Memory) (a : Nat) : Option Byte :=
  match m with
  | [] => none
  | (b, v) :: rest => if a = b then some v else Memory.read rest a

/-- Write one byte, keeping the addresses strictly rising. -/
def Memory.write (m : Memory) (a : Nat) (v : Byte) : Memory :=
  match m with
  | [] => [(a, v)]
  | (b, w) :: rest =>
    if a < b then (a, v) :: (b, w) :: rest
    else if a = b then (a, v) :: rest
    else (b, w) :: Memory.write rest a v

/-- `MemWrite(addr, n, v)`: byte `i` of the sequence at `addr + i` (R11). -/
def Memory.writeBytes (m : Memory) (a : Nat) (data : List Byte) : Memory :=
  match data with
  | [] => m
  | v :: rest => Memory.writeBytes (Memory.write m a v) (a + 1) rest

end Sys2Proof.Machine
end

