-- ==== Sys2Proof/Machine/Device.lean ====
section
/-! DEFINITION. The environment model of the device (R55 to R63): what it does at a select edge, on a byte, at a
deselect edge and as time passes. It sees these events and nothing else of the sequencer. -/

namespace Sys2Proof.Machine

/-- The device's array at an address below MEM_SIZE: what this run wrote there, or its arbitrary content (R56). -/
def Device.cell (d : Device) (a : Nat) : Byte :=
  match d.mem.read a with
  | some v => v
  | none => Config.drawMem d.memGen a

/-- The select edge: a new frame begins (R57), within a write cycle or not (R63). -/
def Device.select (d : Device) : Device :=
  { d with frame := some { bytes := [], failed := false, cut := false, inCycle := d.wip } }

/-- A byte clocked out within a frame. A failed transfer fails the frame, and whether its byte arrived is a free value
(R173; DEDUCED, log entry 7). -/
def DeviceFrame.take (draw : Nat) (b : Byte) (ok : Bool) (f : DeviceFrame) : DeviceFrame :=
  if ok then { f with bytes := f.bytes ++ [b] }
  else { f with failed := true, bytes := if Config.drawReached draw then f.bytes ++ [b] else f.bytes }

/-- A byte clocked out to the device. Outside a frame no byte occurs (R57). -/
def Device.take (draw : Nat) (b : Byte) (ok : Bool) (d : Device) : Device :=
  { d with frame := d.frame.map (DeviceFrame.take draw b ok) }

/-- The content of address `a` as a READ frame returns it: a draw past the end of the array (R59). -/
def Device.readAt (d : Device) (draw a : Nat) : Byte :=
  if a < Config.memSize then d.cell a else Config.drawByte draw

/-- The answer a device gives to a byte read, by the bytes of the frame so far (R59, R61, R63): the array in a READ
frame, a draw for the status byte, for a frame that started in a write cycle, and for any other frame (DEDUCED, log
entries 16 and 24). -/
def Device.answer (d : Device) (draw : Nat) : Byte :=
  match d.frame with
  | none => Config.drawByte draw
  | some f =>
    if f.inCycle then Config.drawByte draw
    else
      match f.bytes with
      | op :: lo :: hi :: more =>
        if op = 0x03#8 then d.readAt draw ((joinBytes lo hi).toNat + more.length)
        else Config.drawByte draw
      | _ => Config.drawByte draw

/-- The whole array becomes arbitrary (R63; R60's last arm when the page is not known; DESIGN CHOICE, log entry 8). -/
def Device.scrambleAll (d : Device) : Device :=
  { d with mem := [], memGen := d.memGen + 1 }

/-- Every byte of the page of `a` becomes a draw; a page beyond the array has no byte to change (R60). -/
def Device.scramblePage (draw a : Nat) (d : Device) : Device :=
  let base := pageOf Config.pageSize a * Config.pageSize
  if base < Config.memSize then
    { d with
      mem := d.mem.writeBytes base ((List.range Config.pageSize).map fun i => Config.drawPage draw (base + i)) }
  else d

/-- A device-defined write: WEL becomes a draw and a write cycle may have started (R60 last arm, R173, R201). -/
def Device.afterUndefinedWrite (draw : Nat) (d : Device) : Device :=
  { d with wel := Config.drawWel draw, wip := Config.drawWip draw, cycleLeft := Config.tWcMs }

/-- A write that took effect clears the latch and starts the write cycle (R60, R62, R63;
DESIGN CHOICE, log entry 14). -/
def Device.afterWrite (d : Device) : Device :=
  { d with wel := false, wip := true, cycleLeft := Config.tWcMs }

/-- The end of a WRITE frame (R60): `rest` is what came after the opcode. -/
def Device.endWrite (draw : Nat) (cut : Bool) (rest : List Byte) (d : Device) : Device :=
  if d.wel = false then d
  else
    match rest with
    | lo :: hi :: data =>
      let a := (joinBytes lo hi).toNat
      if cut = false ∧ data ≠ [] ∧ crosses Config.pageSize a data.length = false ∧
          a + data.length ≤ Config.memSize then
        ({ d with mem := d.mem.writeBytes a data }).afterWrite
      else (d.scramblePage draw a).afterUndefinedWrite draw
    | _ => d.scrambleAll.afterUndefinedWrite draw

/-- The end of a complete WRSR frame (R62). -/
def Device.endWrsr (draw : Nat) (d : Device) : Device :=
  if d.wel = false then d
  else ({ d with sr := Config.drawSr draw }).afterWrite

/-- The effect of a frame that started while a write cycle ran: unspecified (R63; DESIGN CHOICE, log entry 14). -/
def Device.afterUnspecifiedFrame (draw : Nat) (d : Device) : Device :=
  { d.scrambleAll.afterUndefinedWrite draw with sr := Config.drawSr draw }

/-- The effect of a frame at the deselect edge that ends it (R57 to R63). A frame without effect: READ, RDSR, an
incomplete WREN, WRDI or WRSR, another opcode (R57), and any frame but a WRITE in which a transfer failed (I13).
R58 lets a WREN or WRDI frame change the latch no later than its deselect edge; the model changes it exactly there
(DESIGN CHOICE, log entry 26). -/
def Device.endFrame (draw : Nat) (f : DeviceFrame) (d : Device) : Device :=
  if f.inCycle then d.afterUnspecifiedFrame draw
  else
    match f.bytes with
    | [] => d
    | op :: rest =>
      if op = 0x02#8 then d.endWrite draw (f.failed || f.cut) rest
      else if f.failed then d
      else if op = 0x06#8 then (if rest = [] then { d with wel := true } else d)
      else if op = 0x04#8 then (if rest = [] then { d with wel := false } else d)
      else if op = 0x01#8 then (if rest.length = 1 then d.endWrsr draw else d)
      else d

/-- The deselect edge: the frame ends and takes effect. -/
def Device.deselect (draw : Nat) (d : Device) : Device :=
  match d.frame with
  | none => d
  | some f => { Device.endFrame draw f d with frame := none }

/-- A reset cuts the frame in progress (R201). -/
def Device.cutFrame (d : Device) : Device :=
  { d with frame := d.frame.map fun f => { f with cut := true } }

/-- Time passes: a write cycle ends when its longest duration is over (R63). -/
def Device.elapse (ms : Nat) (d : Device) : Device :=
  if d.cycleLeft ≤ ms then { d with wip := false, cycleLeft := 0 }
  else { d with cycleLeft := d.cycleLeft - ms }

end Sys2Proof.Machine
end

