-- ==== Sys2Proof/Machine/Ops.lean ====
section
/-! DEFINITION. The named operations: the interface primitives of R11, completion and the two exceptions (R172, R173),
reset (R200, R201), the phases of the machine (R103 to R112), a whole command, and the command port (R36, R188). -/

namespace Sys2Proof.Machine

/-! ## Records and the phase register -/

/-- Append an event to the trace (R11, R101). -/
def State.emit (e : Event) (s : State) : State := { s with trace := s.trace ++ [e] }

/-- Append a host-side event (R101). -/
def State.record (e : HostEvent) (s : State) : State := { s with hostTrace := s.hostTrace ++ [e] }

/-- `PHASE <- p` (R11). -/
def State.goto (p : Phase) (s : State) : State := { s with phase := p }

/-! ## Interface primitives (R11, R115, R183 to R185) -/

/-- `CsAssert()`: the line goes low and the device sees the select edge. -/
def csAssert (s : State) : State :=
  State.emit .sel { s with csN := false, dev := s.dev.select }

/-- `CsDeassert()`: the line goes high and the device sees the deselect edge. -/
def csDeassert (s : State) : State :=
  State.emit .desel { s with csN := true, dev := s.dev.deselect s.draws, draws := s.draws + 1 }

/-- `Delay(ms)`: the delay runs and time passes for the device. -/
def delay (ms : Nat) (s : State) : State :=
  State.emit (.delay ms) { s with dev := s.dev.elapse ms }

/-- The ok flag of the next transfer: from the environment's script, a free value beyond it (I14;
DESIGN CHOICE, log entry 2). -/
def State.nextOk (s : State) : Bool :=
  match s.oks with
  | ok :: _ => ok
  | [] => Config.drawOk s.draws

/-- The state after the ok flag is taken: off the script, or one more draw. -/
def State.okTaken (s : State) : State :=
  { s with oks := s.oks.tail, draws := if s.oks.isEmpty then s.draws + 1 else s.draws }

/-- A byte is clocked out to the device; a failed transfer takes a draw. -/
def deviceTake (b : Byte) (ok : Bool) (s : State) : State :=
  { s with dev := s.dev.take s.draws b ok, draws := if ok then s.draws else s.draws + 1 }

/-- The state after `BusTx(b)`, whose ok flag is `s.nextOk` (R11). -/
def busTx (b : Byte) (s : State) : State :=
  State.emit (.tx b s.nextOk) (deviceTake b s.nextOk s.okTaken)

/-- The byte `BusRx` clocks in: the device's answer, whatever the transfer's ok flag is (R13, R101). -/
def State.nextByte (s : State) : Byte := s.okTaken.dev.answer s.okTaken.draws

/-- The state after `BusRx(f)`, whose ok flag is `s.nextOk` and whose byte is `s.nextByte` (R11). -/
def busRx (f : Byte) (s : State) : State :=
  State.emit (.rx f s.nextByte s.nextOk)
    (deviceTake f s.nextOk { s.okTaken with draws := s.okTaken.draws + 1 })

/-! ## Completion and the exceptions (R38, R172, R173, R177) -/

/-- `STATUS <- status; RLEN <- rlen; Complete(status); PHASE <- IDLE` (R38, R112). -/
def State.complete (status : BitVec 2) (rlen : Half) (s : State) : State :=
  State.goto .idle (State.record (.complete status) { s with status := status, rlen := rlen })

/-- Raising an exception: the whole of its entry is the STATUS written, RLEN 0 and the end of the command (R172, R173,
R177). There is no handler, no saved state and nothing to return from (R178): the return is the next command. -/
def raiseException (cause : BitVec 2) (s : State) : State := s.complete cause 0#16

/-- A failing transfer: `ERR <- 1; PHASE <- DESEL` (R173). BusError itself is raised in DONE. -/
def failTransfer (s : State) : State := State.goto .desel { s with err := true }

/-- After a transfer: on to the next phase, or the failure path (R106 to R108). -/
def afterTransfer (ok : Bool) (next : Phase) (s : State) : State :=
  if ok then s.goto next else failTransfer s

/-! ## Reset (R200, R201) -/

/-- What a reset taken during a run leaves in the registers (R41): the latches and buffers are free values
(DESIGN CHOICE, log entry 13). -/
def State.resetRegisters (s : State) : State :=
  { s with
    phase := .idle, csN := true, status := statusOk, rlen := 0#16
    kind := Config.drawKind s.draws, addr := Config.drawHalf s.draws 0, len := Config.drawHalf s.draws 1
    n := Config.drawHalf s.draws 2, idx := Config.drawHalf s.draws 3, err := Config.drawErr s.draws
    wbuf := Vector.ofFn fun i => Config.drawBuffer s.draws 0 i.val
    rbuf := Vector.ofFn fun i => Config.drawBuffer s.draws 1 i.val
    draws := s.draws + 1 }

/-- The reset input (R200 to R202): any phase ends at once; if the line was low the device sees it go high and the
trace shows `Desel`; no delay, no completion; nothing else reaches the device. -/
def applyReset (s : State) : State :=
  State.resetRegisters (if s.csN then s else csDeassert { s with dev := s.dev.cutFrame })

/-- The reset input is asserted now. -/
def State.resetDue (s : State) : Bool :=
  match s.resets with
  | 0 :: _ => true
  | _ => false

/-- One step passes on the way to the next reset. -/
def State.countdown (s : State) : State :=
  { s with resets := match s.resets with
      | [] => []
      | k :: rest => (k - 1) :: rest }

/-- The reset that is due is taken. -/
def takeReset (s : State) : State := applyReset { s with resets := s.resets.tail }

/-! ## The phases (R103 to R112) -/

/-- IDLE with a descriptor presented: `Issue(desc)` (R36, R103). -/
def issue (d : Descriptor) (s : State) : State :=
  State.goto .check
    (State.record (.issue d)
      { s with
        kind := d.kind, addr := d.operands.addr, len := d.operands.len, wbuf := d.operands.wdata })

/-- CHECK (R104). -/
def phaseCheck (s : State) : State :=
  match s.command with
  | none => raiseException statusInvalidArgument s
  | some c =>
    if valid s.kind s.addr s.len then State.goto .sel { s with n := c.nData s.len }
    else raiseException statusInvalidArgument s

/-- SEL (R105). -/
def phaseSel (s : State) : State :=
  State.goto .opc { csAssert s with idx := 0#16, err := false }

/-- Where OPC goes when the opcode was transferred (R106). -/
def afterOpcode (c : Command) (n : Half) : Phase :=
  if c.hasAddr then .alo else if 0 < n.toNat then .data else .desel

/-- OPC (R106). -/
def phaseOpc (s : State) : State :=
  match s.command with
  | none => s
  | some c => afterTransfer s.nextOk (afterOpcode c s.n) (busTx c.opcode s)

/-- ALO (R107). -/
def phaseAlo (s : State) : State :=
  afterTransfer s.nextOk .ahi (busTx (lowByte s.addr) s)

/-- AHI (R108). -/
def phaseAhi (s : State) : State :=
  afterTransfer s.nextOk .data (busTx (highByte s.addr) s)

/-- After a data byte: `IDX <- IDX + 1`, and DESEL when it reaches N (R109). -/
def afterData (ok : Bool) (s : State) : State :=
  if ok then
    State.goto (if s.idx + 1#16 = s.n then .desel else .data) { s with idx := s.idx + 1#16 }
  else failTransfer s

/-- `if ok then RBUF[IDX] <- b` (R109). -/
def storeByte (ok : Bool) (b : Byte) (s : State) : State :=
  { s with rbuf := if ok then s.rbuf.setIfInBounds s.idx.toNat b else s.rbuf }

/-- DATA, one byte (R109). -/
def phaseData (s : State) : State :=
  match s.command with
  | none => s
  | some c =>
    if h : s.idx.toNat < s.n.toNat ∧ s.idx.toNat < Config.pageSize then
      match c.dir with
      | .out => afterData s.nextOk (busTx (s.wbuf[s.idx.toNat]'h.2) s)
      | _ => afterData s.nextOk (storeByte s.nextOk s.nextByte (busRx Config.filler s))
    else s

/-- DESEL (R110). -/
def phaseDesel (s : State) : State := State.goto .settle (csDeassert s)

/-- SETTLE (R111). -/
def phaseSettle (s : State) : State := State.goto .done (delay Config.tSettleMs s)

/-- DONE (R112). -/
def phaseDone (s : State) : State :=
  match s.command with
  | none => s
  | some c =>
    if s.err then raiseException statusBusError s
    else s.complete statusOk (resultLength c s.n)

/-- One step of the phase machine; none of its own in IDLE, where the command port acts (R103). -/
def phaseStep (s : State) : State :=
  match s.phase with
  | .idle => s
  | .check => phaseCheck s
  | .sel => phaseSel s
  | .opc => phaseOpc s
  | .alo => phaseAlo s
  | .ahi => phaseAhi s
  | .data => phaseData s
  | .desel => phaseDesel s
  | .settle => phaseSettle s
  | .done => phaseDone s

/-- Why the current phase has no enabled step, if it has none (R84, R109). -/
def State.stuck (s : State) : Option Fault :=
  match s.phase with
  | .opc => if s.command = none then some .reservedKindInFrame else none
  | .data =>
    if s.command = none then some .reservedKindInFrame
    else if s.idx.toNat < s.n.toNat ∧ s.idx.toNat < Config.pageSize then none
    else some .dataNotEnabled
  | .done => if s.command = none then some .reservedKindInFrame else none
  | _ => none

/-! ## Steps of the machine -/

/-- One phase, or the reset that is due (R201). -/
def tick (s : State) : State :=
  if s.resetDue then takeReset s else phaseStep s.countdown

/-- Phases until the command has ended, at most `fuel` of them. -/
def runPhases (fuel : Nat) (s : State) : State :=
  match fuel with
  | 0 => s
  | k + 1 => if s.phase = .idle then s else runPhases k (tick s)

/-- No command takes more phases than this after `Issue`: CHECK, SEL, OPC, ALO, AHI, one DATA per byte of a page,
DESEL, SETTLE, DONE (R42). -/
def longestCommand : Nat := Config.pageSize + 8

/-- The command in progress goes on by one phase (R37: the port accepts nothing), or the machine is stuck. -/
def advance (s : State) : Result :=
  match s.stuck with
  | some f => .fault f
  | none => .next (phaseStep s.countdown)

/-- A command presented at the command port (R36 to R38, R42, R114): a reset that is due comes first (R200); while BUSY
is 1 the command waits and the one in progress goes on; in IDLE it is issued and runs to its end (DESIGN CHOICE,
log entry 12). -/
def runCommand (d : Descriptor) (s : State) : Result :=
  if s.resetDue then .next (takeReset s)
  else if s.busy then advance s
  else .next (runPhases longestCommand (issue d s.countdown))

/-! ## The command port (R188, R189) -/

/-- The waiting requesters: the number and next action of each one that has something to do. -/
def waiting (from_ : Nat) (rs : List (List HostAction)) : List (Nat × HostAction) :=
  match rs with
  | [] => []
  | [] :: rest => waiting (from_ + 1) rest
  | (a :: _) :: rest => (from_, a) :: waiting (from_ + 1) rest

/-- Take the next action off one requester's list. -/
def popRequester (r : Nat) (rs : List (List HostAction)) : List (List HostAction) :=
  rs.modify r List.tail

/-- The requester whose action is accepted in IDLE, and the state after it is taken from that requester: the only one
waiting, or any of several, a free choice (R188; DESIGN CHOICE, log entry 3). -/
def arbitrate (s : State) : Option (HostAction × State) :=
  match waiting 0 s.requesters with
  | [] => none
  | [(r, a)] => some (a, { s with requesters := popRequester r s.requesters })
  | (r, a) :: second :: more =>
    let all := (r, a) :: second :: more
    match all[Config.drawArbiter s.draws % all.length]? with
    | none => none
    | some (q, b) =>
      some (b, { s with requesters := popRequester q s.requesters, draws := s.draws + 1 })

/-- A descriptor with the reserved KIND 0 is accepted and fails its check (R88, R103, R104; DEDUCED, log entry
12). -/
def runReserved (d : Descriptor) (s : State) : Result := runCommand d s

/-- A requester lets time pass (R206). -/
def hostWait (ms : Nat) (s : State) : State := { s.countdown with dev := s.dev.elapse ms }

/-- A descriptor presented at the command port of an idle machine, nothing else to come before it. -/
def present (d : Descriptor) (s : State) : State :=
  { s with phase := .idle, resets := [], requesters := [[.issue d]] }

end Sys2Proof.Machine
end

