-- ==== Sys2Proof/Machine/Latch.lean ====
section
/-! DEFINITION. The meanings of WREN and WRDI (spec file 41_latch_control). -/

namespace Sys2Proof.Machine

/-- WREN (R120): the frame `06`; the device sets its latch. -/
def execWren (o : Operands) (s : State) : Result :=
  runCommand { kind := Command.kind .wren, operands := o } s

/-- WRDI (R121): the frame `04`; the device clears its latch. -/
def execWrdi (o : Operands) (s : State) : Result :=
  runCommand { kind := Command.kind .wrdi, operands := o } s

end Sys2Proof.Machine
end

