-- ==== Sys2Proof/Machine/Read.lean ====
section
/-! DEFINITION. The meanings of READ and its aliases (spec file 43_read). -/

namespace Sys2Proof.Machine

/-- READ a, n (R140, R141): the frame `03 lo hi` and `n` bytes clocked in to RBUF. -/
def execRead (o : Operands) (s : State) : Result :=
  runCommand { kind := Command.kind .read, operands := o } s

/-- READ_PAGE a (R142): READ with LEN = PAGE_SIZE. -/
def execReadPage (addr : Half) (s : State) : Result :=
  runCommand (Instr.descriptor (.readPage addr)) s

/-- READ_BYTE a (R143): READ with LEN = 1. -/
def execReadByte (addr : Half) (s : State) : Result :=
  runCommand (Instr.descriptor (.readByte addr)) s

end Sys2Proof.Machine
end

