-- ==== Sys2Proof/Machine/Status.lean ====
section
/-! DEFINITION. The meanings of RDSR and WRSR (spec file 42_status). -/

namespace Sys2Proof.Machine

/-- RDSR (R130): the frame `05 ?`; the byte clocked in goes to RBUF[0] uninterpreted. -/
def execRdsr (o : Operands) (s : State) : Result :=
  runCommand { kind := Command.kind .rdsr, operands := o } s

/-- WRSR v (R131): the frame `01 v` with `v = WDATA[0]`. -/
def execWrsr (o : Operands) (s : State) : Result :=
  runCommand { kind := Command.kind .wrsr, operands := o } s

end Sys2Proof.Machine
end

