-- ==== Sys2Proof/Machine/Write.lean ====
section
/-! DEFINITION. The meanings of WRITE, WRITE_PAGE and WRITE_BYTE (spec file 44_write). -/

namespace Sys2Proof.Machine

/-- WRITE a, [p0 ...] (R150, R151): the frame `02 lo hi p0 ...`, if the bytes lie in one page. -/
def execWrite (o : Operands) (s : State) : Result :=
  runCommand { kind := Command.kind .write, operands := o } s

/-- WRITE_PAGE a, [p0 ...] (R152): a WRITE whose payload must be exactly one page. -/
def execWritePage (o : Operands) (s : State) : Result :=
  runCommand { kind := Command.kind .writePage, operands := o } s

/-- WRITE_BYTE a, v (R153): WRITE with LEN = 1 and WDATA[0] = v. -/
def execWriteByte (addr : Half) (value : Byte) (s : State) : Result :=
  runCommand (Instr.descriptor (.writeByte addr value)) s

end Sys2Proof.Machine
end

