-- ==== Sys2Proof/Machine/Dispatch.lean ====
section
/-! DEFINITION. One arm per instruction (R83, R91). -/

namespace Sys2Proof.Machine

def exec (i : Instr) (s : State) : Host.Outcome State Fault Refusal :=
  match i with
  | .wrsr o => Sys2Proof.Machine.execWrsr o s
  | .write o => Sys2Proof.Machine.execWrite o s
  | .read o => Sys2Proof.Machine.execRead o s
  | .wrdi o => Sys2Proof.Machine.execWrdi o s
  | .rdsr o => Sys2Proof.Machine.execRdsr o s
  | .wren o => Sys2Proof.Machine.execWren o s
  | .writePage o => Sys2Proof.Machine.execWritePage o s
  | .readPage addr => Sys2Proof.Machine.execReadPage addr s
  | .readByte addr => Sys2Proof.Machine.execReadByte addr s
  | .writeByte addr value => Sys2Proof.Machine.execWriteByte addr value s

end Sys2Proof.Machine
end

