-- ==== Sys2Proof/Machine/Step.lean ====
section
/-! DEFINITION. One step of the machine: the reset input first, then a phase of the command in progress, then the
command port. -/

namespace Sys2Proof.Machine

/-- What an idle machine does with the accepted action of a requester (R103, R189). -/
def accept (a : HostAction) (s : State) : Result :=
  match a with
  | .wait ms => .next (hostWait ms s)
  | .issue d =>
    match decodeDescriptor d with
    | .ok i => exec i s
    | .error _ => runReserved d s

/-- One step. A reset that is due is taken (R200, R201). A busy machine goes on by one phase and accepts nothing (R37).
An idle one accepts the action of a waiting requester, and a command then runs to its end; with none waiting it stays
in IDLE (R103). -/
def step (s : State) : Host.Outcome State Fault Refusal :=
  if s.resetDue then .next (takeReset s)
  else if s.busy then advance s
  else
    match arbitrate s with
    | none => .next s.countdown
    | some (a, t) => accept a t

/-- `s` with the instruction of a table word presented at the command port, so that the next step runs it
(DESIGN CHOICE, log entry 11). A word that decodes to no instruction leaves the port empty. -/
def State.withFetchWord (s : State) (nbits w : Nat) : State :=
  match decodeTableWord nbits w with
  | some i => present i.descriptor s
  | none => { s with phase := .idle, resets := [], requesters := [] }

end Sys2Proof.Machine
end

