-- ==== Sys2Proof/Machine/BigStep.lean ====
section
/-! DEFINITION. The big step of R114: `Run(desc)` as a function of the descriptor and the bus oracle, with no state.
The phase machine of Machine/Ops.lean is the model's step; that the two agree is a statement (R114). -/

namespace Sys2Proof.Machine

/-- One transfer of a frame: a byte clocked out, or one clocked in (R81). -/
inductive Transfer where
  | send (b : Byte)
  | receive
  deriving DecidableEq, Repr

/-- The transfers of a command's frame: the header, then the data bytes in its direction (R81, R94). -/
def frameTransfers (o : Operands) (c : Command) : List Transfer :=
  (c.header o.addr).map Transfer.send ++
    match c.dir with
    | .out => (o.wdata.toList.take (c.nData o.len).toNat).map Transfer.send
    | .inward => List.replicate (c.nData o.len).toNat Transfer.receive
    | .none => []

/-- The event of a transfer, by the byte and the ok flag of the oracle (R101). -/
def Transfer.event (b : Byte) (ok : Bool) : Transfer → Event
  | .send x => .tx x ok
  | .receive => .rx Config.filler b ok

/-- The byte a transfer brings in, if it brings one in. -/
def Transfer.received (b : Byte) : Transfer → List Byte
  | .send _ => []
  | .receive => [b]

/-- What a run of transfers gives: its events, whether one failed, and the bytes received before that. -/
structure TransferRun where
  events : List Event
  failed : Bool
  received : List Byte
  deriving DecidableEq, Repr

/-- Transfers one after another until one fails (R114); `oracle k` answers the `k`-th. -/
def runTransfers (oracle : Nat → Byte × Bool) (l : List Transfer) : TransferRun :=
  match l with
  | [] => { events := [], failed := false, received := [] }
  | t :: rest =>
    let b := (oracle 0).1
    let ok := (oracle 0).2
    if ok then
      let r := runTransfers (fun k => oracle (k + 1)) rest
      { events := t.event b ok :: r.events, failed := r.failed, received := t.received b ++ r.received }
    else { events := [t.event b ok], failed := true, received := [] }

/-- The result of a command: STATUS, RLEN and the bytes of RBUF it received (R114). -/
structure CommandResult where
  status : BitVec 2
  rlen : Half
  received : List Byte
  deriving DecidableEq, Repr

/-- `Run(desc)` (R114): the trace and the result. -/
def bigStep (d : Descriptor) (oracle : Nat → Byte × Bool) : List Event × CommandResult :=
  match Command.ofKind d.kind with
  | none => ([], { status := statusInvalidArgument, rlen := 0#16, received := [] })
  | some c =>
    if valid d.kind d.operands.addr d.operands.len then
      let r := runTransfers oracle (frameTransfers d.operands c)
      (Event.sel :: (r.events ++ [Event.desel, Event.delay Config.tSettleMs]),
        if r.failed then { status := statusBusError, rlen := 0#16, received := r.received }
        else
          { status := statusOk, rlen := resultLength c (c.nData d.operands.len), received := r.received })
    else ([], { status := statusInvalidArgument, rlen := 0#16, received := [] })

end Sys2Proof.Machine
end

