-- ==== Sys2Proof/Safety.lean ====
section
/-! DEFINITION. The terms in which claims speak of a run: a machine that can take a command, a bus that does not fail or
fails at a given transfer, a device outside its write cycle, the events of a frame, and the invariants of the machine. -/

namespace Sys2Proof.Machine

/-- The command port takes a command now, and no reset falls into it (R36, R201). -/
def State.Ready (s : State) : Prop := s.phase = .idle ∧ s.resets = []

/-- The next `k` transfers do not fail. -/
def State.BusOk (k : Nat) (s : State) : Prop := s.oks.take k = List.replicate k true

/-- The next `k` transfers succeed and the one after them fails. -/
def State.BusFailsAfter (k : Nat) (s : State) : Prop := s.oks.take (k + 1) = List.replicate k true ++ [false]

/-- No write cycle runs in the device (R63). -/
def State.DeviceQuiet (s : State) : Prop := s.dev.wip = false

/-- `BusTx` events of bytes that were all transferred. -/
def sent (l : List Byte) : List Event := l.map fun b => .tx b true

/-- `BusRx` events of bytes that were all transferred. -/
def got (l : List Byte) : List Event := l.map fun b => .rx Config.filler b true

/-- What a whole frame adds to the trace, its transfers given (R113). -/
def framed (transfers : List Event) : List Event :=
  .sel :: (transfers ++ [.desel, .delay Config.tSettleMs])

/-- A transfer event (R101). -/
def Event.isTransfer : Event → Bool
  | .tx _ _ => true
  | .rx _ _ _ => true
  | .sel => false
  | .desel => false
  | .delay _ => false

/-- A transfer event that reports success. -/
def Event.succeeded : Event → Bool
  | .tx _ ok => ok
  | .rx _ _ ok => ok
  | .sel => false
  | .desel => false
  | .delay _ => false

/-- The byte a transfer event clocks out. -/
def Event.byteOut : Event → List Byte
  | .tx b _ => [b]
  | .rx f _ _ => [f]
  | .sel => []
  | .desel => []
  | .delay _ => []

/-- The byte the device's array holds at an address: the model's read of one byte of memory. -/
def State.memByte (s : State) (a : Nat) : Byte := s.dev.cell a

/-- The phases in which the select line is low: from the end of SEL to the start of DESEL's drive (R32). -/
def Phase.selected : Phase → Bool
  | .opc => true
  | .alo => true
  | .ahi => true
  | .data => true
  | .desel => true
  | .idle => false
  | .check => false
  | .sel => false
  | .settle => false
  | .done => false

/-- The phases after a passed check (R42). -/
def Phase.checked : Phase → Bool
  | .idle => false
  | .check => false
  | .sel => true
  | .opc => true
  | .alo => true
  | .ahi => true
  | .data => true
  | .desel => true
  | .settle => true
  | .done => true

/-- The invariant of the machine. -/
structure State.Inv (s : State) : Prop where
  /-- CS_N is 0 exactly in the phases of a frame (R32). -/
  select : s.csN = !s.phase.selected
  /-- The device is in a frame exactly while it is selected (R57). -/
  frame : s.dev.frame.isSome = s.phase.selected
  /-- STATUS 3 is never written (R28). -/
  status : s.status ≠ 3#2
  /-- RLEN never exceeds the buffer (R24, R29). -/
  result : s.rlen.toNat ≤ Config.pageSize
  /-- After the check the latched descriptor is valid and N is what R86 says (R24). -/
  latched : s.phase.checked = true →
    ∃ c, s.command = some c ∧ valid s.kind s.addr s.len = true ∧ s.n = c.nData s.len
  /-- Address bytes are sent only in a frame that has an address (R106). -/
  address : s.phase = .alo ∨ s.phase = .ahi → ∃ c, s.command = some c ∧ c.hasAddr = true
  /-- IDX is 0 until the data bytes begin (R105). -/
  opening : s.phase = .opc ∨ s.phase = .alo ∨ s.phase = .ahi → s.idx = 0#16
  /-- In DATA, IDX is below N (R22). -/
  counting : s.phase = .data → s.idx.toNat < s.n.toNat
  /-- The array's list of cells is in its canonical form. -/
  canonical : s.dev.mem.wf
  /-- No cell lies beyond the array (R55). -/
  inArray : ∀ x ∈ s.dev.mem, x.1 < Config.memSize
  /-- A write cycle takes at most T_WC (R63). -/
  cycle : s.dev.cycleLeft ≤ Config.tWcMs

/-- No write cycle runs when a frame can start (R63, last sentence). -/
def State.Settled (s : State) : Prop :=
  s.dev.cycleLeft ≤ Config.tWcMs ∧
  (s.phase = .idle ∨ s.phase = .check ∨ s.phase = .sel ∨ s.phase = .done → s.dev.wip = false)

/-- Two states in which a command meets the same device and the same bus; what earlier commands left in the sequencer
and in the records may differ (R20). -/
def SameWorld (s t : State) : Prop := s.dev = t.dev ∧ s.oks = t.oks ∧ s.draws = t.draws

/-- What a command added to the trace. -/
def AddedTrace (s t : State) (events : List Event) : Prop := t.trace = s.trace ++ events

/-- The host-side events of a command: issued once, completed once (R38). -/
def AddedHostTrace (d : Descriptor) (status : BitVec 2) (s t : State) : Prop :=
  t.hostTrace = s.hostTrace ++ [HostEvent.issue d, HostEvent.complete status]

/-- What a command with a passed check leaves everywhere but in RBUF, STATUS, RLEN and the device, whatever the bus
did: the latches hold the descriptor, the line is high, the environment's other inputs are as they were. -/
def CommandLatched (c : Command) (o : Operands) (s t : State) : Prop :=
  t.phase = .idle ∧ t.csN = true ∧ t.kind = c.kind ∧ t.addr = o.addr ∧ t.len = o.len ∧ t.wbuf = o.wdata ∧
  t.n = c.nData o.len ∧ t.requesters = s.requesters ∧ t.resets = s.resets

/-- The registers, inputs and records after a command that ends with STATUS OK (R112, R113). -/
def CompletedOk (c : Command) (o : Operands) (rlen : Half) (transfers : List Event) (s t : State) : Prop :=
  CommandLatched c o s t ∧ t.idx = c.nData o.len ∧ t.err = false ∧ t.status = statusOk ∧ t.rlen = rlen ∧
  t.oks = s.oks.drop transfers.length ∧ AddedTrace s t (framed transfers) ∧
  AddedHostTrace { kind := c.kind, operands := o } statusOk s t

/-- The device's array, latch and status register are as before. -/
def DeviceKept (s t : State) : Prop :=
  (∀ a, t.memByte a = s.memByte a) ∧ t.dev.wel = s.dev.wel ∧ t.dev.sr = s.dev.sr

/-- The array holds the payload in the bytes stored to and is as before elsewhere (R51, R60). -/
def StoredBytes (a : Nat) (data : List Byte) (s t : State) : Prop :=
  (∀ i (h : i < data.length), t.memByte (a + i) = data[i]) ∧
  (∀ x, x < a ∨ a + data.length ≤ x → t.memByte x = s.memByte x)

/-- The operands of a command that it does not ignore (R93). -/
def relevantOperands (o : Operands) : Command → Half × Half × List Byte
  | .wren => (0#16, 0#16, [])
  | .wrdi => (0#16, 0#16, [])
  | .rdsr => (0#16, 0#16, [])
  | .wrsr => (0#16, 0#16, [o.wdata[0]])
  | .read => (o.addr, o.len, [])
  | .write => (o.addr, o.len, o.wdata.toList.take o.len.toNat)
  | .writePage => (o.addr, o.len, o.wdata.toList.take o.len.toNat)

/-- The latches, written only when a command is accepted (R23). -/
def LatchesKept (s t : State) : Prop :=
  t.kind = s.kind ∧ t.addr = s.addr ∧ t.len = s.len ∧ t.wbuf = s.wbuf

/-- The results, written only when a command completes (R28, R29, R38). -/
def ResultsKept (s t : State) : Prop := t.status = s.status ∧ t.rlen = s.rlen ∧ t.hostTrace = s.hostTrace

/-- What the host put in: its commands and the resets to come. -/
def InputsKept (s t : State) : Prop := t.requesters = s.requesters ∧ t.resets = s.resets

end Sys2Proof.Machine
end

