-- ==== Sys2Proof/Certificates/Slice0/Obligations.lean ====
section
/-! DEFINITION. The statements for the provers, from the numbered rules of spec/. OBLIGATIONS.json gives each its tier,
its basis and the rules it cites. -/

open Sys2Proof Sys2Proof.Machine

/-! ## Parameters, pages and the check -/

/-- R8: the configuration is legal, whatever value the open parameters have. That T_SETTLE_MS covers T_WC is how R8
bounds T_SETTLE_MS. -/
def Obligations.ConfigurationIsLegal : Prop :=
  Config.params.Legal Config.tWcMs ∧
  Config.params.pageSize = 16 ∧ Config.params.pageBits = 4 ∧ Config.params.filler = 0x00#8

/-- R53: PageOf and OffsetOf, for every legal page size and for the 16 bytes of this hardware. -/
def Obligations.PagesTileTheAddressSpace : Prop :=
  (∀ bits a : Nat, bits ≤ 15 → a < 65536 →
    offsetOf (2 ^ bits) a < 2 ^ bits ∧
    pageOf (2 ^ bits) a * 2 ^ bits + offsetOf (2 ^ bits) a = a ∧
    pageOf (2 ^ bits) a * 2 ^ bits + 2 ^ bits ≤ 65536) ∧
  (∀ a : Half, offsetOf Config.pageSize a.toNat = (a.extractLsb' 0 4).toNat) ∧
  (∀ a p : Nat, pageOf Config.pageSize a = p ↔
    p * Config.pageSize ≤ a ∧ a ≤ p * Config.pageSize + Config.pageSize - 1) ∧
  pageOf Config.pageSize 0xFFFF * Config.pageSize + Config.pageSize - 1 = 0xFFFF

/-- R54: Crosses, its equivalent form, its examples, and that an accepted range ends inside the address space. -/
def Obligations.CrossesMeansTwoPages : Prop :=
  (∀ pageSize a n : Nat, 0 < pageSize → 1 ≤ n →
    (crosses pageSize a n = true ↔ pageSize < offsetOf pageSize a + n) ∧
    (crosses pageSize a n = true ↔ pageOf pageSize a ≠ pageOf pageSize (a + n - 1))) ∧
  (∀ (a : Half) (n : Nat), 1 ≤ n → crosses Config.pageSize a.toNat n = false → a.toNat + n ≤ 65536) ∧
  crosses 16 0x0000 16 = false ∧ crosses 16 0x0001 16 = true ∧
  crosses 16 0x000F 1 = false ∧ crosses 16 0x000F 2 = true

/-- R102: what Valid decides, KIND by KIND. -/
def Obligations.CheckDecidesByKind : Prop :=
  ∀ a l : Half,
    valid 0#3 a l = false ∧
    valid 1#3 a l = true ∧ valid 4#3 a l = true ∧ valid 5#3 a l = true ∧ valid 6#3 a l = true ∧
    (valid 3#3 a l = true ↔ 1 ≤ l.toNat ∧ l.toNat ≤ Config.pageSize) ∧
    (valid 2#3 a l = true ↔
      1 ≤ l.toNat ∧ l.toNat ≤ Config.pageSize ∧ crosses Config.pageSize a.toNat l.toNat = false) ∧
    (valid 7#3 a l = true ↔
      l.toNat = Config.pageSize ∧ crosses Config.pageSize a.toNat l.toNat = false)

/-- R142, R143, R153: the check of an alias always passes. -/
def Obligations.AliasChecksAlwaysPass : Prop :=
  ∀ (a : Half) (v : Byte),
    instrValid (.readPage a) = true ∧ instrValid (.readByte a) = true ∧ instrValid (.writeByte a v) = true

/-! ## Encoding -/

/-- R84, R85, R86: the opcode, HasAddr, Dir and NData of each KIND; KIND 0 has none. -/
def Obligations.EncodingOfEachKind : Prop :=
  (Command.ofKind 1#3).map Command.opcode = some 0x01#8 ∧ (Command.ofKind 2#3).map Command.opcode = some 0x02#8 ∧
  (Command.ofKind 3#3).map Command.opcode = some 0x03#8 ∧ (Command.ofKind 4#3).map Command.opcode = some 0x04#8 ∧
  (Command.ofKind 5#3).map Command.opcode = some 0x05#8 ∧ (Command.ofKind 6#3).map Command.opcode = some 0x06#8 ∧
  (Command.ofKind 7#3).map Command.opcode = some 0x02#8 ∧ Command.ofKind 0#3 = none ∧
  ∀ (k : BitVec 3) (c : Command) (len : Half), Command.ofKind k = some c →
    (c.hasAddr = true ↔ k = 2#3 ∨ k = 3#3 ∨ k = 7#3) ∧
    (c.dir = .out ↔ k = 1#3 ∨ k = 2#3 ∨ k = 7#3) ∧
    (c.dir = .inward ↔ k = 3#3 ∨ k = 5#3) ∧
    (c.dir = .none ↔ k = 4#3 ∨ k = 6#3) ∧
    (c.nData len = if k = 4#3 ∨ k = 6#3 then 0#16 else if k = 1#3 ∨ k = 5#3 then 1#16 else len)

/-- R80, R81, R94: frames written out from the spec's encodings decode to the commands they stand for. -/
def Obligations.KnownFramesDecode : Prop :=
  decodeFrame [0x06#8] = .ok (.wren (frameOperands 0#16 0 [])) ∧
  decodeFrame [0x04#8] = .ok (.wrdi (frameOperands 0#16 0 [])) ∧
  decodeFrame [0x05#8, 0x00#8] = .ok (.rdsr (frameOperands 0#16 0 [])) ∧
  decodeFrame [0x01#8, 0x0C#8] = .ok (.wrsr (frameOperands 0#16 0 [0x0C#8])) ∧
  decodeFrame [0x03#8, 0x34#8, 0x12#8, 0x00#8, 0x00#8] = .ok (.read (frameOperands 0x1234#16 2 [])) ∧
  decodeFrame [0x02#8, 0x2E#8, 0x00#8, 0x11#8, 0x22#8] =
    .ok (.write (frameOperands 0x002E#16 2 [0x11#8, 0x22#8])) ∧
  decodeFrame [0x07#8] = .error (.unknownOpcode 0x07#8)

/-- R94, R95: decoding the frame of a well-formed instruction that passes its check gives it back, with every operand,
as far as a frame shows it: a WRITE_PAGE as the WRITE of the same bytes, an alias as its expansion. -/
def Obligations.FrameDecodesToItsInstruction : Prop :=
  ∀ i : Instr, i.wellFormed = true → instrValid i = true → decodeFrame (encode i) = .ok i.onWire

/-- R95: two well-formed instructions with the same frame show the same instruction on the wire. -/
def Obligations.FramesAreInjective : Prop :=
  ∀ i j : Instr, i.wellFormed = true → j.wellFormed = true → instrValid i = true → instrValid j = true →
    encode i = encode j → i.onWire = j.onWire

/-- The other direction of the frame codec (R94, R95): a frame that decodes gives a well-formed core instruction, and it
is that instruction's frame, if the bytes clocked out of a read are fillers. -/
def Obligations.DecodedFrameEncodesBack : Prop :=
  ∀ (bytes : List Byte) (i : Instr), decodeFrame bytes = .ok i →
    i.wellFormed = true ∧ i.onWire = i ∧
    ((i.command.dir = .inward → bytes.drop (i.command.header i.operands.addr).length =
        List.replicate (i.command.nData i.operands.len).toNat Config.filler) →
      encode i = bytes)

/-- R82, R83, R88: descriptors and instructions stand for each other; KIND 0 stands for none. -/
def Obligations.DescriptorsDecode : Prop :=
  (∀ i : Instr, decodeDescriptor i.descriptor = .ok (i.command.instr i.operands)) ∧
  (∀ d : Descriptor, d.kind ≠ 0#3 → ∃ i, decodeDescriptor d = .ok i ∧ i.descriptor = d) ∧
  (∀ d : Descriptor, d.kind = 0#3 ↔ decodeDescriptor d = .error .reservedKind)

/-- R80, R89, R90: the length of a frame, its header, and that its first byte is one of the six opcodes. -/
def Obligations.FrameLengthAndFirstByte : Prop :=
  ∀ i : Instr, instrValid i = true →
    (encode i).length = i.command.frameLen i.operands.len ∧ (encode i).length ≤ 19 ∧
    ((encode i).length = 1 ∨ (encode i).length = 2 ∨
      (encode i).length = 3 + i.operands.len.toNat) ∧
    (∃ op, (encode i).head? = some op ∧ 0x01#8 ≤ op ∧ op ≤ 0x06#8)

/-! ## The phases (R103 to R112), each as one step -/

/-- R104: CHECK. -/
def Obligations.CheckStep : Prop :=
  ∀ s : State, s.phase = .check → s.resets = [] →
    (∀ c, s.command = some c → valid s.kind s.addr s.len = true →
      step s = .next { s with n := c.nData s.len, phase := .sel }) ∧
    (valid s.kind s.addr s.len = false →
      step s = .next { s with
        status := 1#2, rlen := 0#16, phase := .idle
        hostTrace := s.hostTrace ++ [HostEvent.complete 1#2] })

/-- R105: SEL. -/
def Obligations.SelectStep : Prop :=
  ∀ s : State, s.phase = .sel → s.resets = [] →
    step s = .next { s with
      csN := false, idx := 0#16, err := false, phase := .opc
      dev := { s.dev with frame := some { bytes := [], failed := false, cut := false, inCycle := s.dev.wip } }
      trace := s.trace ++ [Event.sel] }

/-- R106: OPC. -/
def Obligations.OpcodeStep : Prop :=
  ∀ (s : State) (c : Command), s.phase = .opc → s.resets = [] → s.command = some c →
    ∃ t, step s = .next t ∧ t.trace = s.trace ++ [Event.tx c.opcode s.nextOk] ∧
      (s.nextOk = false → t.err = true ∧ t.phase = .desel) ∧
      (s.nextOk = true → t.err = s.err ∧
        (c.hasAddr = true → t.phase = .alo) ∧
        (c.hasAddr = false → 0 < s.n.toNat → t.phase = .data) ∧
        (c.hasAddr = false → s.n.toNat = 0 → t.phase = .desel)) ∧
      LatchesKept s t ∧ ResultsKept s t ∧ InputsKept s t ∧
      t.csN = s.csN ∧ t.n = s.n ∧ t.idx = s.idx ∧ t.rbuf = s.rbuf

/-- R107, R108: ALO and AHI send the address low byte first; a frame with an address has a data byte. -/
def Obligations.AddressSteps : Prop :=
  (∀ (c : Command) (a l : Half), c.hasAddr = true → valid c.kind a l = true → 1 ≤ (c.nData l).toNat) ∧
  ∀ s : State, s.resets = [] →
    (s.phase = .alo → ∃ t, step s = .next t ∧ t.trace = s.trace ++ [Event.tx (s.addr.extractLsb' 0 8) s.nextOk] ∧
      (s.nextOk = false → t.err = true ∧ t.phase = .desel) ∧ (s.nextOk = true → t.err = s.err ∧ t.phase = .ahi) ∧
      LatchesKept s t ∧ ResultsKept s t ∧ InputsKept s t ∧
      t.csN = s.csN ∧ t.n = s.n ∧ t.idx = s.idx ∧ t.rbuf = s.rbuf) ∧
    (s.phase = .ahi → ∃ t, step s = .next t ∧ t.trace = s.trace ++ [Event.tx (s.addr.extractLsb' 8 8) s.nextOk] ∧
      (s.nextOk = false → t.err = true ∧ t.phase = .desel) ∧ (s.nextOk = true → t.err = s.err ∧ t.phase = .data) ∧
      LatchesKept s t ∧ ResultsKept s t ∧ InputsKept s t ∧
      t.csN = s.csN ∧ t.n = s.n ∧ t.idx = s.idx ∧ t.rbuf = s.rbuf)

/-- R109: DATA, one byte out of WBUF or into RBUF. -/
def Obligations.DataStep : Prop :=
  ∀ (s : State) (c : Command) (h : s.idx.toNat < Config.pageSize),
    s.phase = .data → s.resets = [] → s.command = some c → s.idx.toNat < s.n.toNat →
    ∃ t, step s = .next t ∧
      (c.dir = .out → t.trace = s.trace ++ [Event.tx s.wbuf[s.idx.toNat] s.nextOk] ∧ t.rbuf = s.rbuf) ∧
      (c.dir ≠ .out → t.trace = s.trace ++ [Event.rx Config.filler s.nextByte s.nextOk] ∧
        t.rbuf = if s.nextOk then s.rbuf.set s.idx.toNat s.nextByte else s.rbuf) ∧
      (s.nextOk = false → t.err = true ∧ t.phase = .desel ∧ t.idx = s.idx) ∧
      (s.nextOk = true → t.err = s.err ∧ t.idx.toNat = s.idx.toNat + 1 ∧
        (s.idx.toNat + 1 = s.n.toNat → t.phase = .desel) ∧ (s.idx.toNat + 1 ≠ s.n.toNat → t.phase = .data)) ∧
      LatchesKept s t ∧ ResultsKept s t ∧ InputsKept s t ∧ t.csN = s.csN ∧ t.n = s.n

/-- R110: DESEL, on the normal and on the failure path alike. -/
def Obligations.DeselectStep : Prop :=
  ∀ s : State, s.phase = .desel → s.resets = [] →
    ∃ t, step s = .next t ∧ t.trace = s.trace ++ [Event.desel] ∧ t.csN = true ∧ t.phase = .settle ∧
      t.dev.frame = none ∧ LatchesKept s t ∧ ResultsKept s t ∧ InputsKept s t ∧
      t.err = s.err ∧ t.n = s.n ∧ t.idx = s.idx ∧ t.rbuf = s.rbuf ∧ t.oks = s.oks

/-- R111: SETTLE, whatever the command and whether or not a transfer failed. -/
def Obligations.SettleStep : Prop :=
  ∀ s : State, s.phase = .settle → s.resets = [] →
    ∃ t, step s = .next t ∧ t.trace = s.trace ++ [Event.delay Config.tSettleMs] ∧ t.phase = .done ∧
      t.csN = s.csN ∧ LatchesKept s t ∧ ResultsKept s t ∧ InputsKept s t ∧
      t.err = s.err ∧ t.n = s.n ∧ t.idx = s.idx ∧ t.rbuf = s.rbuf ∧ t.oks = s.oks

/-- R112: DONE. -/
def Obligations.DoneStep : Prop :=
  ∀ (s : State) (c : Command), s.phase = .done → s.resets = [] → s.command = some c →
    (s.err = true → step s = .next { s with
      status := 2#2, rlen := 0#16, phase := .idle, hostTrace := s.hostTrace ++ [HostEvent.complete 2#2] }) ∧
    (s.err = false → step s = .next { s with
      status := 0#2, rlen := if c.dir = .inward then s.n else 0#16, phase := .idle
      hostTrace := s.hostTrace ++ [HostEvent.complete 0#2] })

/-- R42: the order of the phases in a step of a machine that is in a command, on every path. -/
def Obligations.PhaseOrder : Prop :=
  ∀ s t : State, s.Inv → s.phase ≠ .idle → s.resets = [] → step s = .next t →
    (s.phase = .check → t.phase = .sel ∨ t.phase = .idle) ∧
    (s.phase = .sel → t.phase = .opc) ∧
    (s.phase = .opc → t.phase = .alo ∨ t.phase = .data ∨ t.phase = .desel) ∧
    (s.phase = .alo → t.phase = .ahi ∨ t.phase = .desel) ∧
    (s.phase = .ahi → t.phase = .data ∨ t.phase = .desel) ∧
    (s.phase = .data → t.phase = .data ∨ t.phase = .desel) ∧
    (s.phase = .desel → t.phase = .settle) ∧
    (s.phase = .settle → t.phase = .done) ∧
    (s.phase = .done → t.phase = .idle)

/-! ## The step and the command port -/

/-- An idle machine that accepts a descriptor which decodes to an instruction runs exactly that instruction; taking the
descriptor from its requester is all the step adds. -/
def Obligations.StepRunsTheDecodedInstruction : Prop :=
  ∀ (s t : State) (d : Descriptor) (i : Instr), s.Ready → arbitrate s = some (.issue d, t) →
    decodeDescriptor d = .ok i → step s = exec i t

/-- R37, R116: a busy machine takes no command: an instruction presented to it waits while the one in progress goes on,
and a step leaves every requester's command where it was. -/
def Obligations.BusyMachineTakesNoCommand : Prop :=
  ∀ s t : State, s.phase ≠ .idle → s.resets = [] → step s = .next t →
    t.requesters = s.requesters ∧ LatchesKept s t ∧ (∀ i : Instr, exec i s = .next t) ∧
    (∀ d, HostEvent.issue d ∈ t.hostTrace → HostEvent.issue d ∈ s.hostTrace)

/-- R103: without a descriptor the machine stays in IDLE. -/
def Obligations.IdleMachineStays : Prop :=
  ∀ s : State, s.Ready → (∀ l ∈ s.requesters, l = []) → step s = .next s

/-- R188, R65: the accepted action is the first one of some waiting requester, every other requester keeps its own in
order, and some requester is served whenever one waits. -/
def Obligations.ArbitrationServesAWaitingRequester : Prop :=
  (∀ (s t : State) (a : HostAction), arbitrate s = some (a, t) →
    ∃ r rest n, s.requesters[r]? = some (a :: rest) ∧
      t = { s with requesters := s.requesters.set r rest, draws := n }) ∧
  (∀ s : State, (∃ l ∈ s.requesters, l ≠ []) → ∃ a t, arbitrate s = some (a, t))

/-- R88: a descriptor with the reserved KIND 0 completes with InvalidArgument; nothing is transmitted and the select
line and the device are not touched. No other code is unassigned. -/
def Obligations.ReservedKindIsRejected : Prop :=
  (∀ k : BitVec 3, k ≠ 0#3 → ∃ c, Command.ofKind k = some c) ∧
  ∀ (s t : State) (o : Operands), s.Ready → arbitrate s = some (.issue { kind := 0#3, operands := o }, t) →
    step s = .next { t with
      kind := 0#3, addr := o.addr, len := o.len, wbuf := o.wdata, status := 1#2, rlen := 0#16
      hostTrace := t.hostTrace ++ [HostEvent.issue { kind := 0#3, operands := o }, HostEvent.complete 1#2] }

/-- The next step after a table word is placed runs the instruction the decoder reads from it. How a word is laid out and
placed is the model's choice (log entries 10 and 11). -/
def Obligations.FetchedWordRuns : Prop :=
  ∀ (s : State) (nbits w : Nat) (i : Instr), decodeTableWord nbits w = some i →
    step (s.withFetchWord nbits w) =
      exec i { s with phase := .idle, resets := [], requesters := [[]] }

/-! ## Commands that complete -/

/-- R120: WREN. -/
def Obligations.WrenCompletes : Prop :=
  ∀ (o : Operands) (s : State), s.Ready → s.BusOk 1 → s.DeviceQuiet →
    ∃ t, exec (.wren o) s = .next t ∧ CompletedOk .wren o 0#16 (sent [0x06#8]) s t ∧ t.rbuf = s.rbuf ∧
      t.dev.wel = true ∧ (∀ a, t.memByte a = s.memByte a) ∧ t.dev.sr = s.dev.sr

/-- R121: WRDI. -/
def Obligations.WrdiCompletes : Prop :=
  ∀ (o : Operands) (s : State), s.Ready → s.BusOk 1 → s.DeviceQuiet →
    ∃ t, exec (.wrdi o) s = .next t ∧ CompletedOk .wrdi o 0#16 (sent [0x04#8]) s t ∧ t.rbuf = s.rbuf ∧
      t.dev.wel = false ∧ (∀ a, t.memByte a = s.memByte a) ∧ t.dev.sr = s.dev.sr

/-- R130, R61: RDSR returns the byte clocked in, whatever it is, and changes nothing in the device. -/
def Obligations.RdsrCompletes : Prop :=
  ∀ (o : Operands) (s : State), s.Ready → s.BusOk 2 → s.DeviceQuiet →
    ∃ t v, exec (.rdsr o) s = .next t ∧ CompletedOk .rdsr o 1#16 (sent [0x05#8] ++ got [v]) s t ∧
      t.rbuf[0] = v ∧ DeviceKept s t

/-- R131, R62: WRSR sends its byte; the device takes it only while the latch is set, which it then clears. -/
def Obligations.WrsrCompletes : Prop :=
  ∀ (o : Operands) (s : State), s.Ready → s.BusOk 2 → s.DeviceQuiet →
    ∃ t, exec (.wrsr o) s = .next t ∧ CompletedOk .wrsr o 0#16 (sent [0x01#8, o.wdata[0]]) s t ∧ t.rbuf = s.rbuf ∧
      (∀ a, t.memByte a = s.memByte a) ∧ t.dev.wel = false ∧ (s.dev.wel = false → t.dev.sr = s.dev.sr)

/-- R140, R51, R59: READ sends its header and returns one byte for each address, the array's content below MEM_SIZE; it
may cross pages; it changes nothing in the device. -/
def Obligations.ReadCompletes : Prop :=
  ∀ (o : Operands) (s : State), s.Ready → instrValid (.read o) = true → s.BusOk (3 + o.len.toNat) → s.DeviceQuiet →
    ∃ t received, exec (.read o) s = .next t ∧ received.length = o.len.toNat ∧
      CompletedOk .read o o.len (sent [0x03#8, lowByte o.addr, highByte o.addr] ++ got received) s t ∧
      (∀ i, i < o.len.toNat → t.rbuf[i]? = received[i]?) ∧
      (∀ i, i < o.len.toNat → o.addr.toNat + i < Config.memSize →
        received[i]? = some (s.memByte (o.addr.toNat + i))) ∧
      DeviceKept s t

/-- R142, R143: READ_PAGE and READ_BYTE complete as the READ of PAGE_SIZE bytes and of one byte. -/
def Obligations.ReadAliasesComplete : Prop :=
  ∀ (a : Half) (s : State), s.Ready → s.DeviceQuiet →
    (s.BusOk 19 → ∃ t received, exec (.readPage a) s = .next t ∧ received.length = 16 ∧
      CompletedOk .read (Instr.operands (.readPage a)) 16#16
        (sent [0x03#8, lowByte a, highByte a] ++ got received) s t ∧
      t.rbuf.toList = received ∧
      (∀ i, i < 16 → a.toNat + i < Config.memSize → received[i]? = some (s.memByte (a.toNat + i))) ∧
      DeviceKept s t) ∧
    (s.BusOk 4 → ∃ t v, exec (.readByte a) s = .next t ∧
      CompletedOk .read (Instr.operands (.readByte a)) 1#16
        (sent [0x03#8, lowByte a, highByte a] ++ got [v]) s t ∧
      t.rbuf[0] = v ∧ (a.toNat < Config.memSize → v = s.memByte a.toNat) ∧ DeviceKept s t)

/-- R150, R60: WRITE sends its header and payload; with the latch set and the bytes inside the array the device stores
exactly them, in ascending order, and clears the latch. -/
def Obligations.WriteCompletes : Prop :=
  ∀ (o : Operands) (s : State), s.Ready → instrValid (.write o) = true → s.BusOk (3 + o.len.toNat) → s.DeviceQuiet →
    ∃ t, exec (.write o) s = .next t ∧
      CompletedOk .write o 0#16
        (sent ([0x02#8, lowByte o.addr, highByte o.addr] ++ o.wdata.toList.take o.len.toNat)) s t ∧
      t.rbuf = s.rbuf ∧
      (s.dev.wel = true → o.addr.toNat + o.len.toNat ≤ Config.memSize →
        StoredBytes o.addr.toNat (o.wdata.toList.take o.len.toNat) s t ∧ t.dev.wel = false ∧ t.dev.sr = s.dev.sr) ∧
      (s.dev.wel = false → DeviceKept s t)

/-- R152: WRITE_PAGE does the same with exactly one page. -/
def Obligations.WritePageCompletes : Prop :=
  ∀ (o : Operands) (s : State), s.Ready → instrValid (.writePage o) = true → s.BusOk 19 → s.DeviceQuiet →
    ∃ t, exec (.writePage o) s = .next t ∧
      CompletedOk .writePage o 0#16
        (sent ([0x02#8, lowByte o.addr, highByte o.addr] ++ o.wdata.toList)) s t ∧
      t.rbuf = s.rbuf ∧
      (s.dev.wel = true → o.addr.toNat + 16 ≤ Config.memSize →
        StoredBytes o.addr.toNat o.wdata.toList s t ∧ t.dev.wel = false ∧ t.dev.sr = s.dev.sr) ∧
      (s.dev.wel = false → DeviceKept s t)

/-- R153: WRITE_BYTE writes one byte. -/
def Obligations.WriteByteCompletes : Prop :=
  ∀ (a : Half) (v : Byte) (s : State), s.Ready → s.BusOk 4 → s.DeviceQuiet →
    ∃ t, exec (.writeByte a v) s = .next t ∧
      CompletedOk .write (Instr.operands (.writeByte a v)) 0#16
        (sent [0x02#8, lowByte a, highByte a, v]) s t ∧
      t.rbuf = s.rbuf ∧
      (s.dev.wel = true → a.toNat < Config.memSize →
        t.memByte a.toNat = v ∧ (∀ x, x ≠ a.toNat → t.memByte x = s.memByte x) ∧ t.dev.wel = false ∧
        t.dev.sr = s.dev.sr) ∧
      (s.dev.wel = false → DeviceKept s t)

/-! ## Frames on every behaviour of the bus -/

/-- R71, R59, R61: whatever the bus does, READ, its aliases and RDSR leave the device's array, latch and status register
as they were. -/
def Obligations.ReadsLeaveTheDevice : Prop :=
  ∀ (i : Instr) (s t : State), i.command = .read ∨ i.command = .rdsr → s.Ready → s.DeviceQuiet →
    exec i s = .next t → DeviceKept s t

/-- R58, R62: whatever the bus does, WREN, WRDI and WRSR leave every byte of the array as it was. -/
def Obligations.LatchAndStatusCommandsLeaveTheArray : Prop :=
  ∀ (i : Instr) (s t : State), i.command = .wren ∨ i.command = .wrdi ∨ i.command = .wrsr → s.Ready →
    s.DeviceQuiet → exec i s = .next t → ∀ a, t.memByte a = s.memByte a

/-- R60, R154: whatever the bus does, a write without the latch set leaves the array, the latch and the status register
as they were. -/
def Obligations.WriteWithoutEnableIsIgnored : Prop :=
  ∀ (i : Instr) (s t : State), i.command = .write ∨ i.command = .writePage → s.Ready → s.DeviceQuiet →
    s.dev.wel = false → exec i s = .next t → DeviceKept s t

/-- R60, last arm: whatever the bus does after the header, a write leaves every byte outside the page of its address as
it was. -/
def Obligations.WritesStayInTheirPage : Prop :=
  ∀ (i : Instr) (s t : State), i.command = .write ∨ i.command = .writePage → s.Ready → s.DeviceQuiet →
    s.BusOk 3 → exec i s = .next t →
    ∀ x, pageOf Config.pageSize x ≠ pageOf Config.pageSize i.operands.addr.toNat → t.memByte x = s.memByte x

/-- R120, R121, R131, R150: whatever the bus does, a command whose data go out writes no byte of RBUF. -/
def Obligations.OnlyReadsWriteRbuf : Prop :=
  ∀ (i : Instr) (s t : State), i.command.dir ≠ .inward → s.Ready → exec i s = .next t → t.rbuf = s.rbuf

/-- R23, R32, R38: whatever the bus does, a command with a passed check ends in IDLE with the line high, its descriptor
in the latches and the host's other commands untouched, after one Issue and one Complete with the STATUS it leaves. -/
def Obligations.ValidCommandEndsIdle : Prop :=
  ∀ (i : Instr) (s : State), s.Ready → instrValid i = true →
    ∃ t, exec i s = .next t ∧ CommandLatched i.command i.operands s t ∧
      AddedHostTrace i.descriptor t.status s t ∧ (t.status = statusOk ∨ t.status = statusBusError) ∧
      (t.err = true ↔ t.status = statusBusError) ∧
      t.rlen = (if t.status = statusOk ∧ i.command.dir = .inward then i.command.nData i.operands.len else 0#16)

/-! ## The exceptions -/

/-- R172: InvalidArgument has no effect but on the latches, STATUS and RLEN; nothing is transmitted. -/
def Obligations.InvalidArgumentTransmitsNothing : Prop :=
  ∀ (i : Instr) (s : State), s.Ready → instrValid i = false →
    exec i s = .next { s with
      kind := i.command.kind, addr := i.operands.addr, len := i.operands.len, wbuf := i.operands.wdata
      status := 1#2, rlen := 0#16
      hostTrace := s.hostTrace ++ [HostEvent.issue i.descriptor, HostEvent.complete 1#2] }

/-- R172, first sentence: which commands raise InvalidArgument, and on which operands. -/
def Obligations.InvalidArgumentCauses : Prop :=
  ∀ o : Operands,
    (instrValid (.write o) = false ↔
      o.len = 0#16 ∨ Config.pageSize < o.len.toNat ∨ crosses Config.pageSize o.addr.toNat o.len.toNat = true) ∧
    (instrValid (.writePage o) = false ↔
      o.len.toNat ≠ Config.pageSize ∨ offsetOf Config.pageSize o.addr.toNat ≠ 0) ∧
    (instrValid (.read o) = false ↔ o.len = 0#16 ∨ Config.pageSize < o.len.toNat) ∧
    instrValid (.wren o) = true ∧ instrValid (.wrdi o) = true ∧ instrValid (.rdsr o) = true ∧
    instrValid (.wrsr o) = true

/-- R173: BusError at any transfer: the frame stops there, the line is released, the delay runs, STATUS is 2. A cut frame
other than a write has no effect on a device outside its write cycle (I13). -/
def Obligations.BusErrorCutsTheFrame : Prop :=
  ∀ (i : Instr) (s : State) (k : Nat), s.Ready → instrValid i = true →
    k < i.command.frameLen i.operands.len → s.BusFailsAfter k →
    ∃ t transfers last, exec i s = .next t ∧ transfers.length = k ∧
      AddedTrace s t (framed (transfers ++ [last])) ∧
      (∀ e ∈ transfers, e.isTransfer = true ∧ e.succeeded = true) ∧
      last.isTransfer = true ∧ last.succeeded = false ∧
      (transfers ++ [last]).flatMap Event.byteOut = (encode i).take (k + 1) ∧
      t.status = 2#2 ∧ t.rlen = 0#16 ∧ t.err = true ∧ CommandLatched i.command i.operands s t ∧
      AddedHostTrace i.descriptor 2#2 s t ∧ t.oks = s.oks.drop (k + 1) ∧
      (s.DeviceQuiet → i.command ≠ .write → i.command ≠ .writePage → DeviceKept s t)

/-- R113, R100: a command adds no event, or one whole frame: Sel, transfers of which only the last can have failed,
Desel, Delay. -/
def Obligations.CommandAddsAtMostOneFrame : Prop :=
  ∀ (i : Instr) (s t : State), s.Ready → exec i s = .next t →
    t.trace = s.trace ∨
    ∃ transfers, t.trace = s.trace ++ framed transfers ∧ transfers.length ≤ 3 + Config.pageSize ∧
      (∀ e ∈ transfers, e.isTransfer = true) ∧ (∀ e ∈ transfers.dropLast, e.succeeded = true)

/-! ## Whole-machine rules -/

/-- R114: the phase machine and the big step say the same thing, for some answers of the oracle, whose ok flags are those
of the environment's script. -/
def Obligations.PhaseMachineRunsTheBigStep : Prop :=
  ∀ (d : Descriptor) (s : State), s.Ready →
    ∃ (oracle : Nat → Byte × Bool) (t : State),
      (∀ k (h : k < s.oks.length), (oracle k).2 = s.oks[k]) ∧
      runCommand d s = .next t ∧
      AddedTrace s t (bigStep d oracle).1 ∧
      t.status = (bigStep d oracle).2.status ∧ t.rlen = (bigStep d oracle).2.rlen ∧
      (∀ k, k < (bigStep d oracle).2.received.length → t.rbuf[k]? = (bigStep d oracle).2.received[k]?)

/-- R114, last sentence: with an oracle that never fails the bytes clocked out are Frame(desc), and the trace has
FrameLen + 3 events. -/
def Obligations.BigStepSendsTheFrame : Prop :=
  ∀ (i : Instr) (answers : Nat → Byte), instrValid i = true →
    ((bigStep i.descriptor fun k => (answers k, true)).1.flatMap Event.byteOut) = encode i ∧
    (bigStep i.descriptor fun k => (answers k, true)).1.length = i.command.frameLen i.operands.len + 3

/-- R20: the trace and the result of a command do not depend on what earlier commands left in the sequencer. That the bus
gives the same answers is said in the model's terms: the same device, the same ok flags to come and the same count of
draws (log entries 2 and 20). -/
def Obligations.CommandsAreStateless : Prop :=
  ∀ (i : Instr) (s t : State), s.Ready → t.Ready → SameWorld s t →
    ∃ s' t' events, exec i s = .next s' ∧ exec i t = .next t' ∧
      AddedTrace s s' events ∧ AddedTrace t t' events ∧
      s'.status = t'.status ∧ s'.rlen = t'.rlen ∧
      (∀ k, k < s'.rlen.toNat → s'.rbuf[k]? = t'.rbuf[k]?) ∧ SameWorld s' t'

/-- R93: the trace and the result are the same for every value of an ignored field. -/
def Obligations.IgnoredFieldsHaveNoEffect : Prop :=
  ∀ (c : Command) (o p : Operands) (s : State), s.Ready → relevantOperands o c = relevantOperands p c →
    ∃ t u, exec (c.instr o) s = .next t ∧ exec (c.instr p) s = .next u ∧
      t.trace = u.trace ∧ t.status = u.status ∧ t.rlen = u.rlen ∧ t.rbuf = u.rbuf ∧ t.dev = u.dev ∧
      t.oks = u.oks ∧ t.draws = u.draws

/-- R67: a payload written with the latch set comes back from a later read of the same range, in any state of the
sequencer. It needs T_WC <= T_SETTLE_MS (R63, D6), which the model builds into T_SETTLE_MS (log entry 4), and that no part
of the array is write-protected (log entry 17). -/
def Obligations.WrittenPayloadReadsBack : Prop :=
  ∀ (e o p : Operands) (s : State), s.Ready → s.DeviceQuiet →
    instrValid (.write o) = true → o.addr.toNat + o.len.toNat ≤ Config.memSize →
    p.addr = o.addr → p.len = o.len → s.BusOk (1 + (3 + o.len.toNat) + (3 + o.len.toNat)) →
    ∃ s1 s2 s3, exec (.wren e) s = .next s1 ∧ exec (.write o) s1 = .next s2 ∧ exec (.read p) s2 = .next s3 ∧
      s3.status = statusOk ∧ s3.rlen = o.len ∧
      ∀ i (h : i < Config.pageSize), i < o.len.toNat → s3.hostRbuf i = o.wdata[i]

/-- The invariants of the machine hold at reset (R22, R24, R28, R29, R32, R41, R63). -/
def Obligations.InvariantHoldsAtReset : Prop := State.reset.Inv ∧ State.reset.Settled

/-- Every step keeps the invariant, from every state that meets it: the select line agrees with the phase, the device is
in a frame exactly while selected, STATUS is never 3, RLEN never exceeds RBUF, N is what the latched descriptor says,
IDX stays below N in DATA, and the array's cells stay in canonical form and inside the array. -/
def Obligations.EveryStepKeepsTheInvariant : Prop :=
  ∀ s t : State, s.Inv → step s = .next t → t.Inv

/-- R170, R177: from every state that meets the invariant the machine makes a step: it never stops. -/
def Obligations.MachineNeverStops : Prop :=
  ∀ s : State, s.Inv → ∃ t, step s = .next t

/-- R63, last sentence, with R8's bound on T_SETTLE_MS: without a reset, a step leaves a machine in which no write cycle
runs when a frame can start. How the rest of a cycle is counted is the model's choice (log entry 14). -/
def Obligations.NoFrameStartsInAWriteCycle : Prop :=
  ∀ s t : State, s.Inv → s.Settled → s.resets = [] → step s = .next t → t.Settled

/-- R206: a host that waits T_SETTLE_MS finds the write cycle over, as after a reset that cut a write. That T_SETTLE_MS
covers T_WC and how the rest of a cycle is counted are the model's choices (log entries 4 and 14). -/
def Obligations.WaitingEndsTheWriteCycle : Prop :=
  ∀ (s t : State), s.Ready → s.dev.cycleLeft ≤ Config.tWcMs →
    arbitrate s = some (.wait Config.tSettleMs, t) →
    step s = .next { t with dev := { t.dev with wip := false, cycleLeft := 0 } }

/-! ## Reset -/

/-- R41, R200: the sequencer right after reset, as far as the spec fixes it; and the device at the start of a run (R56):
its latch is 0, which R56 chooses from general knowledge (PRESUMED, log entry 17), no write cycle runs, and its array is
arbitrary, held as free values (DESIGN CHOICE, log entry 6). -/
def Obligations.ResetState : Prop :=
  State.reset.phase = .idle ∧ State.reset.csN = true ∧ State.reset.status = 0#2 ∧ State.reset.rlen = 0#16 ∧
  State.reset.busy = false ∧ State.reset.trace = [] ∧ State.reset.hostTrace = [] ∧
  State.reset.dev.wel = false ∧ State.reset.dev.wip = false ∧
  (∀ k a, { Device.start with memGen := k }.cell a = Config.drawMem k a)

/-- R200, R201, R202: a reset that is due is taken in any phase; the trace shows Desel exactly when the line was low; no
delay runs and no command completes; with the line high the device is not touched. -/
def Obligations.ResetEndsACommand : Prop :=
  ∀ (s : State) (rest : List Nat), s.resets = 0 :: rest →
    ∃ t, step s = .next t ∧ t.phase = .idle ∧ t.csN = true ∧ t.status = 0#2 ∧ t.rlen = 0#16 ∧
      t.trace = s.trace ++ (if s.csN then [] else [Event.desel]) ∧
      t.hostTrace = s.hostTrace ∧ t.requesters = s.requesters ∧ t.oks = s.oks ∧ t.resets = rest ∧
      (s.csN = true → t.dev = s.dev)

/-- R201, R60: a reset in the frame of a write with the latch clear changes no byte of the array; with the latch set and
the header sent it changes none outside the page of the address. -/
def Obligations.ResetInAWriteStaysInItsPage : Prop :=
  ∀ (s : State) (rest : List Nat) (f : DeviceFrame) (lo hi : Byte) (data : List Byte),
    s.resets = 0 :: rest → s.csN = false → s.dev.frame = some f → f.inCycle = false →
    f.bytes = 0x02#8 :: lo :: hi :: data →
    ∃ t, step s = .next t ∧
      (s.dev.wel = false → ∀ x, t.memByte x = s.memByte x) ∧
      ∀ x, pageOf Config.pageSize x ≠ pageOf Config.pageSize (joinBytes lo hi).toNat → t.memByte x = s.memByte x

/-! ## The array -/

/-- The array as the model holds it: a write is read back, every other address is as before, and the canonical form is
kept. -/
def Obligations.ArrayReadsAfterWrites : Prop :=
  ∀ (m : Memory) (a : Nat) (l : List Byte), m.wf →
    (m.writeBytes a l).wf ∧
    (∀ i (h : i < l.length), (m.writeBytes a l).read (a + i) = some l[i]) ∧
    (∀ x, x < a ∨ a + l.length ≤ x → (m.writeBytes a l).read x = m.read x)
end

