-- ==== Sys2Proof/Laws/Decode.lean ====
section
/-! SUPPORT. The small laws of the two encodings. -/

namespace Sys2Proof

@[simp] theorem Command.ofKind_kind (c : Command) : Command.ofKind c.kind = some c := by cases c <;> rfl

theorem Command.kind_of_ofKind {k : BitVec 3} {c : Command} (h : Command.ofKind k = some c) : c.kind = k := by
  revert c; revert k; decide

theorem Command.ofKind_eq_none_iff (k : BitVec 3) : Command.ofKind k = none ↔ k = 0#3 := by
  revert k; decide

@[simp] theorem Command.command_instr (o : Operands) (c : Command) : (c.instr o).command = c := by cases c <;> rfl

@[simp] theorem Command.operands_instr (o : Operands) (c : Command) : (c.instr o).operands = o := by cases c <;> rfl

@[simp] theorem joinBytes_low_high (v : Half) : joinBytes (lowByte v) (highByte v) = v := by
  apply BitVec.eq_of_getLsbD_eq
  intro i hi
  simp only [joinBytes, lowByte, highByte, BitVec.getLsbD_append, BitVec.getLsbD_extractLsb']
  by_cases h : i < 8
  · simp [h]
  · have : 8 + (i - 8) = i := by omega
    simp [h, this]; omega

theorem lowByte_join (lo hi : Byte) : lowByte (joinBytes lo hi) = lo := by
  apply BitVec.eq_of_getLsbD_eq
  intro i h
  simp only [joinBytes, lowByte, BitVec.getLsbD_extractLsb', BitVec.getLsbD_append]
  simp [h]

theorem highByte_join (lo hi : Byte) : highByte (joinBytes lo hi) = hi := by
  apply BitVec.eq_of_getLsbD_eq
  intro i h
  simp only [joinBytes, highByte, BitVec.getLsbD_extractLsb', BitVec.getLsbD_append]
  simp [h]

/-- The page a frame's data bytes stand for, byte by byte. -/
theorem pageOfList_getElem (l : List Byte) (i : Nat) (h : i < Config.pageSize) :
    (pageOfList l)[i] = l.getD i 0#8 := by
  simp [pageOfList]

/-- The data bytes of a page's first `k` bytes stand for the page itself if the rest is zero. -/
theorem pageOfList_take {p : Page} {k : Nat} (h : ∀ i (hi : i < Config.pageSize), k ≤ i → p[i] = 0#8) :
    pageOfList (p.toList.take k) = p := by
  ext i hi : 1
  rw [pageOfList_getElem _ _ hi, List.getD_eq_getElem?_getD, List.getElem?_take]
  split
  · simp [hi]
  · have := h i hi (by omega)
    simp [this]

theorem Operands.zeroFrom_iff {k : Nat} {o : Operands} :
    o.zeroFrom k = true ↔ ∀ i (hi : i < Config.pageSize), k ≤ i → o.wdata[i] = 0#8 := by
  simp only [Operands.zeroFrom, decide_eq_true_eq]
  exact ⟨fun h i hi => h ⟨i, hi⟩, fun h i => h i.val i.isLt⟩

@[simp] theorem decodeDescriptor_of_command (c : Command) (o : Operands) :
    decodeDescriptor { kind := c.kind, operands := o } = .ok (c.instr o) := by
  simp [decodeDescriptor]

namespace Machine

@[simp] theorem valid_kind (c : Command) (a l : Half) : valid c.kind a l = commandCheck Config.pageSize a l c := by
  simp [valid]

/-- A valid descriptor moves at most a page, and exactly NData bytes, at least one if it has an address (R24, R108). -/
theorem commandCheck_bounds {c : Command} {a l : Half} (h : commandCheck Config.pageSize a l c = true) :
    (c.nData l).toNat ≤ Config.pageSize ∧ (c.hasAddr = true → 0 < (c.nData l).toNat) := by
  cases c <;> simp_all [commandCheck, readCheck, writeCheck, writePageCheck, Command.nData, Command.hasAddr] <;> omega

/-- A write that passes its check lies in one page (R54). -/
theorem not_crosses_of_write {a l : Half} {c : Command} (hc : c = .write ∨ c = .writePage)
    (h : commandCheck Config.pageSize a l c = true) : crosses Config.pageSize a.toNat l.toNat = false := by
  rcases hc with rfl | rfl <;> simp only [commandCheck, writeCheck, writePageCheck, Bool.and_eq_true,
    Bool.not_eq_true'] at h
  · exact h.2
  · exact h.2

end Machine

end Sys2Proof
end

