-- ==== Sys2Proof/Laws/Memory.lean ====
section
/-! SUPPORT. The laws of the array: a read after a write, and that every write keeps the canonical form. -/

namespace Sys2Proof.Machine

@[simp] theorem Memory.read_nil (a : Nat) : Memory.read [] a = none := rfl

theorem Memory.read_write (m : Memory) (a b : Nat) (v : Byte) :
    (m.write a v).read b = if b = a then some v else m.read b := by
  induction m with
  | nil => simp [Memory.write, Memory.read]
  | cons x rest ih =>
    obtain ⟨c, w⟩ := x
    simp only [Memory.write]
    split
    · simp [Memory.read]
    · split
      · subst_vars; simp only [Memory.read]; split <;> rfl
      · simp only [Memory.read, ih]; split <;> split <;> first | rfl | omega

theorem Memory.mem_write {m : Memory} {a : Nat} {v : Byte} {x : Host.Cell} (h : x ∈ m.write a v) :
    x = (a, v) ∨ x ∈ m := by
  induction m with
  | nil => simpa [Memory.write] using h
  | cons y rest ih =>
    obtain ⟨c, w⟩ := y
    simp only [Memory.write] at h
    split at h
    · simpa using h
    · split at h <;> simp only [List.mem_cons] at h ⊢
      · exact h.imp_right .inr
      · rcases h with h | h
        · exact .inr (.inl h)
        · exact (ih h).imp_right .inr

theorem Memory.write_wf {m : Memory} (h : m.wf) (a : Nat) (v : Byte) : (m.write a v).wf := by
  induction m with
  | nil => simp [Memory.write, Memory.wf]
  | cons y rest ih =>
    obtain ⟨c, w⟩ := y
    obtain ⟨hc, hrest⟩ := List.pairwise_cons.mp h
    simp only [Memory.write]
    split
    · refine List.pairwise_cons.mpr ⟨fun x hx => ?_, h⟩
      rcases List.mem_cons.mp hx with rfl | hx
      · assumption
      · have := hc x hx; simp only at this ⊢; omega
    · split
      · subst_vars; exact List.pairwise_cons.mpr ⟨hc, hrest⟩
      · refine List.pairwise_cons.mpr ⟨fun x hx => ?_, ih hrest⟩
        rcases Memory.mem_write hx with rfl | hx
        · simp only; omega
        · exact hc x hx

theorem Memory.writeBytes_wf {m : Memory} (h : m.wf) (a : Nat) (l : List Byte) : (m.writeBytes a l).wf := by
  induction l generalizing m a with
  | nil => exact h
  | cons v rest ih => exact ih (Memory.write_wf h a v) (a + 1)

theorem Memory.writeBytes_inRange {m : Memory} {a limit : Nat} {l : List Byte}
    (hm : ∀ x ∈ m, x.1 < limit) (hl : a + l.length ≤ limit) : ∀ x ∈ m.writeBytes a l, x.1 < limit := by
  induction l generalizing m a with
  | nil => exact hm
  | cons v rest ih =>
    simp only [List.length_cons] at hl
    refine ih (fun x hx => ?_) (by omega)
    rcases Memory.mem_write hx with rfl | hx
    · simp only; omega
    · exact hm x hx

/-- What a read finds after `MemWrite`: the byte of the sequence inside its range, the old content outside. -/
theorem Memory.read_writeBytes (m : Memory) (a b : Nat) (l : List Byte) :
    (m.writeBytes a l).read b = if a ≤ b ∧ b < a + l.length then l[b - a]? else m.read b := by
  induction l generalizing m a with
  | nil =>
    simp [Memory.writeBytes]
  | cons v rest ih =>
    simp only [Memory.writeBytes, ih, Memory.read_write, List.length_cons]
    by_cases h1 : b = a
    · subst h1; simp
    · by_cases h2 : a + 1 ≤ b ∧ b < a + 1 + rest.length
      · obtain ⟨k, rfl⟩ : ∃ k, b = a + 1 + k := ⟨b - (a + 1), by omega⟩
        have h3 : a ≤ a + 1 + k ∧ a + 1 + k < a + (rest.length + 1) := by omega
        have h4 : a + 1 + k - a = k + 1 := by omega
        simp [h2, h4]; omega
      · have h3 : ¬ (a ≤ b ∧ b < a + (rest.length + 1)) := by omega
        rw [if_neg h2, if_neg h3, if_neg h1]

end Sys2Proof.Machine

namespace Sys2Proof.Config

/-! ### The sizes -/

theorem pageSize_le_memSize : pageSize ≤ memSize := by
  unfold memSize; simp only [pageSize]; omega

theorem pageSize_dvd_memSize : pageSize ∣ memSize := ⟨_, Nat.mul_comm _ _⟩

theorem memSize_le : memSize ≤ 65536 := by
  have := memPageIndex.isLt
  unfold memSize; simp only [pageSize]; omega

theorem tWc_le_tSettle : tWcMs ≤ tSettleMs := by
  unfold tSettleMs; omega

theorem one_le_tSettle : 1 ≤ tSettleMs := by
  unfold tSettleMs; omega

/-- A page whose first byte is in the array is wholly in it. -/
theorem page_in_array {p : Nat} (h : p * pageSize < memSize) :
    p * pageSize + pageSize ≤ memSize := by
  unfold memSize at h ⊢; simp only [pageSize] at h ⊢; omega

end Sys2Proof.Config
end

