-- ==== Sys2Proof/Laws/Device.lean ====
section
/-! SUPPORT. What the device does at each event, said once. -/

namespace Sys2Proof.Machine

@[simp] theorem Device.select_frame (d : Device) :
    d.select.frame = some { bytes := [], failed := false, cut := false, inCycle := d.wip } := rfl

/-- The device after bytes that all arrived. -/
def Device.push (l : List Byte) (d : Device) : Device :=
  { d with frame := d.frame.map fun f => { f with bytes := f.bytes ++ l } }

theorem Device.take_ok (d : Device) (draw : Nat) (b : Byte) : d.take draw b true = d.push [b] := rfl

@[simp] theorem Device.push_nil (d : Device) : d.push [] = d := by
  cases d with
  | mk mem gen wel sr wip left frame => cases frame <;> simp [Device.push]

@[simp] theorem Device.push_push (d : Device) (l m : List Byte) : (d.push l).push m = d.push (l ++ m) := by
  cases d with
  | mk mem gen wel sr wip left frame => cases frame <;> simp [Device.push]

/-- A byte clocked out changes only the frame in progress. -/
theorem Device.take_cases (d : Device) (draw : Nat) (b : Byte) (ok : Bool) :
    ∃ f, d.take draw b ok = { d with frame := f } ∧ f.isSome = d.frame.isSome := by
  exact ⟨_, rfl, by simp⟩

/-- The array after bytes of a page became draws: an address outside that page reads as before. -/
theorem Device.cell_scramblePage {d : Device} {draw a x : Nat}
    (h : pageOf Config.pageSize x ≠ pageOf Config.pageSize a) : (d.scramblePage draw a).cell x = d.cell x := by
  unfold Device.scramblePage
  simp only
  split
  · have hx : ¬ (pageOf Config.pageSize a * Config.pageSize ≤ x ∧
        x < pageOf Config.pageSize a * Config.pageSize + Config.pageSize) := by
      intro hx
      apply h
      simp only [pageOf, Config.pageSize] at hx ⊢
      omega
    simp only [Device.cell, Memory.read_writeBytes, List.length_map, List.length_range]
    rw [if_neg hx]
  · rfl

/-- The array after a write that took effect: the payload inside its range, the old content outside. -/
theorem Device.cell_writeBytes (d : Device) (a x : Nat) (l : List Byte) :
    Device.cell { d with mem := d.mem.writeBytes a l } x =
      if h : a ≤ x ∧ x < a + l.length then l[x - a] else d.cell x := by
  simp only [Device.cell, Memory.read_writeBytes]
  by_cases h : a ≤ x ∧ x < a + l.length
  · have hl : x - a < l.length := by omega
    rw [if_pos h, dif_pos h, List.getElem?_eq_getElem hl]
  · rw [if_neg h, dif_neg h]

/-- A frame other than a WRITE in which a transfer failed has no effect (I13). -/
theorem Device.endFrame_failed {d : Device} {f : DeviceFrame} (draw : Nat) (hc : f.inCycle = false)
    (hf : f.failed = true) (hop : f.bytes.head? ≠ some 0x02#8) : d.endFrame draw f = d := by
  unfold Device.endFrame
  rw [hc, hf]
  cases hb : f.bytes with
  | nil => rfl
  | cons op rest =>
    have hne : op ≠ 0x02#8 := by simpa [hb] using hop
    simp [hne]

/-- What a frame can do to the array's list: keep its canonical form and its bound. -/
theorem Device.endFrame_mem {d : Device} (draw : Nat) (f : DeviceFrame) (hwf : d.mem.wf)
    (hb : ∀ x ∈ d.mem, x.1 < Config.memSize) :
    (d.endFrame draw f).mem.wf ∧ ∀ x ∈ (d.endFrame draw f).mem, x.1 < Config.memSize := by
  have hpage : ∀ a, (d.scramblePage draw a).mem.wf ∧ ∀ x ∈ (d.scramblePage draw a).mem, x.1 < Config.memSize := by
    intro a
    unfold Device.scramblePage
    simp only
    split
    · next h =>
      refine ⟨Memory.writeBytes_wf hwf _ _, Memory.writeBytes_inRange hb ?_⟩
      simpa using Config.page_in_array h
    · exact ⟨hwf, hb⟩
  have hw : ∀ cut rest, (d.endWrite draw cut rest).mem.wf ∧
      ∀ x ∈ (d.endWrite draw cut rest).mem, x.1 < Config.memSize := by
    intro cut rest
    unfold Device.endWrite
    split
    · exact ⟨hwf, hb⟩
    · split
      · simp only
        split
        · next h => exact ⟨Memory.writeBytes_wf hwf _ _, Memory.writeBytes_inRange hb h.2.2.2⟩
        · exact hpage _
      · exact ⟨List.Pairwise.nil, fun x hx => nomatch hx⟩
  unfold Device.endFrame
  split
  · exact ⟨List.Pairwise.nil, fun x hx => nomatch hx⟩
  · split
    · exact ⟨hwf, hb⟩
    · repeat' split
      all_goals first
        | exact ⟨hwf, hb⟩
        | exact hw _ _
        | (unfold Device.endWrsr; split <;> exact ⟨hwf, hb⟩)

/-- What a frame can do to the cycle bound. -/
theorem Device.endFrame_cycle {d : Device} (draw : Nat) (f : DeviceFrame) (h : d.cycleLeft ≤ Config.tWcMs) :
    (d.endFrame draw f).cycleLeft ≤ Config.tWcMs := by
  have hp : ∀ a, (d.scramblePage draw a).cycleLeft = d.cycleLeft := by
    intro a; unfold Device.scramblePage; simp only; split <;> rfl
  have hw : ∀ cut rest, (d.endWrite draw cut rest).cycleLeft ≤ Config.tWcMs := by
    intro cut rest
    unfold Device.endWrite
    split
    · exact h
    · split
      · simp only
        split <;> exact Nat.le_refl _
      · exact Nat.le_refl _
  unfold Device.endFrame
  split
  · exact Nat.le_refl _
  · split
    · exact h
    · repeat' split
      all_goals first
        | exact h
        | exact hw _ _
        | (unfold Device.endWrsr; split <;> first | exact h | exact Nat.le_refl _)

/-- A whole settle delay ends any write cycle (R63, R8). -/
theorem Device.elapse_settled {d : Device} (h : d.cycleLeft ≤ Config.tWcMs) :
    d.elapse Config.tSettleMs = { d with wip := false, cycleLeft := 0 } := by
  unfold Device.elapse
  rw [if_pos (Nat.le_trans h Config.tWc_le_tSettle)]

/-- Time changes nothing of the device but its write cycle. -/
theorem Device.elapse_cases (d : Device) (ms : Nat) :
    ∃ w l, d.elapse ms = { d with wip := w, cycleLeft := l } ∧ l ≤ d.cycleLeft := by
  unfold Device.elapse
  split
  · exact ⟨false, 0, rfl, Nat.zero_le _⟩
  · exact ⟨d.wip, d.cycleLeft - ms, rfl, by omega⟩

@[simp] theorem Device.deselect_frame (d : Device) (draw : Nat) : (d.deselect draw).frame = none := by
  unfold Device.deselect
  split <;> simp_all

end Sys2Proof.Machine
end

