-- ==== Sys2Proof/Laws/State.lean ====
section
/-! SUPPORT. What each update of the state writes and leaves: one lemma per field per update, so that no later proof
unfolds a record update. -/

namespace Sys2Proof.Machine

variable (s : State)

/-! ### emit -/

@[simp] theorem emit_phase (e : Event) : (s.emit e).phase = s.phase := rfl
@[simp] theorem emit_csN (e : Event) : (s.emit e).csN = s.csN := rfl
@[simp] theorem emit_kind (e : Event) : (s.emit e).kind = s.kind := rfl
@[simp] theorem emit_addr (e : Event) : (s.emit e).addr = s.addr := rfl
@[simp] theorem emit_len (e : Event) : (s.emit e).len = s.len := rfl
@[simp] theorem emit_wbuf (e : Event) : (s.emit e).wbuf = s.wbuf := rfl
@[simp] theorem emit_n (e : Event) : (s.emit e).n = s.n := rfl
@[simp] theorem emit_idx (e : Event) : (s.emit e).idx = s.idx := rfl
@[simp] theorem emit_err (e : Event) : (s.emit e).err = s.err := rfl
@[simp] theorem emit_rbuf (e : Event) : (s.emit e).rbuf = s.rbuf := rfl
@[simp] theorem emit_status (e : Event) : (s.emit e).status = s.status := rfl
@[simp] theorem emit_rlen (e : Event) : (s.emit e).rlen = s.rlen := rfl
@[simp] theorem emit_dev (e : Event) : (s.emit e).dev = s.dev := rfl
@[simp] theorem emit_requesters (e : Event) : (s.emit e).requesters = s.requesters := rfl
@[simp] theorem emit_oks (e : Event) : (s.emit e).oks = s.oks := rfl
@[simp] theorem emit_resets (e : Event) : (s.emit e).resets = s.resets := rfl
@[simp] theorem emit_trace (e : Event) : (s.emit e).trace = s.trace ++ [e] := rfl
@[simp] theorem emit_hostTrace (e : Event) : (s.emit e).hostTrace = s.hostTrace := rfl
@[simp] theorem emit_draws (e : Event) : (s.emit e).draws = s.draws := rfl

/-! ### record -/

@[simp] theorem record_phase (e : HostEvent) : (s.record e).phase = s.phase := rfl
@[simp] theorem record_csN (e : HostEvent) : (s.record e).csN = s.csN := rfl
@[simp] theorem record_kind (e : HostEvent) : (s.record e).kind = s.kind := rfl
@[simp] theorem record_addr (e : HostEvent) : (s.record e).addr = s.addr := rfl
@[simp] theorem record_len (e : HostEvent) : (s.record e).len = s.len := rfl
@[simp] theorem record_wbuf (e : HostEvent) : (s.record e).wbuf = s.wbuf := rfl
@[simp] theorem record_n (e : HostEvent) : (s.record e).n = s.n := rfl
@[simp] theorem record_idx (e : HostEvent) : (s.record e).idx = s.idx := rfl
@[simp] theorem record_err (e : HostEvent) : (s.record e).err = s.err := rfl
@[simp] theorem record_rbuf (e : HostEvent) : (s.record e).rbuf = s.rbuf := rfl
@[simp] theorem record_status (e : HostEvent) : (s.record e).status = s.status := rfl
@[simp] theorem record_rlen (e : HostEvent) : (s.record e).rlen = s.rlen := rfl
@[simp] theorem record_dev (e : HostEvent) : (s.record e).dev = s.dev := rfl
@[simp] theorem record_requesters (e : HostEvent) : (s.record e).requesters = s.requesters := rfl
@[simp] theorem record_oks (e : HostEvent) : (s.record e).oks = s.oks := rfl
@[simp] theorem record_resets (e : HostEvent) : (s.record e).resets = s.resets := rfl
@[simp] theorem record_trace (e : HostEvent) : (s.record e).trace = s.trace := rfl
@[simp] theorem record_hostTrace (e : HostEvent) : (s.record e).hostTrace = s.hostTrace ++ [e] := rfl
@[simp] theorem record_draws (e : HostEvent) : (s.record e).draws = s.draws := rfl

/-! ### goto -/

@[simp] theorem goto_phase (p : Phase) : (s.goto p).phase = p := rfl
@[simp] theorem goto_csN (p : Phase) : (s.goto p).csN = s.csN := rfl
@[simp] theorem goto_kind (p : Phase) : (s.goto p).kind = s.kind := rfl
@[simp] theorem goto_addr (p : Phase) : (s.goto p).addr = s.addr := rfl
@[simp] theorem goto_len (p : Phase) : (s.goto p).len = s.len := rfl
@[simp] theorem goto_wbuf (p : Phase) : (s.goto p).wbuf = s.wbuf := rfl
@[simp] theorem goto_n (p : Phase) : (s.goto p).n = s.n := rfl
@[simp] theorem goto_idx (p : Phase) : (s.goto p).idx = s.idx := rfl
@[simp] theorem goto_err (p : Phase) : (s.goto p).err = s.err := rfl
@[simp] theorem goto_rbuf (p : Phase) : (s.goto p).rbuf = s.rbuf := rfl
@[simp] theorem goto_status (p : Phase) : (s.goto p).status = s.status := rfl
@[simp] theorem goto_rlen (p : Phase) : (s.goto p).rlen = s.rlen := rfl
@[simp] theorem goto_dev (p : Phase) : (s.goto p).dev = s.dev := rfl
@[simp] theorem goto_requesters (p : Phase) : (s.goto p).requesters = s.requesters := rfl
@[simp] theorem goto_oks (p : Phase) : (s.goto p).oks = s.oks := rfl
@[simp] theorem goto_resets (p : Phase) : (s.goto p).resets = s.resets := rfl
@[simp] theorem goto_trace (p : Phase) : (s.goto p).trace = s.trace := rfl
@[simp] theorem goto_hostTrace (p : Phase) : (s.goto p).hostTrace = s.hostTrace := rfl
@[simp] theorem goto_draws (p : Phase) : (s.goto p).draws = s.draws := rfl

/-! ### complete -/

@[simp] theorem complete_phase (st : BitVec 2) (l : Half) : (s.complete st l).phase = Phase.idle := rfl
@[simp] theorem complete_csN (st : BitVec 2) (l : Half) : (s.complete st l).csN = s.csN := rfl
@[simp] theorem complete_kind (st : BitVec 2) (l : Half) : (s.complete st l).kind = s.kind := rfl
@[simp] theorem complete_addr (st : BitVec 2) (l : Half) : (s.complete st l).addr = s.addr := rfl
@[simp] theorem complete_len (st : BitVec 2) (l : Half) : (s.complete st l).len = s.len := rfl
@[simp] theorem complete_wbuf (st : BitVec 2) (l : Half) : (s.complete st l).wbuf = s.wbuf := rfl
@[simp] theorem complete_n (st : BitVec 2) (l : Half) : (s.complete st l).n = s.n := rfl
@[simp] theorem complete_idx (st : BitVec 2) (l : Half) : (s.complete st l).idx = s.idx := rfl
@[simp] theorem complete_err (st : BitVec 2) (l : Half) : (s.complete st l).err = s.err := rfl
@[simp] theorem complete_rbuf (st : BitVec 2) (l : Half) : (s.complete st l).rbuf = s.rbuf := rfl
@[simp] theorem complete_status (st : BitVec 2) (l : Half) : (s.complete st l).status = st := rfl
@[simp] theorem complete_rlen (st : BitVec 2) (l : Half) : (s.complete st l).rlen = l := rfl
@[simp] theorem complete_dev (st : BitVec 2) (l : Half) : (s.complete st l).dev = s.dev := rfl
@[simp] theorem complete_requesters (st : BitVec 2) (l : Half) : (s.complete st l).requesters = s.requesters := rfl
@[simp] theorem complete_oks (st : BitVec 2) (l : Half) : (s.complete st l).oks = s.oks := rfl
@[simp] theorem complete_resets (st : BitVec 2) (l : Half) : (s.complete st l).resets = s.resets := rfl
@[simp] theorem complete_trace (st : BitVec 2) (l : Half) : (s.complete st l).trace = s.trace := rfl
@[simp] theorem complete_hostTrace (st : BitVec 2) (l : Half) : (s.complete st l).hostTrace = s.hostTrace ++ [HostEvent.complete st] := rfl
@[simp] theorem complete_draws (st : BitVec 2) (l : Half) : (s.complete st l).draws = s.draws := rfl

/-! ### raiseException -/

@[simp] theorem raiseException_phase (c : BitVec 2) : (raiseException c s).phase = Phase.idle := rfl
@[simp] theorem raiseException_csN (c : BitVec 2) : (raiseException c s).csN = s.csN := rfl
@[simp] theorem raiseException_kind (c : BitVec 2) : (raiseException c s).kind = s.kind := rfl
@[simp] theorem raiseException_addr (c : BitVec 2) : (raiseException c s).addr = s.addr := rfl
@[simp] theorem raiseException_len (c : BitVec 2) : (raiseException c s).len = s.len := rfl
@[simp] theorem raiseException_wbuf (c : BitVec 2) : (raiseException c s).wbuf = s.wbuf := rfl
@[simp] theorem raiseException_n (c : BitVec 2) : (raiseException c s).n = s.n := rfl
@[simp] theorem raiseException_idx (c : BitVec 2) : (raiseException c s).idx = s.idx := rfl
@[simp] theorem raiseException_err (c : BitVec 2) : (raiseException c s).err = s.err := rfl
@[simp] theorem raiseException_rbuf (c : BitVec 2) : (raiseException c s).rbuf = s.rbuf := rfl
@[simp] theorem raiseException_status (c : BitVec 2) : (raiseException c s).status = c := rfl
@[simp] theorem raiseException_rlen (c : BitVec 2) : (raiseException c s).rlen = 0#16 := rfl
@[simp] theorem raiseException_dev (c : BitVec 2) : (raiseException c s).dev = s.dev := rfl
@[simp] theorem raiseException_requesters (c : BitVec 2) : (raiseException c s).requesters = s.requesters := rfl
@[simp] theorem raiseException_oks (c : BitVec 2) : (raiseException c s).oks = s.oks := rfl
@[simp] theorem raiseException_resets (c : BitVec 2) : (raiseException c s).resets = s.resets := rfl
@[simp] theorem raiseException_trace (c : BitVec 2) : (raiseException c s).trace = s.trace := rfl
@[simp] theorem raiseException_hostTrace (c : BitVec 2) : (raiseException c s).hostTrace = s.hostTrace ++ [HostEvent.complete c] := rfl
@[simp] theorem raiseException_draws (c : BitVec 2) : (raiseException c s).draws = s.draws := rfl

/-! ### failTransfer -/

@[simp] theorem failTransfer_phase : (failTransfer s).phase = Phase.desel := rfl
@[simp] theorem failTransfer_csN : (failTransfer s).csN = s.csN := rfl
@[simp] theorem failTransfer_kind : (failTransfer s).kind = s.kind := rfl
@[simp] theorem failTransfer_addr : (failTransfer s).addr = s.addr := rfl
@[simp] theorem failTransfer_len : (failTransfer s).len = s.len := rfl
@[simp] theorem failTransfer_wbuf : (failTransfer s).wbuf = s.wbuf := rfl
@[simp] theorem failTransfer_n : (failTransfer s).n = s.n := rfl
@[simp] theorem failTransfer_idx : (failTransfer s).idx = s.idx := rfl
@[simp] theorem failTransfer_err : (failTransfer s).err = true := rfl
@[simp] theorem failTransfer_rbuf : (failTransfer s).rbuf = s.rbuf := rfl
@[simp] theorem failTransfer_status : (failTransfer s).status = s.status := rfl
@[simp] theorem failTransfer_rlen : (failTransfer s).rlen = s.rlen := rfl
@[simp] theorem failTransfer_dev : (failTransfer s).dev = s.dev := rfl
@[simp] theorem failTransfer_requesters : (failTransfer s).requesters = s.requesters := rfl
@[simp] theorem failTransfer_oks : (failTransfer s).oks = s.oks := rfl
@[simp] theorem failTransfer_resets : (failTransfer s).resets = s.resets := rfl
@[simp] theorem failTransfer_trace : (failTransfer s).trace = s.trace := rfl
@[simp] theorem failTransfer_hostTrace : (failTransfer s).hostTrace = s.hostTrace := rfl
@[simp] theorem failTransfer_draws : (failTransfer s).draws = s.draws := rfl

/-! ### issue -/

@[simp] theorem issue_phase (d : Descriptor) : (issue d s).phase = Phase.check := rfl
@[simp] theorem issue_csN (d : Descriptor) : (issue d s).csN = s.csN := rfl
@[simp] theorem issue_kind (d : Descriptor) : (issue d s).kind = d.kind := rfl
@[simp] theorem issue_addr (d : Descriptor) : (issue d s).addr = d.operands.addr := rfl
@[simp] theorem issue_len (d : Descriptor) : (issue d s).len = d.operands.len := rfl
@[simp] theorem issue_wbuf (d : Descriptor) : (issue d s).wbuf = d.operands.wdata := rfl
@[simp] theorem issue_n (d : Descriptor) : (issue d s).n = s.n := rfl
@[simp] theorem issue_idx (d : Descriptor) : (issue d s).idx = s.idx := rfl
@[simp] theorem issue_err (d : Descriptor) : (issue d s).err = s.err := rfl
@[simp] theorem issue_rbuf (d : Descriptor) : (issue d s).rbuf = s.rbuf := rfl
@[simp] theorem issue_status (d : Descriptor) : (issue d s).status = s.status := rfl
@[simp] theorem issue_rlen (d : Descriptor) : (issue d s).rlen = s.rlen := rfl
@[simp] theorem issue_dev (d : Descriptor) : (issue d s).dev = s.dev := rfl
@[simp] theorem issue_requesters (d : Descriptor) : (issue d s).requesters = s.requesters := rfl
@[simp] theorem issue_oks (d : Descriptor) : (issue d s).oks = s.oks := rfl
@[simp] theorem issue_resets (d : Descriptor) : (issue d s).resets = s.resets := rfl
@[simp] theorem issue_trace (d : Descriptor) : (issue d s).trace = s.trace := rfl
@[simp] theorem issue_hostTrace (d : Descriptor) : (issue d s).hostTrace = s.hostTrace ++ [HostEvent.issue d] := rfl
@[simp] theorem issue_draws (d : Descriptor) : (issue d s).draws = s.draws := rfl

/-! ### csAssert -/

@[simp] theorem csAssert_phase : (csAssert s).phase = s.phase := rfl
@[simp] theorem csAssert_csN : (csAssert s).csN = false := rfl
@[simp] theorem csAssert_kind : (csAssert s).kind = s.kind := rfl
@[simp] theorem csAssert_addr : (csAssert s).addr = s.addr := rfl
@[simp] theorem csAssert_len : (csAssert s).len = s.len := rfl
@[simp] theorem csAssert_wbuf : (csAssert s).wbuf = s.wbuf := rfl
@[simp] theorem csAssert_n : (csAssert s).n = s.n := rfl
@[simp] theorem csAssert_idx : (csAssert s).idx = s.idx := rfl
@[simp] theorem csAssert_err : (csAssert s).err = s.err := rfl
@[simp] theorem csAssert_rbuf : (csAssert s).rbuf = s.rbuf := rfl
@[simp] theorem csAssert_status : (csAssert s).status = s.status := rfl
@[simp] theorem csAssert_rlen : (csAssert s).rlen = s.rlen := rfl
@[simp] theorem csAssert_dev : (csAssert s).dev = s.dev.select := rfl
@[simp] theorem csAssert_requesters : (csAssert s).requesters = s.requesters := rfl
@[simp] theorem csAssert_oks : (csAssert s).oks = s.oks := rfl
@[simp] theorem csAssert_resets : (csAssert s).resets = s.resets := rfl
@[simp] theorem csAssert_trace : (csAssert s).trace = s.trace ++ [Event.sel] := rfl
@[simp] theorem csAssert_hostTrace : (csAssert s).hostTrace = s.hostTrace := rfl
@[simp] theorem csAssert_draws : (csAssert s).draws = s.draws := rfl

/-! ### csDeassert -/

@[simp] theorem csDeassert_phase : (csDeassert s).phase = s.phase := rfl
@[simp] theorem csDeassert_csN : (csDeassert s).csN = true := rfl
@[simp] theorem csDeassert_kind : (csDeassert s).kind = s.kind := rfl
@[simp] theorem csDeassert_addr : (csDeassert s).addr = s.addr := rfl
@[simp] theorem csDeassert_len : (csDeassert s).len = s.len := rfl
@[simp] theorem csDeassert_wbuf : (csDeassert s).wbuf = s.wbuf := rfl
@[simp] theorem csDeassert_n : (csDeassert s).n = s.n := rfl
@[simp] theorem csDeassert_idx : (csDeassert s).idx = s.idx := rfl
@[simp] theorem csDeassert_err : (csDeassert s).err = s.err := rfl
@[simp] theorem csDeassert_rbuf : (csDeassert s).rbuf = s.rbuf := rfl
@[simp] theorem csDeassert_status : (csDeassert s).status = s.status := rfl
@[simp] theorem csDeassert_rlen : (csDeassert s).rlen = s.rlen := rfl
@[simp] theorem csDeassert_dev : (csDeassert s).dev = s.dev.deselect s.draws := rfl
@[simp] theorem csDeassert_requesters : (csDeassert s).requesters = s.requesters := rfl
@[simp] theorem csDeassert_oks : (csDeassert s).oks = s.oks := rfl
@[simp] theorem csDeassert_resets : (csDeassert s).resets = s.resets := rfl
@[simp] theorem csDeassert_trace : (csDeassert s).trace = s.trace ++ [Event.desel] := rfl
@[simp] theorem csDeassert_hostTrace : (csDeassert s).hostTrace = s.hostTrace := rfl
@[simp] theorem csDeassert_draws : (csDeassert s).draws = s.draws + 1 := rfl

/-! ### delay -/

@[simp] theorem delay_phase (ms : Nat) : (delay ms s).phase = s.phase := rfl
@[simp] theorem delay_csN (ms : Nat) : (delay ms s).csN = s.csN := rfl
@[simp] theorem delay_kind (ms : Nat) : (delay ms s).kind = s.kind := rfl
@[simp] theorem delay_addr (ms : Nat) : (delay ms s).addr = s.addr := rfl
@[simp] theorem delay_len (ms : Nat) : (delay ms s).len = s.len := rfl
@[simp] theorem delay_wbuf (ms : Nat) : (delay ms s).wbuf = s.wbuf := rfl
@[simp] theorem delay_n (ms : Nat) : (delay ms s).n = s.n := rfl
@[simp] theorem delay_idx (ms : Nat) : (delay ms s).idx = s.idx := rfl
@[simp] theorem delay_err (ms : Nat) : (delay ms s).err = s.err := rfl
@[simp] theorem delay_rbuf (ms : Nat) : (delay ms s).rbuf = s.rbuf := rfl
@[simp] theorem delay_status (ms : Nat) : (delay ms s).status = s.status := rfl
@[simp] theorem delay_rlen (ms : Nat) : (delay ms s).rlen = s.rlen := rfl
@[simp] theorem delay_dev (ms : Nat) : (delay ms s).dev = s.dev.elapse ms := rfl
@[simp] theorem delay_requesters (ms : Nat) : (delay ms s).requesters = s.requesters := rfl
@[simp] theorem delay_oks (ms : Nat) : (delay ms s).oks = s.oks := rfl
@[simp] theorem delay_resets (ms : Nat) : (delay ms s).resets = s.resets := rfl
@[simp] theorem delay_trace (ms : Nat) : (delay ms s).trace = s.trace ++ [Event.delay ms] := rfl
@[simp] theorem delay_hostTrace (ms : Nat) : (delay ms s).hostTrace = s.hostTrace := rfl
@[simp] theorem delay_draws (ms : Nat) : (delay ms s).draws = s.draws := rfl

/-! ### okTaken -/

@[simp] theorem okTaken_phase : (s.okTaken).phase = s.phase := rfl
@[simp] theorem okTaken_csN : (s.okTaken).csN = s.csN := rfl
@[simp] theorem okTaken_kind : (s.okTaken).kind = s.kind := rfl
@[simp] theorem okTaken_addr : (s.okTaken).addr = s.addr := rfl
@[simp] theorem okTaken_len : (s.okTaken).len = s.len := rfl
@[simp] theorem okTaken_wbuf : (s.okTaken).wbuf = s.wbuf := rfl
@[simp] theorem okTaken_n : (s.okTaken).n = s.n := rfl
@[simp] theorem okTaken_idx : (s.okTaken).idx = s.idx := rfl
@[simp] theorem okTaken_err : (s.okTaken).err = s.err := rfl
@[simp] theorem okTaken_rbuf : (s.okTaken).rbuf = s.rbuf := rfl
@[simp] theorem okTaken_status : (s.okTaken).status = s.status := rfl
@[simp] theorem okTaken_rlen : (s.okTaken).rlen = s.rlen := rfl
@[simp] theorem okTaken_dev : (s.okTaken).dev = s.dev := rfl
@[simp] theorem okTaken_requesters : (s.okTaken).requesters = s.requesters := rfl
@[simp] theorem okTaken_oks : (s.okTaken).oks = s.oks.tail := rfl
@[simp] theorem okTaken_resets : (s.okTaken).resets = s.resets := rfl
@[simp] theorem okTaken_trace : (s.okTaken).trace = s.trace := rfl
@[simp] theorem okTaken_hostTrace : (s.okTaken).hostTrace = s.hostTrace := rfl
@[simp] theorem okTaken_draws : (s.okTaken).draws = if s.oks.isEmpty then s.draws + 1 else s.draws := rfl

/-! ### deviceTake -/

@[simp] theorem deviceTake_phase (b : Byte) (ok : Bool) : (deviceTake b ok s).phase = s.phase := rfl
@[simp] theorem deviceTake_csN (b : Byte) (ok : Bool) : (deviceTake b ok s).csN = s.csN := rfl
@[simp] theorem deviceTake_kind (b : Byte) (ok : Bool) : (deviceTake b ok s).kind = s.kind := rfl
@[simp] theorem deviceTake_addr (b : Byte) (ok : Bool) : (deviceTake b ok s).addr = s.addr := rfl
@[simp] theorem deviceTake_len (b : Byte) (ok : Bool) : (deviceTake b ok s).len = s.len := rfl
@[simp] theorem deviceTake_wbuf (b : Byte) (ok : Bool) : (deviceTake b ok s).wbuf = s.wbuf := rfl
@[simp] theorem deviceTake_n (b : Byte) (ok : Bool) : (deviceTake b ok s).n = s.n := rfl
@[simp] theorem deviceTake_idx (b : Byte) (ok : Bool) : (deviceTake b ok s).idx = s.idx := rfl
@[simp] theorem deviceTake_err (b : Byte) (ok : Bool) : (deviceTake b ok s).err = s.err := rfl
@[simp] theorem deviceTake_rbuf (b : Byte) (ok : Bool) : (deviceTake b ok s).rbuf = s.rbuf := rfl
@[simp] theorem deviceTake_status (b : Byte) (ok : Bool) : (deviceTake b ok s).status = s.status := rfl
@[simp] theorem deviceTake_rlen (b : Byte) (ok : Bool) : (deviceTake b ok s).rlen = s.rlen := rfl
@[simp] theorem deviceTake_dev (b : Byte) (ok : Bool) : (deviceTake b ok s).dev = s.dev.take s.draws b ok := rfl
@[simp] theorem deviceTake_requesters (b : Byte) (ok : Bool) : (deviceTake b ok s).requesters = s.requesters := rfl
@[simp] theorem deviceTake_oks (b : Byte) (ok : Bool) : (deviceTake b ok s).oks = s.oks := rfl
@[simp] theorem deviceTake_resets (b : Byte) (ok : Bool) : (deviceTake b ok s).resets = s.resets := rfl
@[simp] theorem deviceTake_trace (b : Byte) (ok : Bool) : (deviceTake b ok s).trace = s.trace := rfl
@[simp] theorem deviceTake_hostTrace (b : Byte) (ok : Bool) : (deviceTake b ok s).hostTrace = s.hostTrace := rfl
@[simp] theorem deviceTake_draws (b : Byte) (ok : Bool) : (deviceTake b ok s).draws = if ok then s.draws else s.draws + 1 := rfl

/-! ### busTx -/

@[simp] theorem busTx_phase (b : Byte) : (busTx b s).phase = s.phase := rfl
@[simp] theorem busTx_csN (b : Byte) : (busTx b s).csN = s.csN := rfl
@[simp] theorem busTx_kind (b : Byte) : (busTx b s).kind = s.kind := rfl
@[simp] theorem busTx_addr (b : Byte) : (busTx b s).addr = s.addr := rfl
@[simp] theorem busTx_len (b : Byte) : (busTx b s).len = s.len := rfl
@[simp] theorem busTx_wbuf (b : Byte) : (busTx b s).wbuf = s.wbuf := rfl
@[simp] theorem busTx_n (b : Byte) : (busTx b s).n = s.n := rfl
@[simp] theorem busTx_idx (b : Byte) : (busTx b s).idx = s.idx := rfl
@[simp] theorem busTx_err (b : Byte) : (busTx b s).err = s.err := rfl
@[simp] theorem busTx_rbuf (b : Byte) : (busTx b s).rbuf = s.rbuf := rfl
@[simp] theorem busTx_status (b : Byte) : (busTx b s).status = s.status := rfl
@[simp] theorem busTx_rlen (b : Byte) : (busTx b s).rlen = s.rlen := rfl
@[simp] theorem busTx_dev (b : Byte) : (busTx b s).dev = s.dev.take s.okTaken.draws b s.nextOk := rfl
@[simp] theorem busTx_requesters (b : Byte) : (busTx b s).requesters = s.requesters := rfl
@[simp] theorem busTx_oks (b : Byte) : (busTx b s).oks = s.oks.tail := rfl
@[simp] theorem busTx_resets (b : Byte) : (busTx b s).resets = s.resets := rfl
@[simp] theorem busTx_trace (b : Byte) : (busTx b s).trace = s.trace ++ [Event.tx b s.nextOk] := rfl
@[simp] theorem busTx_hostTrace (b : Byte) : (busTx b s).hostTrace = s.hostTrace := rfl
@[simp] theorem busTx_draws (b : Byte) : (busTx b s).draws = if s.nextOk then s.okTaken.draws else s.okTaken.draws + 1 := rfl

/-! ### busRx -/

@[simp] theorem busRx_phase (f : Byte) : (busRx f s).phase = s.phase := rfl
@[simp] theorem busRx_csN (f : Byte) : (busRx f s).csN = s.csN := rfl
@[simp] theorem busRx_kind (f : Byte) : (busRx f s).kind = s.kind := rfl
@[simp] theorem busRx_addr (f : Byte) : (busRx f s).addr = s.addr := rfl
@[simp] theorem busRx_len (f : Byte) : (busRx f s).len = s.len := rfl
@[simp] theorem busRx_wbuf (f : Byte) : (busRx f s).wbuf = s.wbuf := rfl
@[simp] theorem busRx_n (f : Byte) : (busRx f s).n = s.n := rfl
@[simp] theorem busRx_idx (f : Byte) : (busRx f s).idx = s.idx := rfl
@[simp] theorem busRx_err (f : Byte) : (busRx f s).err = s.err := rfl
@[simp] theorem busRx_rbuf (f : Byte) : (busRx f s).rbuf = s.rbuf := rfl
@[simp] theorem busRx_status (f : Byte) : (busRx f s).status = s.status := rfl
@[simp] theorem busRx_rlen (f : Byte) : (busRx f s).rlen = s.rlen := rfl
@[simp] theorem busRx_dev (f : Byte) : (busRx f s).dev = s.dev.take (s.okTaken.draws + 1) f s.nextOk := rfl
@[simp] theorem busRx_requesters (f : Byte) : (busRx f s).requesters = s.requesters := rfl
@[simp] theorem busRx_oks (f : Byte) : (busRx f s).oks = s.oks.tail := rfl
@[simp] theorem busRx_resets (f : Byte) : (busRx f s).resets = s.resets := rfl
@[simp] theorem busRx_trace (f : Byte) : (busRx f s).trace = s.trace ++ [Event.rx f s.nextByte s.nextOk] := rfl
@[simp] theorem busRx_hostTrace (f : Byte) : (busRx f s).hostTrace = s.hostTrace := rfl
@[simp] theorem busRx_draws (f : Byte) : (busRx f s).draws = if s.nextOk then s.okTaken.draws + 1 else s.okTaken.draws + 1 + 1 := rfl

/-! ### storeByte -/

@[simp] theorem storeByte_phase (ok : Bool) (b : Byte) : (storeByte ok b s).phase = s.phase := rfl
@[simp] theorem storeByte_csN (ok : Bool) (b : Byte) : (storeByte ok b s).csN = s.csN := rfl
@[simp] theorem storeByte_kind (ok : Bool) (b : Byte) : (storeByte ok b s).kind = s.kind := rfl
@[simp] theorem storeByte_addr (ok : Bool) (b : Byte) : (storeByte ok b s).addr = s.addr := rfl
@[simp] theorem storeByte_len (ok : Bool) (b : Byte) : (storeByte ok b s).len = s.len := rfl
@[simp] theorem storeByte_wbuf (ok : Bool) (b : Byte) : (storeByte ok b s).wbuf = s.wbuf := rfl
@[simp] theorem storeByte_n (ok : Bool) (b : Byte) : (storeByte ok b s).n = s.n := rfl
@[simp] theorem storeByte_idx (ok : Bool) (b : Byte) : (storeByte ok b s).idx = s.idx := rfl
@[simp] theorem storeByte_err (ok : Bool) (b : Byte) : (storeByte ok b s).err = s.err := rfl
@[simp] theorem storeByte_rbuf (ok : Bool) (b : Byte) : (storeByte ok b s).rbuf = if ok then s.rbuf.setIfInBounds s.idx.toNat b else s.rbuf := rfl
@[simp] theorem storeByte_status (ok : Bool) (b : Byte) : (storeByte ok b s).status = s.status := rfl
@[simp] theorem storeByte_rlen (ok : Bool) (b : Byte) : (storeByte ok b s).rlen = s.rlen := rfl
@[simp] theorem storeByte_dev (ok : Bool) (b : Byte) : (storeByte ok b s).dev = s.dev := rfl
@[simp] theorem storeByte_requesters (ok : Bool) (b : Byte) : (storeByte ok b s).requesters = s.requesters := rfl
@[simp] theorem storeByte_oks (ok : Bool) (b : Byte) : (storeByte ok b s).oks = s.oks := rfl
@[simp] theorem storeByte_resets (ok : Bool) (b : Byte) : (storeByte ok b s).resets = s.resets := rfl
@[simp] theorem storeByte_trace (ok : Bool) (b : Byte) : (storeByte ok b s).trace = s.trace := rfl
@[simp] theorem storeByte_hostTrace (ok : Bool) (b : Byte) : (storeByte ok b s).hostTrace = s.hostTrace := rfl
@[simp] theorem storeByte_draws (ok : Bool) (b : Byte) : (storeByte ok b s).draws = s.draws := rfl

/-! ### countdown -/

@[simp] theorem countdown_phase : (s.countdown).phase = s.phase := rfl
@[simp] theorem countdown_csN : (s.countdown).csN = s.csN := rfl
@[simp] theorem countdown_kind : (s.countdown).kind = s.kind := rfl
@[simp] theorem countdown_addr : (s.countdown).addr = s.addr := rfl
@[simp] theorem countdown_len : (s.countdown).len = s.len := rfl
@[simp] theorem countdown_wbuf : (s.countdown).wbuf = s.wbuf := rfl
@[simp] theorem countdown_n : (s.countdown).n = s.n := rfl
@[simp] theorem countdown_idx : (s.countdown).idx = s.idx := rfl
@[simp] theorem countdown_err : (s.countdown).err = s.err := rfl
@[simp] theorem countdown_rbuf : (s.countdown).rbuf = s.rbuf := rfl
@[simp] theorem countdown_status : (s.countdown).status = s.status := rfl
@[simp] theorem countdown_rlen : (s.countdown).rlen = s.rlen := rfl
@[simp] theorem countdown_dev : (s.countdown).dev = s.dev := rfl
@[simp] theorem countdown_requesters : (s.countdown).requesters = s.requesters := rfl
@[simp] theorem countdown_oks : (s.countdown).oks = s.oks := rfl
@[simp] theorem countdown_trace : (s.countdown).trace = s.trace := rfl
@[simp] theorem countdown_hostTrace : (s.countdown).hostTrace = s.hostTrace := rfl
@[simp] theorem countdown_draws : (s.countdown).draws = s.draws := rfl

end Sys2Proof.Machine
end

