-- ==== Sys2Proof/Laws/Phases.lean ====
section
/-! SUPPORT. What each phase does, said once: the outcome of a transfer, the phases one by one, and runs of phases. -/

namespace Sys2Proof.Machine

variable {s : State}

/-! ### Transfers -/

theorem nextOk_cons {ok : Bool} {rest : List Bool} (h : s.oks = ok :: rest) : s.nextOk = ok := by
  simp [State.nextOk, h]

/-- A transfer out that succeeds (R11). -/
theorem busTx_ok {rest : List Bool} (b : Byte) (h : s.oks = true :: rest) :
    busTx b s = { s with oks := rest, dev := s.dev.push [b], trace := s.trace ++ [Event.tx b true] } := by
  simp [busTx, deviceTake, State.okTaken, State.emit, nextOk_cons h, h, Device.take_ok]

/-- A transfer in that succeeds (R11): the byte is the device's answer. -/
theorem busRx_ok {rest : List Bool} (f : Byte) (h : s.oks = true :: rest) :
    busRx f s = { s with
      oks := rest, dev := s.dev.push [f], draws := s.draws + 1
      trace := s.trace ++ [Event.rx f (s.dev.answer s.draws) true] } := by
  simp [busRx, deviceTake, State.okTaken, State.emit, State.nextByte, nextOk_cons h, h, Device.take_ok]

/-- A byte clocked in is the device's answer, whatever its ok flag is (R13, R101). -/
theorem nextByte_eq (s : State) : s.nextByte = s.dev.answer s.okTaken.draws := rfl

theorem nextByte_ok {rest : List Bool} (h : s.oks = true :: rest) : s.nextByte = s.dev.answer s.draws := by
  simp [nextByte_eq, State.okTaken, h]

/-- What a transfer out leaves, whatever the bus reports. -/
theorem busTx_dev_cases (b : Byte) (s : State) :
    ∃ f, (busTx b s).dev = { s.dev with frame := f } ∧ f.isSome = s.dev.frame.isSome := by
  simpa using Device.take_cases s.dev s.okTaken.draws b s.nextOk

/-- What a transfer in leaves, whatever the bus reports. -/
theorem busRx_dev_cases (b : Byte) (s : State) :
    ∃ f, (busRx b s).dev = { s.dev with frame := f } ∧ f.isSome = s.dev.frame.isSome := by
  simpa using Device.take_cases s.dev (s.okTaken.draws + 1) b s.nextOk

theorem afterTransfer_cases (ok : Bool) (next : Phase) (s : State) :
    (ok = true ∧ afterTransfer ok next s = s.goto next) ∨
      (ok = false ∧ afterTransfer ok next s = failTransfer s) := by
  cases ok <;> simp [afterTransfer]

/-! ### Phases -/

@[simp] theorem command_eq (s : State) : s.command = Command.ofKind s.kind := rfl

theorem countdown_of_none (h : s.resets = []) : s.countdown = s := by
  cases s; simp_all [State.countdown]

theorem not_resetDue (h : s.resets = []) : s.resetDue = false := by simp [State.resetDue, h]

theorem tick_eq (h : s.resets = []) : tick s = phaseStep s := by
  simp [tick, not_resetDue h, countdown_of_none h]

theorem runPhases_idle (k : Nat) (h : s.phase = .idle) : runPhases k s = s := by
  cases k <;> simp [runPhases, h]

theorem runPhases_succ (k : Nat) (hp : s.phase ≠ .idle) (hr : s.resets = []) :
    runPhases (k + 1) s = runPhases k (phaseStep s) := by
  simp [runPhases, hp, tick_eq hr]

/-- A command at the port of a ready machine is issued and runs (R36, R114). -/
theorem runCommand_ready (d : Descriptor) (h : s.Ready) :
    runCommand d s = .next (runPhases longestCommand (issue d s)) := by
  obtain ⟨hp, hr⟩ := h
  simp [runCommand, not_resetDue hr, State.busy, hp, countdown_of_none hr]

/-- Every instruction runs as the command of its descriptor (R83, R91). -/
theorem exec_eq (i : Instr) (s : State) : exec i s = runCommand i.descriptor s := by cases i <;> rfl

/-- CHECK, passed (R104). -/
theorem phaseStep_check_valid {c : Command} (hp : s.phase = .check) (hc : s.kind = c.kind)
    (hv : valid s.kind s.addr s.len = true) :
    phaseStep s = { s with n := c.nData s.len, phase := .sel } := by
  simp [phaseStep, hp, phaseCheck, hc, State.goto]
  simp_all

/-- CHECK, failed (R104, R172). -/
theorem phaseStep_check_invalid (hp : s.phase = .check) (hv : valid s.kind s.addr s.len = false) :
    phaseStep s = raiseException statusInvalidArgument s := by
  simp only [phaseStep, hp, phaseCheck]
  split <;> simp [hv]

/-- SEL (R105). -/
theorem phaseStep_sel (hp : s.phase = .sel) :
    phaseStep s = { s with
      phase := .opc, csN := false, idx := 0#16, err := false, dev := s.dev.select
      trace := s.trace ++ [Event.sel] } := by
  simp [phaseStep, hp, phaseSel, csAssert, State.goto, State.emit]

/-- OPC, transferred (R106). -/
theorem phaseStep_opc_ok {c : Command} {rest : List Bool} (hp : s.phase = .opc) (hc : s.kind = c.kind)
    (ho : s.oks = true :: rest) :
    phaseStep s = { s with
      phase := afterOpcode c s.n, oks := rest, dev := s.dev.push [c.opcode]
      trace := s.trace ++ [Event.tx c.opcode true] } := by
  simp [phaseStep, hp, phaseOpc, hc, afterTransfer, nextOk_cons ho, busTx_ok _ ho, State.goto]

/-- ALO, transferred (R107). -/
theorem phaseStep_alo_ok {rest : List Bool} (hp : s.phase = .alo) (ho : s.oks = true :: rest) :
    phaseStep s = { s with
      phase := .ahi, oks := rest, dev := s.dev.push [lowByte s.addr]
      trace := s.trace ++ [Event.tx (lowByte s.addr) true] } := by
  simp [phaseStep, hp, phaseAlo, afterTransfer, nextOk_cons ho, busTx_ok _ ho, State.goto]

/-- AHI, transferred (R108). -/
theorem phaseStep_ahi_ok {rest : List Bool} (hp : s.phase = .ahi) (ho : s.oks = true :: rest) :
    phaseStep s = { s with
      phase := .data, oks := rest, dev := s.dev.push [highByte s.addr]
      trace := s.trace ++ [Event.tx (highByte s.addr) true] } := by
  simp [phaseStep, hp, phaseAhi, afterTransfer, nextOk_cons ho, busTx_ok _ ho, State.goto]

/-- DATA out, transferred (R109). -/
theorem phaseStep_data_out_ok {c : Command} {rest : List Bool} (hp : s.phase = .data) (hc : s.kind = c.kind)
    (hd : c.dir = .out) (h1 : s.idx.toNat < s.n.toNat) (h2 : s.idx.toNat < Config.pageSize)
    (ho : s.oks = true :: rest) :
    phaseStep s = { s with
      phase := if s.idx + 1#16 = s.n then .desel else .data, idx := s.idx + 1#16, oks := rest
      dev := s.dev.push [s.wbuf[s.idx.toNat]]
      trace := s.trace ++ [Event.tx s.wbuf[s.idx.toNat] true] } := by
  have hk : s.command = some c := by simp [hc]
  simp only [phaseStep, hp, phaseData, hk]
  rw [dif_pos ⟨h1, h2⟩]
  simp only [hd, afterData, nextOk_cons ho, busTx_ok _ ho, State.goto, if_true]

/-- DATA in, transferred (R109). -/
theorem phaseStep_data_in_ok {c : Command} {rest : List Bool} (hp : s.phase = .data) (hc : s.kind = c.kind)
    (hd : c.dir ≠ .out) (h1 : s.idx.toNat < s.n.toNat) (h2 : s.idx.toNat < Config.pageSize)
    (ho : s.oks = true :: rest) :
    phaseStep s = { s with
      phase := if s.idx + 1#16 = s.n then .desel else .data, idx := s.idx + 1#16, oks := rest
      draws := s.draws + 1, rbuf := s.rbuf.setIfInBounds s.idx.toNat (s.dev.answer s.draws)
      dev := s.dev.push [Config.filler]
      trace := s.trace ++ [Event.rx Config.filler (s.dev.answer s.draws) true] } := by
  have hk : s.command = some c := by simp [hc]
  simp only [phaseStep, hp, phaseData, hk]
  rw [dif_pos ⟨h1, h2⟩]
  cases hdir : c.dir
  · exact absurd hdir hd
  all_goals
    simp only [afterData, nextOk_cons ho, nextByte_ok ho, busRx_ok _ ho, State.goto, storeByte, if_true]

/-- DESEL (R110). -/
theorem phaseStep_desel (hp : s.phase = .desel) :
    phaseStep s = { s with
      phase := .settle, csN := true, dev := s.dev.deselect s.draws, draws := s.draws + 1
      trace := s.trace ++ [Event.desel] } := by
  simp [phaseStep, hp, phaseDesel, csDeassert, State.goto, State.emit]

/-- SETTLE (R111). -/
theorem phaseStep_settle (hp : s.phase = .settle) :
    phaseStep s = { s with
      phase := .done, dev := s.dev.elapse Config.tSettleMs
      trace := s.trace ++ [Event.delay Config.tSettleMs] } := by
  simp [phaseStep, hp, phaseSettle, delay, State.goto, State.emit]

/-- DONE without a failure (R112). -/
theorem phaseStep_done_ok {c : Command} (hp : s.phase = .done) (hc : s.kind = c.kind) (he : s.err = false) :
    phaseStep s = s.complete statusOk (resultLength c s.n) := by
  simp [phaseStep, hp, phaseDone, hc, he]

/-- DONE after a failure (R112, R173). -/
theorem phaseStep_done_err {c : Command} (hp : s.phase = .done) (hc : s.kind = c.kind) (he : s.err = true) :
    phaseStep s = raiseException statusBusError s := by
  simp [phaseStep, hp, phaseDone, hc, he]

/-! ### Runs of phases -/

/-- The end of a frame from DESEL on, and the completion (R110 to R112). -/
theorem runPhases_desel {c : Command} (k : Nat) (hp : s.phase = .desel) (hr : s.resets = [])
    (hc : s.kind = c.kind) :
    runPhases (k + 3) s =
      State.complete (if s.err then statusBusError else statusOk)
        (if s.err then 0#16 else resultLength c s.n)
        { s with
          csN := true, phase := .done, draws := s.draws + 1
          dev := (s.dev.deselect s.draws).elapse Config.tSettleMs
          trace := s.trace ++ [Event.desel, Event.delay Config.tSettleMs] } := by
  rw [runPhases_succ _ (by simp [hp]) hr, phaseStep_desel hp,
    runPhases_succ _ (by simp) (by simpa using hr), phaseStep_settle rfl,
    runPhases_succ _ (by simp) (by simpa using hr)]
  cases he : s.err
  · rw [phaseStep_done_ok (c := c) rfl (by simpa using hc) (by simp), runPhases_idle _ rfl]
    simp [State.complete, State.record, State.goto, List.append_assoc]
  · rw [phaseStep_done_err (c := c) rfl (by simpa using hc) (by simp), runPhases_idle _ rfl]
    simp [raiseException, State.complete, State.record, State.goto, List.append_assoc]

/-- The data bytes of a frame that sends them, all transferred (R109). -/
theorem runPhases_data_out {c : Command} (hd : c.dir = .out) (j : Nat) {rest : List Bool} :
    ∀ (s : State) (k : Nat), s.phase = .data → s.resets = [] → s.kind = c.kind →
      s.idx.toNat + (j + 1) = s.n.toNat → s.n.toNat ≤ Config.pageSize →
      s.oks = List.replicate (j + 1) true ++ rest →
      runPhases (k + (j + 1)) s = runPhases k { s with
        phase := .desel, idx := s.n, oks := rest
        dev := s.dev.push ((s.wbuf.toList.drop s.idx.toNat).take (j + 1))
        trace := s.trace ++ sent ((s.wbuf.toList.drop s.idx.toNat).take (j + 1)) } := by
  induction j with
  | zero =>
    intro s k hp hr hc hn hle ho
    have h2 : s.idx.toNat < Config.pageSize := by omega
    have hidx : s.idx + 1#16 = s.n := by
      apply BitVec.eq_of_toNat_eq; rw [BitVec.toNat_add]; simp; simp only [Config.pageSize] at *; omega
    rw [runPhases_succ _ (by simp [hp]) hr,
      phaseStep_data_out_ok (rest := rest) hp hc hd (by omega) h2 (by simpa using ho)]
    have hdrop : (s.wbuf.toList.drop s.idx.toNat).take 1 = [s.wbuf[s.idx.toNat]] := by
      rw [List.take_one_drop_eq_of_lt_length (by simpa using h2)]; simp
    simp [hidx, hdrop, sent]
  | succ j ih =>
    intro s k hp hr hc hn hle ho
    have h2 : s.idx.toNat < Config.pageSize := by omega
    have htn : (s.idx + 1#16).toNat = s.idx.toNat + 1 := by
      rw [BitVec.toNat_add]; simp; simp only [Config.pageSize] at *; omega
    have hidx : s.idx + 1#16 ≠ s.n := by
      intro h; have := congrArg BitVec.toNat h; omega
    rw [show k + (j + 1 + 1) = (k + (j + 1)) + 1 by omega, runPhases_succ _ (by simp [hp]) hr,
      phaseStep_data_out_ok (rest := List.replicate (j + 1) true ++ rest) hp hc hd (by omega) h2
        (by simpa [List.replicate_succ] using ho),
      ih _ _ (by simp [hidx]) (by simpa using hr) (by simpa using hc) (by simp only [htn]; omega)
        (by simpa using hle) (by simp)]
    have hdrop : (s.wbuf.toList.drop s.idx.toNat).take (j + 1 + 1) =
        s.wbuf[s.idx.toNat] :: (s.wbuf.toList.drop (s.idx.toNat + 1)).take (j + 1) := by
      rw [List.drop_eq_getElem_cons (by simpa using h2), List.take_succ_cons]; simp
    simp [htn, hdrop, sent]

/-- The answers of the device to `j` byte reads in a row, the first at a given draw. -/
def Device.answers (draw : Nat) (d : Device) : Nat → List Byte
  | 0 => []
  | j + 1 => d.answer draw :: (d.push [Config.filler]).answers (draw + 1) j

@[simp] theorem Device.answers_length (draw : Nat) (d : Device) (j : Nat) : (d.answers draw j).length = j := by
  induction j generalizing draw d with
  | zero => rfl
  | succ j ih => simp [Device.answers, ih]

/-- A page whose bytes from index `i` on are those of a list. -/
def fillFrom (p : Page) (i : Nat) : List Byte → Page
  | [] => p
  | b :: rest => fillFrom (p.setIfInBounds i b) (i + 1) rest

theorem fillFrom_getElem (p : Page) (i : Nat) (l : List Byte) (x : Nat) (hx : x < Config.pageSize) :
    (fillFrom p i l)[x] = if h : i ≤ x ∧ x < i + l.length then l[x - i] else p[x] := by
  induction l generalizing p i with
  | nil => rw [dif_neg (by simp)]; rfl
  | cons b rest ih =>
    simp only [fillFrom, ih, List.length_cons]
    by_cases h1 : i = x
    · subst h1
      rw [dif_neg (by omega), dif_pos (by omega)]
      simp
    · by_cases h2 : i + 1 ≤ x ∧ x < i + 1 + rest.length
      · rw [dif_pos h2, dif_pos (by omega)]
        obtain ⟨y, rfl⟩ : ∃ y, x = i + 1 + y := ⟨x - (i + 1), by omega⟩
        have h4 : i + 1 + y - i = y + 1 := by omega
        simp [h4]
      · rw [dif_neg h2, dif_neg (by omega)]
        simp [h1]

/-- The data bytes of a frame that receives them, all transferred (R109). -/
theorem runPhases_data_in {c : Command} (hd : c.dir ≠ .out) (j : Nat) {rest : List Bool} :
    ∀ (s : State) (k : Nat), s.phase = .data → s.resets = [] → s.kind = c.kind →
      s.idx.toNat + (j + 1) = s.n.toNat → s.n.toNat ≤ Config.pageSize →
      s.oks = List.replicate (j + 1) true ++ rest →
      runPhases (k + (j + 1)) s = runPhases k { s with
        phase := .desel, idx := s.n, oks := rest, draws := s.draws + (j + 1)
        rbuf := fillFrom s.rbuf s.idx.toNat (s.dev.answers s.draws (j + 1))
        dev := s.dev.push (List.replicate (j + 1) Config.filler)
        trace := s.trace ++ got (s.dev.answers s.draws (j + 1)) } := by
  induction j with
  | zero =>
    intro s k hp hr hc hn hle ho
    have h2 : s.idx.toNat < Config.pageSize := by omega
    have hidx : s.idx + 1#16 = s.n := by
      apply BitVec.eq_of_toNat_eq; rw [BitVec.toNat_add]; simp; simp only [Config.pageSize] at *; omega
    rw [runPhases_succ _ (by simp [hp]) hr,
      phaseStep_data_in_ok (rest := rest) hp hc hd (by omega) h2 (by simpa using ho)]
    simp [hidx, got, Device.answers, fillFrom]
  | succ j ih =>
    intro s k hp hr hc hn hle ho
    have h2 : s.idx.toNat < Config.pageSize := by omega
    have htn : (s.idx + 1#16).toNat = s.idx.toNat + 1 := by
      rw [BitVec.toNat_add]; simp; simp only [Config.pageSize] at *; omega
    have hidx : s.idx + 1#16 ≠ s.n := by
      intro h; have := congrArg BitVec.toNat h; omega
    rw [show k + (j + 1 + 1) = (k + (j + 1)) + 1 by omega, runPhases_succ _ (by simp [hp]) hr,
      phaseStep_data_in_ok (rest := List.replicate (j + 1) true ++ rest) hp hc hd (by omega) h2
        (by simpa [List.replicate_succ] using ho),
      ih _ _ (by simp [hidx]) (by simpa using hr) (by simpa using hc) (by simp only [htn]; omega)
        (by simpa using hle) (by simp)]
    have hd2 : s.draws + 1 + (j + 1) = s.draws + (j + 1 + 1) := by omega
    simp [htn, got, Device.answers, fillFrom, hd2, List.replicate_succ]

end Sys2Proof.Machine
end

