-- ==== Sys2Proof/Laws/Run.lean ====
section
/-! SUPPORT. A whole command on a bus that does not fail, as one closed form, and a command that fails its check. The
statements of the provers are about single commands and their effect on the device; they rest on these. -/

namespace Sys2Proof.Machine

variable {s : State}

/-- The phase after the header of a frame: DATA if it has data bytes (R106 to R108). -/
def afterHeader (n : Half) : Phase := if 0 < n.toNat then .data else .desel

/-- CHECK, SEL and the header, all transferred (R104 to R108). -/
theorem runPhases_header {c : Command} {o : Operands} (k : Nat) {rest : List Bool} (hr : s.resets = [])
    (hv : commandCheck Config.pageSize o.addr o.len c = true)
    (ho : s.oks = List.replicate (c.header o.addr).length true ++ rest) :
    runPhases (k + (c.header o.addr).length + 2) (issue { kind := c.kind, operands := o } s) =
      runPhases k { s with
        phase := afterHeader (c.nData o.len), csN := false
        kind := c.kind, addr := o.addr, len := o.len, wbuf := o.wdata
        n := c.nData o.len, idx := 0#16, err := false
        dev := s.dev.select.push (c.header o.addr), oks := rest
        trace := s.trace ++ Event.sel :: sent (c.header o.addr)
        hostTrace := s.hostTrace ++ [HostEvent.issue { kind := c.kind, operands := o }] } := by
  have hb := commandCheck_bounds hv
  rw [show k + (c.header o.addr).length + 2 = k + (c.header o.addr).length + 1 + 1 by omega,
    runPhases_succ _ (by simp) (by simpa using hr),
    phaseStep_check_valid (c := c) rfl rfl (by simpa using hv),
    runPhases_succ _ (by simp) (by simpa using hr), phaseStep_sel rfl]
  cases ha : c.hasAddr
  · have hh : c.header o.addr = [c.opcode] := by simp [Command.header, ha]
    rw [hh] at ho ⊢
    rw [show k + [c.opcode].length = k + 1 from rfl, runPhases_succ _ (by simp) (by simpa using hr),
      phaseStep_opc_ok (c := c) (rest := rest) rfl rfl (by simpa using ho)]
    simp [afterOpcode, ha, afterHeader, sent, issue, State.goto, State.record]
    rfl
  · have hh : c.header o.addr = [c.opcode, lowByte o.addr, highByte o.addr] := by simp [Command.header, ha]
    rw [hh] at ho ⊢
    have hn := hb.2 ha
    rw [show k + [c.opcode, lowByte o.addr, highByte o.addr].length = k + 1 + 1 + 1 from rfl,
      runPhases_succ _ (by simp) (by simpa using hr),
      phaseStep_opc_ok (c := c) (rest := true :: true :: rest) rfl rfl (by simpa using ho),
      runPhases_succ _ (by simp [afterOpcode, ha]) (by simpa using hr),
      phaseStep_alo_ok (rest := true :: rest) (by simp [afterOpcode, ha]) rfl,
      runPhases_succ _ (by simp) (by simpa using hr), phaseStep_ahi_ok (rest := rest) rfl rfl]
    simp [afterHeader, hn, sent, issue, State.goto, State.record]

/-- The transfer events of a command all of whose transfers succeed. -/
def okTransfers (c : Command) (o : Operands) (s : State) : List Event :=
  match c.dir with
  | .inward =>
    sent (c.header o.addr) ++ got ((s.dev.select.push (c.header o.addr)).answers s.draws (c.nData o.len).toNat)
  | _ => sent (c.frame o)

/-- What such a command leaves in RBUF. -/
def okRbuf (c : Command) (o : Operands) (s : State) : Page :=
  match c.dir with
  | .inward => fillFrom s.rbuf 0 ((s.dev.select.push (c.header o.addr)).answers s.draws (c.nData o.len).toNat)
  | _ => s.rbuf

/-- How many draws such a command takes before its frame ends. -/
def okDraws (c : Command) (o : Operands) (s : State) : Nat :=
  match c.dir with
  | .inward => s.draws + (c.nData o.len).toNat
  | _ => s.draws

/-- The state such a command ends in (R104 to R112). -/
def okState (c : Command) (o : Operands) (rest : List Bool) (s : State) : State :=
  { s with
    phase := .idle, csN := true
    kind := c.kind, addr := o.addr, len := o.len, wbuf := o.wdata
    n := c.nData o.len, idx := c.nData o.len, err := false
    rbuf := okRbuf c o s, status := statusOk, rlen := resultLength c (c.nData o.len)
    dev := ((s.dev.select.push (c.frame o)).deselect (okDraws c o s)).elapse Config.tSettleMs
    oks := rest, draws := okDraws c o s + 1
    trace := s.trace ++ framed (okTransfers c o s)
    hostTrace := s.hostTrace ++
      [HostEvent.issue { kind := c.kind, operands := o }, HostEvent.complete statusOk] }

theorem frame_length {c : Command} {o : Operands} (hv : commandCheck Config.pageSize o.addr o.len c = true) :
    (c.frame o).length = (c.header o.addr).length + (c.nData o.len).toNat := by
  have hb := (commandCheck_bounds hv).1
  simp only [Command.frame, Command.dataOut, List.length_append, Nat.add_left_cancel_iff]
  cases c <;> simp_all [Command.dir, Command.nData]

/-- A valid command on a bus that does not fail (R104 to R112, R114). -/
theorem runCommand_ok {c : Command} {o : Operands} {rest : List Bool} (h : s.Ready)
    (hv : commandCheck Config.pageSize o.addr o.len c = true)
    (ho : s.oks = List.replicate ((c.header o.addr).length + (c.nData o.len).toNat) true ++ rest) :
    runCommand { kind := c.kind, operands := o } s = .next (okState c o rest s) := by
  obtain ⟨hb, -⟩ := commandCheck_bounds hv
  rw [runCommand_ready _ h]
  congr 1
  have hlen : (c.header o.addr).length ≤ 3 := by simp only [Command.header]; split <;> simp
  obtain ⟨spare, hspare⟩ :
      ∃ spare, longestCommand = (spare + 3 + (c.nData o.len).toNat) + (c.header o.addr).length + 2 :=
    ⟨longestCommand - 3 - (c.nData o.len).toNat - (c.header o.addr).length - 2, by
      simp only [longestCommand, Config.pageSize] at *; omega⟩
  rw [hspare, runPhases_header (rest := List.replicate (c.nData o.len).toNat true ++ rest) _ h.2 hv
    (by rw [ho, List.replicate_add, List.append_assoc])]
  rcases Nat.eq_zero_or_pos (c.nData o.len).toNat with hn | hn
  · rw [hn, show spare + 3 + 0 = spare + 3 from rfl,
      runPhases_desel (c := c) spare (by simp [afterHeader, hn]) (by exact h.2) rfl]
    have hn0 : c.nData o.len = 0#16 := BitVec.eq_of_toNat_eq (by simpa using hn)
    have hd : c.dataOut o = [] := by simp only [Command.dataOut, hn]; split <;> simp
    have hf : c.frame o = c.header o.addr := by simp [Command.frame, hd]
    have h1 : okDraws c o s = s.draws := by unfold okDraws; split <;> simp [hn]
    have h2 : okRbuf c o s = s.rbuf := by
      unfold okRbuf; split <;> simp [hn, Device.answers, fillFrom]
    have h3 : okTransfers c o s = sent (c.header o.addr) := by
      unfold okTransfers; split <;> simp [hn, Device.answers, got, hf]
    simp [okState, State.complete, State.goto, State.record, framed, hf, h1, h2, h3, hn0, List.append_assoc]
  · obtain ⟨j, hj⟩ : ∃ j, (c.nData o.len).toNat = j + 1 := ⟨_, (Nat.succ_pred_eq_of_pos hn).symm⟩
    rw [hj]
    cases hd : c.dir
    · rw [runPhases_data_out (c := c) (rest := rest) hd j _ _ (by simp [afterHeader, hj]) (by exact h.2) rfl
        (by simpa using hj.symm) (by exact hb) rfl,
        runPhases_desel (c := c) spare rfl (by exact h.2) rfl]
      have hf : c.frame o = c.header o.addr ++ o.wdata.toList.take (j + 1) := by
        simp [Command.frame, Command.dataOut, hd, hj]
      have h1 : okDraws c o s = s.draws := by simp [okDraws, hd]
      have h2 : okRbuf c o s = s.rbuf := by simp [okRbuf, hd]
      have h3 : okTransfers c o s = sent (c.frame o) := by simp [okTransfers, hd]
      simp [okState, State.complete, State.goto, State.record, framed, hf, h1, h2, h3, sent]
    · rw [runPhases_data_in (c := c) (rest := rest) (by simp [hd]) j _ _ (by simp [afterHeader, hj]) (by exact h.2) rfl
        (by simpa using hj.symm) (by exact hb) rfl,
        runPhases_desel (c := c) spare rfl (by exact h.2) rfl]
      have hf : c.frame o = c.header o.addr ++ List.replicate (j + 1) Config.filler := by
        simp [Command.frame, Command.dataOut, hd, hj]
      have h1 : okDraws c o s = s.draws + (j + 1) := by simp [okDraws, hd, hj]
      simp [okState, State.complete, State.goto, State.record, framed, hf, h1, okRbuf, okTransfers, hd, hj]
    · exfalso; cases c <;> simp_all [Command.dir, Command.nData]

/-- A command that fails its check (R104, R172): no event, the registers of R172 and the latches written. -/
theorem runCommand_invalid {d : Descriptor} (h : s.Ready)
    (hv : valid d.kind d.operands.addr d.operands.len = false) :
    runCommand d s = .next (raiseException statusInvalidArgument (issue d s)) := by
  rw [runCommand_ready _ h, show longestCommand = 23 + 1 from rfl,
    runPhases_succ _ (by simp) (by simpa using h.2), phaseStep_check_invalid rfl (by simpa using hv),
    runPhases_idle _ rfl]

end Sys2Proof.Machine
end

