-- ==== Sys2Proof/Laws/AnyBus.lean ====
section
/-! SUPPORT. A valid command whatever the bus reports: one lemma that says everything the transfers of a frame and the
end of the command can do. The frames of the commands and the failure path are read off it. -/

namespace Sys2Proof.Machine

/-- The data transfers of a command's frame (R81). -/
def dataTransfers (o : Operands) (c : Command) : List Transfer :=
  match c.dir with
  | .out => (o.wdata.toList.take (c.nData o.len).toNat).map Transfer.send
  | .inward => List.replicate (c.nData o.len).toNat Transfer.receive
  | .none => []

theorem frameTransfers_eq (o : Operands) (c : Command) :
    frameTransfers o c = (c.header o.addr).map Transfer.send ++ dataTransfers o c := rfl

theorem dataTransfers_length {c : Command} {o : Operands}
    (hv : commandCheck Config.pageSize o.addr o.len c = true) :
    (dataTransfers o c).length = (c.nData o.len).toNat := by
  have hb := (commandCheck_bounds hv).1
  unfold dataTransfers
  cases hd : c.dir
  · simp only [List.length_map, List.length_take, Vector.length_toList]; omega
  · simp
  · cases c <;> simp_all [Command.dir, Command.nData]

/-- The machine is in the frame of a command and `R` are the transfers still to come. -/
structure InFrame (c : Command) (o : Operands) (R : List Transfer) (s : State) : Prop where
  valid : commandCheck Config.pageSize o.addr o.len c = true
  resets : s.resets = []
  kind : s.kind = c.kind
  addr : s.addr = o.addr
  len : s.len = o.len
  wbuf : s.wbuf = o.wdata
  n : s.n = c.nData o.len
  err : s.err = false
  place :
    (s.phase = .opc ∧ s.idx = 0#16 ∧ R = frameTransfers o c) ∨
    (s.phase = .alo ∧ s.idx = 0#16 ∧ c.hasAddr = true ∧
      R = Transfer.send (lowByte o.addr) :: Transfer.send (highByte o.addr) :: dataTransfers o c) ∨
    (s.phase = .ahi ∧ s.idx = 0#16 ∧ c.hasAddr = true ∧
      R = Transfer.send (highByte o.addr) :: dataTransfers o c) ∨
    (s.phase = .data ∧ s.idx.toNat < s.n.toNat ∧ R = (dataTransfers o c).drop s.idx.toNat) ∨
    (s.phase = .desel ∧ R = [])

/-- What one transfer leaves, whatever it reported: `b` is the byte it brought in. -/
structure Transferred (t : Transfer) (b : Byte) (s u : State) : Prop where
  latches : LatchesKept s u
  inputs : InputsKept s u
  hostTrace : u.hostTrace = s.hostTrace
  n : u.n = s.n
  oks : u.oks = s.oks.tail
  trace : u.trace = s.trace ++ [t.event b s.nextOk]
  device : ∃ x draw, (t.event b s.nextOk).byteOut = [x] ∧ u.dev = s.dev.take draw x s.nextOk

theorem busTx_transferred (x b : Byte) (s : State) : Transferred (.send x) b s (busTx x s) :=
  ⟨⟨rfl, rfl, rfl, rfl⟩, ⟨rfl, rfl⟩, rfl, rfl, rfl, rfl, ⟨x, _, rfl, rfl⟩⟩

theorem busRx_transferred (s : State) : Transferred .receive s.nextByte s (busRx Config.filler s) :=
  ⟨⟨rfl, rfl, rfl, rfl⟩, ⟨rfl, rfl⟩, rfl, rfl, rfl, rfl, ⟨Config.filler, _, rfl, rfl⟩⟩

/-- The next transfer of a frame: it succeeds and the rest is to come, or it fails and the frame is over (R106 to
R109). -/
def NextTransfer (c : Command) (o : Operands) (t : Transfer) (R : List Transfer) (s : State) : Prop :=
  s.phase ≠ .idle ∧ ∃ b, Transferred t b s (phaseStep s) ∧
    (s.nextOk = true → InFrame c o R (phaseStep s) ∧
      ((t.received b = [] ∧ (phaseStep s).rbuf = s.rbuf ∧
          (c.dir = .inward → (phaseStep s).idx = s.idx)) ∨
        (t.received b = [b] ∧ s.idx.toNat < Config.pageSize ∧
          (phaseStep s).rbuf = s.rbuf.setIfInBounds s.idx.toNat b ∧
          (phaseStep s).idx.toNat = s.idx.toNat + 1))) ∧
    (s.nextOk = false → (phaseStep s).phase = .desel ∧ (phaseStep s).err = true ∧
      (phaseStep s).rbuf = s.rbuf)

variable {c : Command} {o : Operands} {t : Transfer} {R : List Transfer} {s : State}

theorem nextTransfer_opc (h : InFrame c o (t :: R) s) (hp : s.phase = .opc) (hi : s.idx = 0#16)
    (hR : t :: R = frameTransfers o c) : NextTransfer c o t R s := by
  obtain ⟨hv, hr, hk, ha, hl, hw, hn, he, -⟩ := h
  have hb := commandCheck_bounds hv
  have hdl := dataTransfers_length hv
  have hstep : phaseStep s = afterTransfer s.nextOk (afterOpcode c s.n) (busTx c.opcode s) := by
    simp [phaseStep, hp, phaseOpc, hk]
  refine ⟨by simp [hp], 0#8, ?_⟩
  have ht : t = .send c.opcode := by
    simp only [frameTransfers_eq, Command.header, List.map_cons, List.cons_append, List.cons.injEq] at hR
    exact hR.1
  subst ht
  have hbase := busTx_transferred c.opcode 0#8 s
  cases hok : s.nextOk
  · rw [hstep, hok]
    refine ⟨?_, by simp, fun _ => ⟨rfl, rfl, rfl⟩⟩
    simpa [afterTransfer, failTransfer, State.goto] using
      (⟨hbase.latches, hbase.inputs, hbase.hostTrace, hbase.n, hbase.oks, hbase.trace, hbase.device⟩ :
        Transferred (.send c.opcode) 0#8 s (failTransfer (busTx c.opcode s)))
  · rw [hstep, hok]
    refine ⟨⟨hbase.latches, hbase.inputs, hbase.hostTrace, hbase.n, hbase.oks, hbase.trace, hbase.device⟩,
      fun _ => ⟨⟨hv, hr, hk, ha, hl, hw, hn, he, ?_⟩, .inl ⟨rfl, rfl, fun _ => rfl⟩⟩, by simp⟩
    simp only [frameTransfers_eq, Command.header, List.map_cons, List.cons_append, List.cons.injEq] at hR
    have hR2 := hR.2
    cases hadr : c.hasAddr
    · rw [hadr] at hR2
      simp only [Bool.false_eq_true, if_false, List.map_nil, List.nil_append] at hR2
      rcases Nat.eq_zero_or_pos s.n.toNat with h0 | h0
      · refine .inr (.inr (.inr (.inr ⟨?_, ?_⟩)))
        · simp [afterTransfer, State.goto, afterOpcode, hadr, h0]
        · rw [hR2, ← List.length_eq_zero_iff, hdl, ← hn, h0]
      · refine .inr (.inr (.inr (.inl ⟨?_, ?_, ?_⟩)))
        · simp [afterTransfer, State.goto, afterOpcode, hadr, h0]
        · simp [afterTransfer, State.goto, hi, h0]
        · simp [afterTransfer, State.goto, hi, hR2]
    · rw [hadr] at hR2
      simp only [if_true, List.map_cons, List.map_nil, List.cons_append, List.nil_append] at hR2
      exact .inr (.inl ⟨by simp [afterTransfer, State.goto, afterOpcode, hadr], by simp [afterTransfer, State.goto, hi],
        rfl, hR2⟩)

theorem nextTransfer_alo (h : InFrame c o (t :: R) s) (hp : s.phase = .alo) (hi : s.idx = 0#16)
    (hadr : c.hasAddr = true)
    (hR : t :: R = Transfer.send (lowByte o.addr) :: Transfer.send (highByte o.addr) :: dataTransfers o c) :
    NextTransfer c o t R s := by
  obtain ⟨hv, hr, hk, ha, hl, hw, hn, he, -⟩ := h
  have hstep : phaseStep s = afterTransfer s.nextOk .ahi (busTx (lowByte s.addr) s) := by
    simp [phaseStep, hp, phaseAlo]
  refine ⟨by simp [hp], 0#8, ?_⟩
  rw [List.cons.injEq] at hR
  obtain ⟨rfl, rfl⟩ := hR
  have hbase := busTx_transferred (lowByte s.addr) 0#8 s
  rw [ha] at hbase hstep
  cases hok : s.nextOk
  · rw [hstep, hok]
    exact ⟨⟨hbase.latches, hbase.inputs, hbase.hostTrace, hbase.n, hbase.oks, hbase.trace, hbase.device⟩,
      by simp, fun _ => ⟨rfl, rfl, rfl⟩⟩
  · rw [hstep, hok]
    exact ⟨⟨hbase.latches, hbase.inputs, hbase.hostTrace, hbase.n, hbase.oks, hbase.trace, hbase.device⟩,
      fun _ => ⟨⟨hv, hr, hk, ha, hl, hw, hn, he, .inr (.inr (.inl ⟨rfl, hi, hadr, rfl⟩))⟩,
        .inl ⟨rfl, rfl, fun _ => rfl⟩⟩, by simp⟩

theorem nextTransfer_ahi (h : InFrame c o (t :: R) s) (hp : s.phase = .ahi) (hi : s.idx = 0#16)
    (hadr : c.hasAddr = true) (hR : t :: R = Transfer.send (highByte o.addr) :: dataTransfers o c) :
    NextTransfer c o t R s := by
  obtain ⟨hv, hr, hk, ha, hl, hw, hn, he, -⟩ := h
  have hb := commandCheck_bounds hv
  have hstep : phaseStep s = afterTransfer s.nextOk .data (busTx (highByte s.addr) s) := by
    simp [phaseStep, hp, phaseAhi]
  refine ⟨by simp [hp], 0#8, ?_⟩
  rw [List.cons.injEq] at hR
  obtain ⟨rfl, rfl⟩ := hR
  have hbase := busTx_transferred (highByte s.addr) 0#8 s
  rw [ha] at hbase hstep
  have hpos := hb.2 hadr
  cases hok : s.nextOk
  · rw [hstep, hok]
    exact ⟨⟨hbase.latches, hbase.inputs, hbase.hostTrace, hbase.n, hbase.oks, hbase.trace, hbase.device⟩,
      by simp, fun _ => ⟨rfl, rfl, rfl⟩⟩
  · rw [hstep, hok]
    refine ⟨⟨hbase.latches, hbase.inputs, hbase.hostTrace, hbase.n, hbase.oks, hbase.trace, hbase.device⟩,
      fun _ => ⟨⟨hv, hr, hk, ha, hl, hw, hn, he, .inr (.inr (.inr (.inl ⟨rfl, ?_, ?_⟩)))⟩,
        .inl ⟨rfl, rfl, fun _ => rfl⟩⟩, by simp⟩
    · simp [afterTransfer, State.goto, hi, hn, hpos]
    · simp [afterTransfer, State.goto, hi]

theorem afterData_true (v : State) :
    afterData true v = State.goto (if v.idx + 1#16 = v.n then .desel else .data) { v with idx := v.idx + 1#16 } := rfl

theorem afterData_false (v : State) : afterData false v = failTransfer v := rfl

theorem Transferred.goto {b : Byte} {v : State} (h : Transferred t b s v) (p : Phase) (i : Half) :
    Transferred t b s (State.goto p { v with idx := i }) :=
  ⟨h.latches, h.inputs, h.hostTrace, h.n, h.oks, h.trace, h.device⟩

theorem Transferred.failTransfer {b : Byte} {v : State} (h : Transferred t b s v) :
    Transferred t b s (failTransfer v) :=
  ⟨h.latches, h.inputs, h.hostTrace, h.n, h.oks, h.trace, h.device⟩

theorem Transferred.storeByte {b : Byte} {v : State} (h : Transferred t b s v) (ok : Bool) (x : Byte) :
    Transferred t b s (storeByte ok x v) :=
  ⟨h.latches, h.inputs, h.hostTrace, h.n, h.oks, h.trace, h.device⟩

/-- Where a frame stands after a data byte that was transferred (R109). -/
theorem inFrame_afterData (h : InFrame c o (t :: R) s) (hlt : s.idx.toNat < s.n.toNat)
    (hR : t :: R = (dataTransfers o c).drop s.idx.toNat) {b : Byte} {v : State} (hv : Transferred t b s v)
    (hi : v.idx = s.idx) (he : v.err = s.err) :
    t = (dataTransfers o c)[s.idx.toNat]'(by
      have hdl := dataTransfers_length h.valid
      rw [hdl, ← h.n]; exact hlt) ∧
    InFrame c o R (afterData true v) ∧ (afterData true v).idx.toNat = s.idx.toNat + 1 := by
  have hb := commandCheck_bounds h.valid
  have hdl := dataTransfers_length h.valid
  have hlt16 : s.idx.toNat < Config.pageSize := by have := h.n; rw [this] at hlt; omega
  have htn : (s.idx + 1#16).toNat = s.idx.toNat + 1 := by
    rw [BitVec.toNat_add]; simp; simp only [Config.pageSize] at *; omega
  have hlen : s.idx.toNat < (dataTransfers o c).length := by rw [hdl, ← h.n]; exact hlt
  rw [List.drop_eq_getElem_cons hlen, List.cons.injEq] at hR
  obtain ⟨ht, hR⟩ := hR
  rw [afterData_true, hi, hv.n]
  refine ⟨ht, ⟨h.valid, hv.inputs.2.trans h.resets, hv.latches.1.trans h.kind, hv.latches.2.1.trans h.addr,
    hv.latches.2.2.1.trans h.len, hv.latches.2.2.2.trans h.wbuf, h.n, he.trans h.err, ?_⟩, htn⟩
  by_cases hlast : s.idx + 1#16 = s.n
  · rw [if_pos hlast]
    refine .inr (.inr (.inr (.inr ⟨rfl, ?_⟩)))
    rw [hR, List.drop_eq_nil_iff, hdl, ← h.n, ← hlast, htn]
  · rw [if_neg hlast]
    refine .inr (.inr (.inr (.inl ⟨rfl, ?_, ?_⟩)))
    · change (s.idx + 1#16).toNat < s.n.toNat
      rw [htn]
      have : (s.idx + 1#16).toNat ≠ s.n.toNat := fun h => hlast (BitVec.eq_of_toNat_eq h)
      omega
    · change R = (dataTransfers o c).drop (s.idx + 1#16).toNat
      rw [hR, htn]

theorem nextTransfer_data_out (h : InFrame c o (t :: R) s) (hp : s.phase = .data) (hlt : s.idx.toNat < s.n.toNat)
    (hR : t :: R = (dataTransfers o c).drop s.idx.toNat) (hd : c.dir = .out) : NextTransfer c o t R s := by
  have hb := commandCheck_bounds h.valid
  have hlt16 : s.idx.toNat < Config.pageSize := by have := h.n; rw [this] at hlt; omega
  have hts : t = .send (s.wbuf[s.idx.toNat]) := by
    have hlen : s.idx.toNat < (dataTransfers o c).length := by rw [dataTransfers_length h.valid, ← h.n]; exact hlt
    rw [List.drop_eq_getElem_cons hlen, List.cons.injEq] at hR
    rw [hR.1]
    simp [dataTransfers, hd, h.wbuf]
  have hstep : phaseStep s = afterData s.nextOk (busTx s.wbuf[s.idx.toNat] s) := by
    simp only [phaseStep, hp, phaseData, command_eq, h.kind, Command.ofKind_kind]
    rw [dif_pos ⟨hlt, hlt16⟩]
    simp only [hd]
  subst hts
  have hbase := busTx_transferred s.wbuf[s.idx.toNat] 0#8 s
  refine ⟨by simp [hp], 0#8, ?_⟩
  rw [hstep]
  cases hok : s.nextOk
  · rw [afterData_false]
    exact ⟨hbase.failTransfer, by simp, fun _ => ⟨rfl, rfl, rfl⟩⟩
  · obtain ⟨-, hin, -⟩ := inFrame_afterData h hlt hR hbase rfl rfl
    rw [afterData_true] at hin ⊢
    exact ⟨hbase.goto _ _, fun _ => ⟨hin, .inl ⟨rfl, rfl, by simp [hd]⟩⟩, by simp⟩

theorem nextTransfer_data_in (h : InFrame c o (t :: R) s) (hp : s.phase = .data) (hlt : s.idx.toNat < s.n.toNat)
    (hR : t :: R = (dataTransfers o c).drop s.idx.toNat) (hd : c.dir = .inward) : NextTransfer c o t R s := by
  have hb := commandCheck_bounds h.valid
  have hlt16 : s.idx.toNat < Config.pageSize := by have := h.n; rw [this] at hlt; omega
  have hts : t = .receive := by
    have hlen : s.idx.toNat < (dataTransfers o c).length := by rw [dataTransfers_length h.valid, ← h.n]; exact hlt
    rw [List.drop_eq_getElem_cons hlen, List.cons.injEq] at hR
    rw [hR.1]
    simp [dataTransfers, hd]
  have hstep : phaseStep s = afterData s.nextOk (storeByte s.nextOk s.nextByte (busRx Config.filler s)) := by
    simp only [phaseStep, hp, phaseData, command_eq, h.kind, Command.ofKind_kind]
    rw [dif_pos ⟨hlt, hlt16⟩]
    simp only [hd]
  subst hts
  have hbase := (busRx_transferred s).storeByte s.nextOk s.nextByte
  refine ⟨by simp [hp], s.nextByte, ?_⟩
  rw [hstep]
  cases hok : s.nextOk <;> rw [hok] at hbase
  · rw [afterData_false]
    exact ⟨hbase.failTransfer, by simp, fun _ => ⟨rfl, rfl, rfl⟩⟩
  · obtain ⟨-, hin, hidx⟩ := inFrame_afterData h hlt hR hbase rfl rfl
    rw [afterData_true] at hin hidx ⊢
    exact ⟨hbase.goto _ _, fun _ => ⟨hin, .inr ⟨rfl, hlt16, rfl, hidx⟩⟩, by simp⟩

theorem nextTransfer_data (h : InFrame c o (t :: R) s) (hp : s.phase = .data) (hlt : s.idx.toNat < s.n.toNat)
    (hR : t :: R = (dataTransfers o c).drop s.idx.toNat) : NextTransfer c o t R s := by
  cases hd : c.dir with
  | out => exact nextTransfer_data_out h hp hlt hR hd
  | inward => exact nextTransfer_data_in h hp hlt hR hd
  | none =>
    exfalso
    have h0 : (c.nData o.len).toNat = 0 := by cases c <;> first | rfl | exact absurd hd (by decide)
    rw [h.n] at hlt; omega

theorem nextTransfer (h : InFrame c o (t :: R) s) : NextTransfer c o t R s := by
  rcases h.place with ⟨hp, hi, hR⟩ | ⟨hp, hi, hadr, hR⟩ | ⟨hp, hi, hadr, hR⟩ | ⟨hp, hlt, hR⟩ | ⟨_, hR⟩
  · exact nextTransfer_opc h hp hi hR
  · exact nextTransfer_alo h hp hi hadr hR
  · exact nextTransfer_ahi h hp hi hadr hR
  · exact nextTransfer_data h hp hlt hR
  · exact absurd hR (by simp)

/-- The bytes a list of events clocks out. -/
def bytesOut (l : List Event) : List Byte := l.flatMap Event.byteOut

/-- How a command ends that is in its frame with the transfers `R` still to come, for the answers of an oracle whose ok
flags are those of the script (R106 to R112, R114, R173). -/
structure FrameEnds (c : Command) (R : List Transfer) (oracle : Nat → Byte × Bool) (s t : State) : Prop where
  phase : t.phase = .idle
  csN : t.csN = true
  latches : LatchesKept s t
  inputs : InputsKept s t
  n : t.n = s.n
  err : t.err = (runTransfers oracle R).failed
  status : t.status = if (runTransfers oracle R).failed then statusBusError else statusOk
  rlen : t.rlen = if (runTransfers oracle R).failed then 0#16 else resultLength c s.n
  hostTrace : t.hostTrace = s.hostTrace ++ [HostEvent.complete t.status]
  trace : t.trace = s.trace ++ ((runTransfers oracle R).events ++ [Event.desel, Event.delay Config.tSettleMs])
  oks : t.oks = s.oks.drop (runTransfers oracle R).events.length
  /-- Bytes received go to RBUF from IDX on; the bytes before stay. -/
  rbuf : c.dir = .inward → ∀ k, k < Config.pageSize →
    (k < s.idx.toNat → t.rbuf[k]? = s.rbuf[k]?) ∧
    (∀ j, k = s.idx.toNat + j → j < (runTransfers oracle R).received.length →
      t.rbuf[k]? = (runTransfers oracle R).received[j]?)
  rbufKept : c.dir ≠ .inward → t.rbuf = s.rbuf
  /-- The device took the bytes clocked out, the last one perhaps not if it failed, and then the deselect edge and the
  settle delay. -/
  device : ∀ f, s.dev.frame = some f → ∃ g draw,
    t.dev = ((({ s.dev with frame := some g } : Device).deselect draw).elapse Config.tSettleMs) ∧
    g.inCycle = f.inCycle ∧ g.cut = f.cut ∧ g.failed = (f.failed || (runTransfers oracle R).failed) ∧
    (g.bytes = f.bytes ++ bytesOut (runTransfers oracle R).events ∨
      ((runTransfers oracle R).failed = true ∧
        g.bytes = f.bytes ++ bytesOut (runTransfers oracle R).events.dropLast))

theorem received_nil_of_not_inward (hd : c.dir ≠ .inward)
    (ht : t ∈ frameTransfers o c) (b : Byte) : t.received b = [] := by
  cases t with
  | send x => rfl
  | receive =>
    exfalso
    cases hc : c.dir with
    | inward => exact hd hc
    | out =>
      simp only [frameTransfers, hc, List.mem_append] at ht
      rcases ht with ht | ht
      · simp [Command.header] at ht
      · simp only [List.mem_map] at ht
        obtain ⟨x, _, hx⟩ := ht
        cases hx
    | none => simp [frameTransfers, hc] at ht

theorem dropLast_cons_of_ne_nil {α : Type} (x : α) {l : List α} (h : l ≠ []) : (x :: l).dropLast = x :: l.dropLast := by
  cases l with
  | nil => exact absurd rfl h
  | cons y l => rfl

theorem runTransfers_events_ne_nil (oracle : Nat → Byte × Bool) (t : Transfer) (R : List Transfer) :
    (runTransfers oracle (t :: R)).events ≠ [] := by
  unfold runTransfers; simp only; split <;> simp

theorem runTransfers_failed_events {oracle : Nat → Byte × Bool} {R : List Transfer}
    (h : (runTransfers oracle R).failed = true) : (runTransfers oracle R).events ≠ [] := by
  cases R with
  | nil => simp [runTransfers] at h
  | cons t R => exact runTransfers_events_ne_nil _ _ _

/-- The end of a frame in DESEL, as the ending of no transfers (R110 to R112). -/
theorem runPhases_desel_fields (k : Nat) (hp : s.phase = .desel) (hr : s.resets = []) (hk : s.kind = c.kind) :
    ∃ u, runPhases (k + 3) s = u ∧ u.phase = .idle ∧ u.csN = true ∧ LatchesKept s u ∧ InputsKept s u ∧ u.n = s.n ∧
      u.err = s.err ∧ u.status = (if s.err then statusBusError else statusOk) ∧
      u.rlen = (if s.err then 0#16 else resultLength c s.n) ∧
      u.hostTrace = s.hostTrace ++ [HostEvent.complete u.status] ∧
      u.trace = s.trace ++ [Event.desel, Event.delay Config.tSettleMs] ∧ u.oks = s.oks ∧ u.rbuf = s.rbuf ∧
      u.dev = (s.dev.deselect s.draws).elapse Config.tSettleMs :=
  ⟨_, runPhases_desel (c := c) k hp hr hk, rfl, rfl, ⟨rfl, rfl, rfl, rfl⟩, ⟨rfl, rfl⟩, rfl, rfl, rfl, rfl, rfl, rfl,
    rfl, rfl, rfl⟩

/-- A command in its frame, whatever the bus reports (R106 to R112, R114, R173). -/
theorem runPhases_inFrame : ∀ (R : List Transfer) (s : State) (k : Nat), InFrame c o R s →
    ∃ oracle : Nat → Byte × Bool, (∀ j (h : j < s.oks.length), (oracle j).2 = s.oks[j]) ∧
      FrameEnds c R oracle s (runPhases (k + 3 + R.length) s) := by
  intro R
  induction R with
  | nil =>
    intro s k h
    have hp : s.phase = .desel := by
      have hdl := dataTransfers_length h.valid
      rcases h.place with ⟨_, _, hR⟩ | ⟨_, _, _, hR⟩ | ⟨_, _, _, hR⟩ | ⟨_, hlt, hR⟩ | ⟨hp, _⟩
      · exact absurd hR (by simp [frameTransfers, Command.header])
      · exact absurd hR (by simp)
      · exact absurd hR (by simp)
      · have := congrArg List.length hR
        rw [List.length_drop, hdl, ← h.n] at this
        simp only [List.length_nil] at this; omega
      · exact hp
    refine ⟨fun j => (0#8, s.oks.getD j true), fun j hj => by simp [hj], ?_⟩
    obtain ⟨u, hu, h1, h2, h3, h4, h5, h6, h7, h8, h9, h10, h11, h12, h13⟩ :=
      runPhases_desel_fields (c := c) k hp h.resets h.kind
    simp only [List.length_nil, Nat.add_zero]
    rw [hu]
    rw [h.err] at h6 h7 h8
    refine ⟨h1, h2, h3, h4, h5, h6, h7, h8, h9, h10, h11, ?_, fun _ => h12, ?_⟩
    · intro _ k _
      exact ⟨fun _ => by rw [h12], fun j _ hj => by simp [runTransfers] at hj⟩
    · intro f hf
      exact ⟨f, s.draws, by rw [h13, ← hf], rfl, rfl, by simp [runTransfers],
        .inl (by simp [runTransfers, bytesOut])⟩
  | cons t R ih =>
    intro s k h
    obtain ⟨hidle, b, htr, hok, hfail⟩ := nextTransfer h
    rw [List.length_cons, show k + 3 + (R.length + 1) = (k + 3 + R.length) + 1 by omega,
      runPhases_succ _ hidle h.resets]
    have hhead : ∀ hj : 0 < s.oks.length, s.nextOk = s.oks[0] := by
      intro hj
      obtain ⟨x, l, ho⟩ := List.exists_cons_of_length_pos hj
      simp only [State.nextOk, ho, List.getElem_cons_zero]
    obtain ⟨x, draw, hx, hdev⟩ := htr.device
    cases hb : s.nextOk
    · -- the transfer failed
      obtain ⟨hp, herr, hrbuf⟩ := hfail hb
      have hkind : (phaseStep s).kind = c.kind := by rw [htr.latches.1, h.kind]
      obtain ⟨u, hu, h1, h2, h3, h4, h5, h6, h7, h8, h9, h10, h11, h12, h13⟩ :=
        runPhases_desel_fields (c := c) (k + R.length) hp (by rw [htr.inputs.2, h.resets]) hkind
      rw [show k + R.length + 3 = k + 3 + R.length by omega] at hu
      rw [hu]
      refine ⟨fun j => (b, if j = 0 then false else s.oks.getD j true), ?_, ?_⟩
      · intro j hj
        cases j with
        | zero => simp only [if_true]; rw [← hb]; exact hhead hj
        | succ j => simp [hj]
      · have hrun : runTransfers (fun j => (b, if j = 0 then false else s.oks.getD j true)) (t :: R) =
            { events := [t.event b false], failed := true, received := [] } := by simp [runTransfers]
        rw [herr] at h6 h7 h8
        refine ⟨h1, h2, ?_, ?_, ?_, ?_, ?_, ?_, ?_, ?_, ?_, ?_, ?_, ?_⟩
        · exact ⟨h3.1.trans htr.latches.1, h3.2.1.trans htr.latches.2.1, h3.2.2.1.trans htr.latches.2.2.1,
            h3.2.2.2.trans htr.latches.2.2.2⟩
        · exact ⟨h4.1.trans htr.inputs.1, h4.2.trans htr.inputs.2⟩
        · rw [h5, htr.n]
        · rw [hrun, h6]
        · rw [hrun, h7]
        · rw [hrun, h8]; rfl
        · rw [h9, htr.hostTrace]
        · rw [hrun, h10, htr.trace, hb]; simp
        · rw [hrun, h11, htr.oks]; simp
        · intro _ j _
          exact ⟨fun _ => by rw [h12, hrbuf], fun i _ hi => by rw [hrun] at hi; simp at hi⟩
        · intro _; rw [h12, hrbuf]
        · intro f hf
          rw [hrun]
          refine ⟨f.take draw x false, (phaseStep s).draws, ?_, rfl, ?_, ?_, ?_⟩
          · rw [h13, hdev, hb]; simp [Device.take, hf]
          · simp [DeviceFrame.take]
          · simp [DeviceFrame.take]
          · rw [hb] at hx
            by_cases hreach : Config.drawReached draw = true
            · left; simp [DeviceFrame.take, hreach, bytesOut, hx]
            · right; simp [DeviceFrame.take, hreach, bytesOut]
    · -- the transfer succeeded
      obtain ⟨hin, hcase⟩ := hok hb
      obtain ⟨oracle, horacle, he⟩ := ih (phaseStep s) k hin
      refine ⟨fun j => match j with | 0 => (b, true) | j + 1 => oracle j, ?_, ?_⟩
      · intro j hj
        cases j with
        | zero => simp only; rw [← hb]; exact hhead hj
        | succ j =>
          simp only
          have hl : j < (phaseStep s).oks.length := by rw [htr.oks, List.length_tail]; omega
          rw [horacle j hl]
          simp only [htr.oks, List.getElem_tail]
      · have hrun : runTransfers (fun j => match j with | 0 => (b, true) | j + 1 => oracle j) (t :: R) =
            { events := t.event b true :: (runTransfers oracle R).events
              failed := (runTransfers oracle R).failed
              received := t.received b ++ (runTransfers oracle R).received } := by
          simp [runTransfers]
        obtain ⟨h1, h2, h3, h4, h5, h6, h7, h8, h9, h10, h11, h12, h13, h14⟩ := he
        refine ⟨h1, h2, ?_, ?_, ?_, ?_, ?_, ?_, ?_, ?_, ?_, ?_, ?_, ?_⟩
        · exact ⟨h3.1.trans htr.latches.1, h3.2.1.trans htr.latches.2.1, h3.2.2.1.trans htr.latches.2.2.1,
            h3.2.2.2.trans htr.latches.2.2.2⟩
        · exact ⟨h4.1.trans htr.inputs.1, h4.2.trans htr.inputs.2⟩
        · rw [h5, htr.n]
        · rw [hrun, h6]
        · rw [hrun, h7]
        · rw [hrun, h8, htr.n]
        · rw [h9, htr.hostTrace]
        · rw [hrun, h10, htr.trace, hb]; simp
        · rw [hrun, h11, htr.oks]; simp
        · intro hd j hj
          rw [hrun]
          obtain ⟨hlow, hhigh⟩ := h12 hd j hj
          rcases hcase with ⟨hrec, hrb, hidx⟩ | ⟨hrec, hlt, hrb, hidx⟩
          · rw [hrec, List.nil_append]
            rw [hidx hd, hrb] at hlow
            rw [hidx hd] at hhigh
            exact ⟨hlow, hhigh⟩
          · rw [hrec]
            constructor
            · intro hjl
              rw [hlow (by rw [hidx]; omega), hrb]
              rw [Vector.getElem?_setIfInBounds_ne (by omega)]
            · intro i hji hi
              cases i with
              | zero =>
                rw [Nat.add_zero] at hji
                rw [hlow (by rw [hidx]; omega), hrb, hji]
                simp [hlt]
              | succ i =>
                simp only [List.length_append, List.length_cons, List.length_nil] at hi
                rw [hhigh i (by rw [hidx]; omega) (by omega)]
                simp
        · intro hd
          rw [h13 hd]
          rcases hcase with ⟨_, hrb, _⟩ | ⟨hrec, _, _, _⟩
          · exact hrb
          · exfalso
            have hmem : t ∈ frameTransfers o c := by
              have hsub : ∀ x ∈ (t :: R), x ∈ frameTransfers o c := by
                intro x hx
                rw [frameTransfers_eq]
                rcases h.place with ⟨_, _, hR⟩ | ⟨_, _, hadr, hR⟩ | ⟨_, _, hadr, hR⟩ | ⟨_, _, hR⟩ | ⟨_, hR⟩
                · rw [hR, frameTransfers_eq] at hx; exact hx
                · rw [hR] at hx
                  simp only [List.mem_cons] at hx
                  rcases hx with rfl | rfl | hx
                  · exact List.mem_append_left _ (by simp [Command.header, hadr])
                  · exact List.mem_append_left _ (by simp [Command.header, hadr])
                  · exact List.mem_append_right _ hx
                · rw [hR] at hx
                  simp only [List.mem_cons] at hx
                  rcases hx with rfl | hx
                  · exact List.mem_append_left _ (by simp [Command.header, hadr])
                  · exact List.mem_append_right _ hx
                · rw [hR] at hx
                  exact List.mem_append_right _ (List.mem_of_mem_drop hx)
                · exact absurd hR (by simp)
              exact hsub t (by simp)
            have := received_nil_of_not_inward hd hmem b
            rw [this] at hrec; simp at hrec
        · intro f hf
          rw [hrun]
          have hf' : (phaseStep s).dev.frame = some (f.take draw x true) := by
            rw [hdev, hb]; simp [Device.take, hf]
          obtain ⟨g, dr, hg, hgc, hgcut, hgfail, hgb⟩ := h14 _ hf'
          rw [hb] at hx
          refine ⟨g, dr, ?_, hgc, hgcut, hgfail, ?_⟩
          · rw [hg, hdev]; rfl
          · rcases hgb with hgb | ⟨hfl, hgb⟩
            · left; rw [hgb]; simp [DeviceFrame.take, bytesOut, hx]
            · right
              refine ⟨hfl, ?_⟩
              rw [hgb, dropLast_cons_of_ne_nil _ (runTransfers_failed_events hfl)]
              simp [DeviceFrame.take, bytesOut, hx]

/-- The state in which the frame of a command has just begun: CHECK and SEL are past (R104, R105). -/
def openedFrame (c : Command) (o : Operands) (s : State) : State :=
  { s with
    phase := .opc, csN := false
    kind := c.kind, addr := o.addr, len := o.len, wbuf := o.wdata
    n := c.nData o.len, idx := 0#16, err := false
    dev := s.dev.select
    trace := s.trace ++ [Event.sel]
    hostTrace := s.hostTrace ++ [HostEvent.issue { kind := c.kind, operands := o }] }

theorem openedFrame_inFrame (hr : s.resets = []) (hv : commandCheck Config.pageSize o.addr o.len c = true) :
    InFrame c o (frameTransfers o c) (openedFrame c o s) :=
  ⟨hv, hr, rfl, rfl, rfl, rfl, rfl, rfl, .inl ⟨rfl, rfl, rfl⟩⟩

theorem frameTransfers_length (hv : commandCheck Config.pageSize o.addr o.len c = true) :
    (frameTransfers o c).length ≤ 3 + Config.pageSize := by
  have hb := (commandCheck_bounds hv).1
  have hh : (c.header o.addr).length ≤ 3 := by simp only [Command.header]; split <;> simp
  rw [frameTransfers_eq, List.length_append, List.length_map, dataTransfers_length hv]
  omega

/-- A valid command, whatever the bus reports (R114): what `FrameEnds` says of its whole frame. -/
theorem runCommand_any (h : s.Ready) (hv : commandCheck Config.pageSize o.addr o.len c = true) :
    ∃ oracle : Nat → Byte × Bool, (∀ j (hj : j < s.oks.length), (oracle j).2 = s.oks[j]) ∧
      ∃ t, runCommand { kind := c.kind, operands := o } s = .next t ∧
        FrameEnds c (frameTransfers o c) oracle (openedFrame c o s) t := by
  have hlen := frameTransfers_length hv
  obtain ⟨k, hk⟩ : ∃ k, longestCommand = (k + 3 + (frameTransfers o c).length) + 1 + 1 :=
    ⟨longestCommand - 5 - (frameTransfers o c).length, by
      simp only [longestCommand, Config.pageSize] at *; omega⟩
  obtain ⟨oracle, ho, he⟩ := runPhases_inFrame _ _ k (openedFrame_inFrame (s := s) h.2 hv)
  refine ⟨oracle, ho, _, ?_, he⟩
  rw [runCommand_ready _ h, hk, runPhases_succ _ (by simp) (by simpa using h.2),
    phaseStep_check_valid (c := c) rfl rfl (by simpa using hv),
    runPhases_succ _ (by simp) (by simpa using h.2), phaseStep_sel rfl]
  simp [openedFrame, issue, State.goto, State.record]

end Sys2Proof.Machine
end

