-- ==== Sys2Proof/Laws/Port.lean ====
section
/-! SUPPORT. The command port and the reset input, each said once: which action is accepted, what the choice leaves
unchanged, and what a reset leaves. -/

namespace Sys2Proof.Machine

variable {s t : State}

theorem mem_waiting {from_ r : Nat} {a : HostAction} {rs : List (List HostAction)} (h : (r, a) ∈ waiting from_ rs) :
    from_ ≤ r ∧ ∃ rest, rs[r - from_]? = some (a :: rest) := by
  induction rs generalizing from_ with
  | nil => simp [waiting] at h
  | cons l rs ih =>
    have later : (r, a) ∈ waiting (from_ + 1) rs → from_ ≤ r ∧ ∃ rest, (l :: rs)[r - from_]? = some (a :: rest) := by
      intro h
      obtain ⟨hle, rest, hr⟩ := ih h
      refine ⟨by omega, rest, ?_⟩
      rw [show r - from_ = (r - (from_ + 1)) + 1 by omega, List.getElem?_cons_succ, hr]
    cases l with
    | nil => exact later h
    | cons b l =>
      simp only [waiting, List.mem_cons, Prod.mk.injEq] at h
      rcases h with ⟨rfl, rfl⟩ | h
      · exact ⟨Nat.le_refl _, l, by simp⟩
      · exact later h

theorem waiting_eq_nil {from_ : Nat} {rs : List (List HostAction)} (h : waiting from_ rs = []) : ∀ l ∈ rs, l = [] := by
  induction rs generalizing from_ with
  | nil => simp
  | cons l rs ih =>
    cases l with
    | nil => simpa using ih h
    | cons a l => simp [waiting] at h

theorem popRequester_eq {r : Nat} {a : HostAction} {rest : List HostAction} {rs : List (List HostAction)}
    (h : rs[r]? = some (a :: rest)) : popRequester r rs = rs.set r rest := by
  obtain ⟨hr, hv⟩ := List.getElem?_eq_some_iff.mp h
  rw [popRequester, List.modify_eq_set_getElem?, h]
  rfl

/-- The accepted action is the next one of some requester; only that requester's list and the count of draws change
(R188). -/
theorem arbitrate_spec {a : HostAction} (h : arbitrate s = some (a, t)) :
    ∃ r rest n, s.requesters[r]? = some (a :: rest) ∧
      t = { s with requesters := s.requesters.set r rest, draws := n } := by
  have done : ∀ {r : Nat} {b : HostAction}, (r, b) ∈ waiting 0 s.requesters →
      ∃ rest, s.requesters[r]? = some (b :: rest) ∧ popRequester r s.requesters = s.requesters.set r rest := by
    intro r b hm
    obtain ⟨-, rest, hr⟩ := mem_waiting hm
    rw [Nat.sub_zero] at hr
    exact ⟨rest, hr, popRequester_eq hr⟩
  unfold arbitrate at h
  split at h
  · cases h
  · rename_i r b hw
    obtain ⟨rest, hr, hp⟩ := done (by rw [hw]; exact List.mem_singleton.mpr rfl)
    simp only [Option.some.injEq, Prod.mk.injEq] at h
    obtain ⟨rfl, rfl⟩ := h
    exact ⟨r, rest, s.draws, hr, by rw [hp]⟩
  · rename_i x y more hw
    simp only at h
    split at h
    · cases h
    · rename_i q b hq
      obtain ⟨rest, hr, hp⟩ := done (by rw [hw]; exact List.mem_of_getElem? hq)
      simp only [Option.some.injEq, Prod.mk.injEq] at h
      obtain ⟨rfl, rfl⟩ := h
      exact ⟨q, rest, s.draws + 1, hr, by rw [hp]⟩

/-- With nobody waiting nothing is accepted (R103). -/
theorem arbitrate_none (h : ∀ l ∈ s.requesters, l = []) : arbitrate s = none := by
  cases hw : waiting 0 s.requesters with
  | nil => simp [arbitrate, hw]
  | cons x more =>
    obtain ⟨-, rest, hr⟩ := mem_waiting (r := x.1) (a := x.2) (by rw [hw]; simp)
    exact absurd (h _ (List.mem_of_getElem? hr)) (by simp)

/-- What a reset leaves (R200 to R202). -/
theorem applyReset_spec (s : State) :
    (applyReset s).phase = .idle ∧ (applyReset s).csN = true ∧ (applyReset s).status = statusOk ∧
      (applyReset s).rlen = 0#16 ∧ (applyReset s).hostTrace = s.hostTrace ∧
      (applyReset s).requesters = s.requesters ∧ (applyReset s).oks = s.oks ∧ (applyReset s).resets = s.resets ∧
      (applyReset s).trace = s.trace ++ (if s.csN then [] else [Event.desel]) ∧
      (applyReset s).dev = if s.csN then s.dev else s.dev.cutFrame.deselect s.draws := by
  cases h : s.csN <;> simp [applyReset, h, State.resetRegisters, csDeassert, State.emit]

end Sys2Proof.Machine
end

