-- ==== Sys2Proof/Laws/Invariant.lean ====
section
/-! SUPPORT. What a phase and a reset do to the invariant of the machine (R21 to R32, R41, R55, R63). -/

namespace Sys2Proof.Machine

variable {s t u : State}

/-- A transfer that leaves the machine selected keeps the invariant, whatever the bus reports. -/
theorem transfer_inv (h : s.Inv) (hs : s.phase.selected = true) (hl : LatchesKept s u) (hn : u.n = s.n)
    (hc : u.csN = s.csN) (hst : u.status = s.status) (hrl : u.rlen = s.rlen)
    (hd : ∃ f, u.dev = { s.dev with frame := f } ∧ f.isSome = s.dev.frame.isSome)
    (hsel : u.phase.selected = true)
    (ha : u.phase = .alo ∨ u.phase = .ahi → ∃ c, s.command = some c ∧ c.hasAddr = true)
    (ho : u.phase = .opc ∨ u.phase = .alo ∨ u.phase = .ahi → u.idx = 0#16)
    (hcount : u.phase = .data → u.idx.toNat < s.n.toNat) : u.Inv := by
  obtain ⟨f, hdev, hf⟩ := hd
  have hchk : s.phase.checked = true := by revert hs; cases s.phase <;> simp [Phase.selected, Phase.checked]
  obtain ⟨c, hc1, hc2, hc3⟩ := h.latched hchk
  have hcs := h.select
  have hfr := h.frame
  rw [hs] at hcs hfr
  refine ⟨?_, ?_, ?_, ?_, ?_, ?_, ho, ?_, ?_, ?_, ?_⟩
  · rw [hc, hcs, hsel]
  · rw [hdev, hsel]; simp [hf, hfr]
  · rw [hst]; exact h.status
  · rw [hrl]; exact h.result
  · intro _; refine ⟨c, ?_, ?_, ?_⟩
    · simpa [hl.1] using hc1
    · rw [hl.1, hl.2.1, hl.2.2.1]; exact hc2
    · rw [hn, hl.2.2.1]; exact hc3
  · intro hp; obtain ⟨c, h1, h2⟩ := ha hp; exact ⟨c, by simpa [hl.1] using h1, h2⟩
  · intro hp; rw [hn]; exact hcount hp
  · rw [hdev]; exact h.canonical
  · rw [hdev]; exact h.inArray
  · rw [hdev]; exact h.cycle

/-- A machine that is back in IDLE with its device whole meets the invariant. -/
theorem idle_inv (hp : u.phase = .idle) (hc : u.csN = true) (hst : u.status ≠ 3#2)
    (hrl : u.rlen.toNat ≤ Config.pageSize) (hf : u.dev.frame = none) (h1 : u.dev.mem.wf)
    (h2 : ∀ x ∈ u.dev.mem, x.1 < Config.memSize) (h3 : u.dev.cycleLeft ≤ Config.tWcMs) : u.Inv := by
  refine ⟨by simp [hp, hc, Phase.selected], by simp [hp, hf, Phase.selected], hst, hrl, ?_, ?_, ?_, ?_, h1, h2, h3⟩ <;>
    simp [hp, Phase.checked]

/-- A deselect edge keeps the array's canonical form, its bound and the cycle's bound. -/
theorem Device.deselect_keeps (d : Device) (draw : Nat) (h1 : d.mem.wf) (h2 : ∀ x ∈ d.mem, x.1 < Config.memSize)
    (h3 : d.cycleLeft ≤ Config.tWcMs) :
    (d.deselect draw).mem.wf ∧ (∀ x ∈ (d.deselect draw).mem, x.1 < Config.memSize) ∧
      (d.deselect draw).cycleLeft ≤ Config.tWcMs := by
  unfold Device.deselect
  split
  · exact ⟨h1, h2, h3⟩
  · next f _ =>
    exact ⟨(Device.endFrame_mem draw f h1 h2).1, (Device.endFrame_mem draw f h1 h2).2, Device.endFrame_cycle draw f h3⟩

/-- A phase of a machine that meets the invariant has an enabled step (R103 to R112). -/
theorem stuck_none (h : s.Inv) : s.stuck = none := by
  unfold State.stuck
  have hl := h.latched
  have hcnt := h.counting
  cases hp : s.phase <;> rw [hp] at hl hcnt <;>
    simp only [Phase.checked, false_implies, reduceCtorEq, forall_const] at hl hcnt ⊢
  · obtain ⟨c, h1, -⟩ := hl
    simp only [h1, reduceCtorEq, if_false]
  · obtain ⟨c, h1, h2, h3⟩ := hl
    have hb : s.n.toNat ≤ Config.pageSize := by
      rw [h3]
      have : c.kind = s.kind := Command.kind_of_ofKind h1
      rw [← this, valid_kind] at h2
      exact (commandCheck_bounds h2).1
    simp only [h1, reduceCtorEq, if_false]
    rw [if_pos ⟨hcnt, by omega⟩]
  · obtain ⟨c, h1, -⟩ := hl
    simp only [h1, reduceCtorEq, if_false]

/-- A header byte, sent or failed (R106 to R108). -/
theorem after_inv (h : s.Inv) (hs : s.phase.selected = true) (v : State) (ok : Bool) (next : Phase)
    (hl : LatchesKept s v) (hn : v.n = s.n)
    (hc : v.csN = s.csN) (hst : v.status = s.status) (hrl : v.rlen = s.rlen)
    (hd : ∃ f, v.dev = { s.dev with frame := f } ∧ f.isSome = s.dev.frame.isSome)
    (hsel : next.selected = true) (hidx : v.idx = s.idx)
    (ha : next = .alo ∨ next = .ahi → ∃ c, s.command = some c ∧ c.hasAddr = true)
    (ho : next = .opc ∨ next = .alo ∨ next = .ahi → s.idx = 0#16)
    (hcount : next = .data → s.idx.toNat < s.n.toNat) : (afterTransfer ok next v).Inv := by
  rcases afterTransfer_cases ok next v with ⟨-, he⟩ | ⟨-, he⟩ <;> rw [he]
  · exact transfer_inv h hs hl hn hc hst hrl hd hsel ha (fun hh => by simpa [hidx] using ho hh)
      (fun hh => by simpa [hidx] using hcount hh)
  · refine transfer_inv h hs hl hn hc hst hrl hd rfl ?_ ?_ ?_ <;> simp [failTransfer, State.goto]

/-- Every phase keeps the invariant (R103 to R112). -/
theorem phaseStep_inv (h : s.Inv) : (phaseStep s).Inv := by
  have hl := h.latched
  cases hp : s.phase
  · simpa [phaseStep, hp] using h
  · -- check
    have hfr := h.frame
    have hcs := h.select
    rw [hp] at hfr hcs
    simp only [Phase.selected, Bool.not_false, Option.isSome_eq_false_iff, Option.isNone_iff_eq_none] at hfr hcs
    cases hv : valid s.kind s.addr s.len
    · rw [phaseStep_check_invalid hp hv]
      exact idle_inv rfl hcs (by change statusInvalidArgument ≠ 3#2; decide) (Nat.zero_le _) hfr h.canonical h.inArray
        h.cycle
    · have : ∃ c, Command.ofKind s.kind = some c := by
        unfold valid at hv; split at hv
        · cases hv
        · exact ⟨_, by assumption⟩
      obtain ⟨c, hc⟩ := this
      have hk := (Command.kind_of_ofKind hc).symm
      rw [phaseStep_check_valid hp hk hv]
      exact ⟨by simp [hcs, Phase.selected], by simp [hfr, Phase.selected], h.status, h.result,
        fun _ => ⟨c, hc, hv, rfl⟩, by simp, by simp, by simp, h.canonical, h.inArray, h.cycle⟩
  · -- sel
    rw [phaseStep_sel hp]
    exact ⟨by simp [Phase.selected], by simp [Phase.selected, Device.select], h.status, h.result,
      fun _ => hl (by simp [hp, Phase.checked]), by simp, by simp, by simp, h.canonical, h.inArray, h.cycle⟩
  · -- opc
    obtain ⟨c, h1, h2, h3⟩ := hl (by simp [hp, Phase.checked])
    have : phaseStep s = afterTransfer s.nextOk (afterOpcode c s.n) (busTx c.opcode s) := by
      simp only [phaseStep, hp, phaseOpc, h1]
    rw [this]
    have hi := h.opening (.inl hp)
    refine after_inv h (by simp [hp, Phase.selected]) _ _ _ ⟨rfl, rfl, rfl, rfl⟩ rfl rfl rfl rfl
      (busTx_dev_cases _ _) ?_ rfl ?_ ?_ ?_
    · unfold afterOpcode; repeat' split
      all_goals rfl
    · intro hh; refine ⟨c, h1, ?_⟩; unfold afterOpcode at hh; revert hh; repeat' split
      all_goals simp_all
    · intro _; exact hi
    · intro hh; unfold afterOpcode at hh; revert hh; repeat' split
      all_goals simp_all
  · -- alo
    have hi := h.opening (.inr (.inl hp))
    have : phaseStep s = afterTransfer s.nextOk .ahi (busTx (lowByte s.addr) s) := by simp only [phaseStep, hp, phaseAlo]
    rw [this]
    exact after_inv h (by simp [hp, Phase.selected]) _ _ _ ⟨rfl, rfl, rfl, rfl⟩ rfl rfl rfl rfl
      (busTx_dev_cases _ _) rfl rfl (fun _ => h.address (.inl hp)) (fun _ => hi) (by simp)
  · -- ahi
    have hi := h.opening (.inr (.inr hp))
    obtain ⟨c, h1, h2, h3⟩ := hl (by simp [hp, Phase.checked])
    obtain ⟨c', h1', ha⟩ := h.address (.inr hp)
    rw [h1] at h1'; cases h1'
    have : phaseStep s = afterTransfer s.nextOk .data (busTx (highByte s.addr) s) := by simp only [phaseStep, hp, phaseAhi]
    rw [this]
    refine after_inv h (by simp [hp, Phase.selected]) _ _ _ ⟨rfl, rfl, rfl, rfl⟩ rfl rfl rfl rfl
      (busTx_dev_cases _ _) rfl rfl (by simp) (by simp) ?_
    intro _
    have : c.kind = s.kind := Command.kind_of_ofKind h1
    rw [← this, valid_kind] at h2
    rw [hi, h3]; simpa using (commandCheck_bounds h2).2 ha
  · -- data
    obtain ⟨c, h1, h2, h3⟩ := hl (by simp [hp, Phase.checked])
    have hcnt := h.counting hp
    have hb : s.n.toNat ≤ Config.pageSize := by
      rw [h3]
      have : c.kind = s.kind := Command.kind_of_ofKind h1
      rw [← this, valid_kind] at h2
      exact (commandCheck_bounds h2).1
    have hlt : s.idx.toNat < Config.pageSize := by omega
    have key : ∀ v : State, LatchesKept s v → v.n = s.n → v.csN = s.csN → v.status = s.status →
        v.rlen = s.rlen → v.idx = s.idx →
        (∃ f, v.dev = { s.dev with frame := f } ∧ f.isSome = s.dev.frame.isSome) → (afterData s.nextOk v).Inv := by
      intro v a1 a2 a3 a4 a5 a6 a7
      unfold afterData
      split
      · refine transfer_inv h (by simp [hp, Phase.selected]) a1 a2 a3 a4 a5 a7 ?_ ?_ ?_ ?_
        · simp only [State.goto]; split <;> rfl
        · simp only [State.goto]; split <;> simp
        · simp only [State.goto]; split <;> simp
        · simp only [State.goto]; split
          · simp
          · next hne =>
            intro _
            rw [a6, a2] at hne
            rw [a6]
            have e : (s.idx + 1#16).toNat = s.idx.toNat + 1 := by
              rw [BitVec.toNat_add]; simp; simp only [Config.pageSize] at *; omega
            rw [e]
            have : (s.idx + 1#16).toNat ≠ s.n.toNat := fun hh => hne (BitVec.eq_of_toNat_eq hh)
            omega
      · refine transfer_inv h (by simp [hp, Phase.selected]) a1 a2 a3 a4 a5 a7 rfl ?_ ?_ ?_ <;>
          simp [failTransfer, State.goto]
    simp only [phaseStep, hp, phaseData, h1]
    rw [dif_pos ⟨hcnt, hlt⟩]
    split
    · exact key _ ⟨rfl, rfl, rfl, rfl⟩ rfl rfl rfl rfl rfl (busTx_dev_cases _ _)
    · exact key _ ⟨rfl, rfl, rfl, rfl⟩ rfl rfl rfl rfl rfl (busRx_dev_cases _ _)
  · -- desel
    obtain ⟨c, h1, h2, h3⟩ := hl (by simp [hp, Phase.checked])
    rw [phaseStep_desel hp]
    obtain ⟨d1, d2, d3⟩ := Device.deselect_keeps s.dev s.draws h.canonical h.inArray h.cycle
    exact ⟨by simp [Phase.selected], by simp [Phase.selected], h.status, h.result, fun _ => ⟨c, h1, h2, h3⟩, by simp,
      by simp, by simp, d1, d2, d3⟩
  · -- settle
    obtain ⟨c, h1, h2, h3⟩ := hl (by simp [hp, Phase.checked])
    have hfr := h.frame
    have hcs := h.select
    rw [hp] at hfr hcs
    rw [phaseStep_settle hp]
    obtain ⟨w, l, he, hle⟩ := Device.elapse_cases s.dev Config.tSettleMs
    refine ⟨by simpa [Phase.selected] using hcs, by simpa [Phase.selected, he] using hfr, h.status, h.result,
      fun _ => ⟨c, h1, h2, h3⟩, by simp, by simp, by simp, ?_, ?_, ?_⟩
    · simp only [he]; exact h.canonical
    · simp only [he]; exact h.inArray
    · simp only [he]; have := h.cycle; omega
  · -- done
    obtain ⟨c, h1, h2, h3⟩ := hl (by simp [hp, Phase.checked])
    have hfr := h.frame
    have hcs := h.select
    rw [hp] at hfr hcs
    simp only [Phase.selected, Bool.not_false, Option.isSome_eq_false_iff, Option.isNone_iff_eq_none] at hfr hcs
    have hk := (Command.kind_of_ofKind h1).symm
    cases he : s.err
    · rw [phaseStep_done_ok hp hk he]
      have hb : s.n.toNat ≤ Config.pageSize := by
        rw [h3]
        rw [hk, valid_kind] at h2
        exact (commandCheck_bounds h2).1
      refine idle_inv rfl hcs (by change statusOk ≠ 3#2; decide) ?_ hfr h.canonical h.inArray h.cycle
      simp only [State.complete, State.goto, State.record]
      cases hd : c.dir <;> simp [resultLength, hd]
      exact hb
    · rw [phaseStep_done_err hp hk he]
      exact idle_inv rfl hcs (by change statusBusError ≠ 3#2; decide) (Nat.zero_le _) hfr h.canonical h.inArray h.cycle

/-- The reset input keeps the invariant (R41, R200 to R202). -/
theorem applyReset_inv (h : s.Inv) : (applyReset s).Inv := by
  obtain ⟨a1, a2, a3, a4, -, -, -, -, -, a10⟩ := applyReset_spec s
  have hfr := h.frame
  have hcs := h.select
  obtain ⟨b1, b2, b3⟩ := Device.deselect_keeps s.dev.cutFrame s.draws h.canonical h.inArray h.cycle
  cases hc : s.csN <;> rw [hc] at a10 hcs
  · simp only [Bool.false_eq_true, if_false] at a10
    exact idle_inv a1 a2 (by rw [a3]; decide) (by simp [a4]) (by simp [a10]) (by rw [a10]; exact b1)
      (by rw [a10]; exact b2) (by rw [a10]; exact b3)
  · simp only [if_true] at a10
    have : s.phase.selected = false := by simpa using hcs
    rw [this] at hfr
    exact idle_inv a1 a2 (by rw [a3]; decide) (by simp [a4]) (by simpa [a10] using hfr)
      (by rw [a10]; exact h.canonical) (by rw [a10]; exact h.inArray) (by rw [a10]; exact h.cycle)

end Sys2Proof.Machine
end

