-- ==== Sys2Proof/Laws/PerInstr.lean ====
section
/-! SUPPORT. What is said of every instruction as syntax, one lemma per constructor: the sequencer reads at its command
port the command the instruction is or expands to, with its operands (R83, R91), and its frame begins with that
command's opcode (R80, R84). -/

namespace Sys2Proof.Laws.Coding

/-- The descriptor of an instruction decodes to its command, and its opcode leads its frame. -/
def Statement (i : Instr) : Prop :=
  decodeDescriptor i.descriptor = .ok (i.command.instr i.operands) ∧ (encode i).head? = some i.command.opcode

theorem wrsr (o : Operands) : Statement (.wrsr o) := ⟨rfl, rfl⟩

theorem write (o : Operands) : Statement (.write o) := ⟨rfl, rfl⟩

theorem read (o : Operands) : Statement (.read o) := ⟨rfl, rfl⟩

theorem wrdi (o : Operands) : Statement (.wrdi o) := ⟨rfl, rfl⟩

theorem rdsr (o : Operands) : Statement (.rdsr o) := ⟨rfl, rfl⟩

theorem wren (o : Operands) : Statement (.wren o) := ⟨rfl, rfl⟩

theorem writePage (o : Operands) : Statement (.writePage o) := ⟨rfl, rfl⟩

theorem readPage (addr : Half) : Statement (.readPage addr) := ⟨rfl, rfl⟩

theorem readByte (addr : Half) : Statement (.readByte addr) := ⟨rfl, rfl⟩

theorem writeByte (addr : Half) (value : Byte) : Statement (.writeByte addr value) := ⟨rfl, rfl⟩

end Sys2Proof.Laws.Coding
end

