-- ==== Sys2Proof/Tests/Slice0.lean ====
section
/-! SUPPORT. Tests from the spec's vectors (spec file 95_test_vectors), the smoke tests of the checks, and for every
statement with hypotheses a concrete state and operands that meet them all. -/

namespace Sys2Proof.Machine.Tests

/-! ## Helpers -/

/-- Operands with the payload bytes written out, the rest zero. -/
def ops (addr len : Half) (data : List Byte) : Operands :=
  { addr := addr, len := len, wdata := pageOfList data }

/-- No operands at all. -/
def noOps : Operands := ops 0#16 0#16 []

/-- A page of sixteen different bytes. -/
def pageBytes : List Byte :=
  [0xDE#8, 0xAD#8, 0xBE#8, 0xEF#8, 0x01#8, 0x02#8, 0x03#8, 0x04#8] ++
  [0x05#8, 0x06#8, 0x07#8, 0x08#8, 0x09#8, 0x0A#8, 0x0B#8, 0x0C#8]

/-- The machine after reset on a bus that does not fail. -/
def quiet : State := { State.reset with oks := List.replicate 60 true }

/-- The same with the write-enable latch set. -/
def enabled : State := { quiet with dev := { quiet.dev with wel := true } }

/-- The machine after reset on a bus that fails at transfer `k`, counted from 0. -/
def failing (k : Nat) : State := { State.reset with oks := List.replicate k true ++ [false] }

/-- The machine after reset with one command waiting. -/
def waitingWith (d : Descriptor) : State := { quiet with requesters := [[.issue d]] }

/-- The next state of an outcome. -/
def after (r : Result) : State :=
  match r with
  | .next t => t
  | .fault _ => State.reset
  | .refused _ => State.reset

theorem quiet_ready : quiet.Ready := ⟨rfl, rfl⟩

theorem enabled_ready : enabled.Ready := ⟨rfl, rfl⟩

theorem reset_inv : State.reset.Inv where
  select := rfl
  frame := rfl
  status := by decide
  result := by decide
  latched := by simp [State.reset, Phase.checked]
  address := by simp [State.reset]
  opening := by simp [State.reset]
  counting := by simp [State.reset]
  canonical := List.Pairwise.nil
  inArray := fun _ h => nomatch h
  cycle := Nat.zero_le _

/-! ## Well-formedness: a well-formed and an ill-formed term for each check -/

theorem test_wf_accepts : (Instr.wellFormed (.wrsr (ops 0#16 0#16 [0xFF#8])) &&
    Instr.wellFormed (.write (ops 0x002E#16 2#16 [0x11#8, 0x22#8])) && Instr.wellFormed (.read (ops 0xFFFF#16 16#16 [])) &&
    Instr.wellFormed (.wrdi noOps) && Instr.wellFormed (.rdsr noOps) && Instr.wellFormed (.wren noOps) &&
    Instr.wellFormed (.writePage (ops 0#16 16#16 pageBytes))) = true := by decide

theorem test_wf_wrsr_refuses_addr : Instr.wellFormed (.wrsr (ops 1#16 0#16 [0xFF#8])) = false := by decide

theorem test_wf_wrsr_refuses_len : Instr.wellFormed (.wrsr (ops 0#16 1#16 [0xFF#8])) = false := by decide

theorem test_wf_wrsr_refuses_data : Instr.wellFormed (.wrsr (ops 0#16 0#16 [0xFF#8, 1#8])) = false := by decide

theorem test_wf_write_refuses_data : Instr.wellFormed (.write (ops 0#16 1#16 [1#8, 2#8])) = false := by decide

theorem test_wf_read_refuses_data : Instr.wellFormed (.read (ops 0#16 1#16 [1#8])) = false := by decide

theorem test_wf_wrdi_refuses_addr : Instr.wellFormed (.wrdi (ops 0x8000#16 0#16 [])) = false := by decide

theorem test_wf_wrdi_refuses_data : Instr.wellFormed (.wrdi (ops 0#16 0#16 [1#8])) = false := by decide

theorem test_wf_rdsr_refuses_len : Instr.wellFormed (.rdsr (ops 0#16 1#16 [])) = false := by decide

theorem test_wf_rdsr_refuses_data : Instr.wellFormed (.rdsr (ops 0#16 0#16 [1#8])) = false := by decide

theorem test_wf_wren_refuses_len : Instr.wellFormed (.wren (ops 0#16 0xFFFF#16 [])) = false := by decide

theorem test_wf_wren_refuses_data : Instr.wellFormed (.wren (ops 0#16 0#16 (List.replicate 16 0xFF#8))) = false := by decide

theorem test_wf_writePage_refuses_data : Instr.wellFormed (.writePage (ops 0#16 15#16 pageBytes)) = false := by decide

/-! ## Decoding: frames and descriptors written out from R80, R81, R83 and R94 -/

theorem test_decode_wren : decodeFrame [0b00000110#8] = .ok (.wren noOps) := by decide

theorem test_decode_wrdi : decodeFrame [0b00000100#8] = .ok (.wrdi noOps) := by decide

theorem test_decode_rdsr : decodeFrame [0b00000101#8, 0x00#8] = .ok (.rdsr noOps) := by decide

theorem test_decode_wrsr : decodeFrame [0b00000001#8, 0x0C#8] = .ok (.wrsr (ops 0#16 0#16 [0x0C#8])) := by decide

/-- V30: the low address byte comes first. -/
theorem test_decode_read :
    decodeFrame [0b00000011#8, 0x34#8, 0x12#8, 0x00#8, 0x00#8] = .ok (.read (ops 0x1234#16 2#16 [])) := by decide

/-- V46. -/
theorem test_decode_write :
    decodeFrame [0b00000010#8, 0x2E#8, 0x00#8, 0x11#8, 0x22#8] =
      .ok (.write (ops 0x002E#16 2#16 [0x11#8, 0x22#8])) := by decide

/-- R95: the frame of a WRITE_PAGE decodes as the WRITE of the page; its descriptor, KIND 7, as WRITE_PAGE. -/
theorem test_decode_writePage :
    decodeFrame ([0b00000010#8, 0x00#8, 0x00#8] ++ pageBytes) = .ok (.write (ops 0#16 16#16 pageBytes)) ∧
    decodeDescriptor { kind := 0b111#3, operands := ops 0#16 16#16 pageBytes } =
      .ok (.writePage (ops 0#16 16#16 pageBytes)) := by decide

/-- V33: READ_PAGE 0x0010 sends `03 10 00` and sixteen fillers. -/
theorem test_encode_readPage :
    encode (.readPage 0x0010#16) = [0x03#8, 0x10#8, 0x00#8] ++ List.replicate 16 0x00#8 := by decide

/-- V31, V32. -/
theorem test_encode_readByte :
    encode (.readByte 0x00FF#16) = [0x03#8, 0xFF#8, 0x00#8, 0x00#8] ∧
    encode (.readByte 0xFF00#16) = [0x03#8, 0x00#8, 0xFF#8, 0x00#8] := by decide

/-- V50. -/
theorem test_encode_writeByte :
    encode (.writeByte 0x0123#16 0x5A#8) = [0x02#8, 0x23#8, 0x01#8, 0x5A#8] := by decide

/-- S1. -/
theorem test_encode_writePage :
    encode (.writePage (ops 0#16 16#16 pageBytes)) = [0x02#8, 0x00#8, 0x00#8] ++ pageBytes := by decide

theorem test_decode_rejects :
    decodeFrame [0x07#8] = .error (.unknownOpcode 0x07#8) ∧ decodeFrame [] = .error .emptyFrame ∧
    decodeFrame [0x06#8, 0x00#8] = .error (.badLength 2) ∧ decodeFrame [0x05#8] = .error (.badLength 1) ∧
    decodeFrame [0x02#8, 0x00#8, 0x00#8] = .error (.badLength 3) ∧
    decodeDescriptor { kind := 0#3, operands := noOps } = .error .reservedKind := by decide

/-- READ as the opcode table numbers its bits: the address byte `l` is bits 15..8, `h` bits 23..16. -/
theorem test_table_word_read :
    decodeTableWord 24 0x123403 = some (.read (ops 0x1234#16 1#16 [])) := by decide

theorem test_table_word_wrsr : decodeTableWord 16 0x0C01 = some (.wrsr (ops 0#16 0#16 [0x0C#8])) := by decide

/-! ## The check: the tables of R151 and of V30 to V55 -/

theorem test_check_write :
    valid 2#3 0x0000#16 16#16 = true ∧ valid 2#3 0x0000#16 17#16 = false ∧ valid 2#3 0x0000#16 0#16 = false ∧
    valid 2#3 0x0001#16 15#16 = true ∧ valid 2#3 0x0001#16 16#16 = false ∧ valid 2#3 0x000F#16 1#16 = true ∧
    valid 2#3 0x000F#16 2#16 = false ∧ valid 2#3 0xFFF0#16 16#16 = true ∧ valid 2#3 0xFFFF#16 2#16 = false ∧
    valid 2#3 0x1238#16 8#16 = true ∧ valid 2#3 0x1238#16 9#16 = false ∧ valid 2#3 0x0000#16 65535#16 = false := by decide

theorem test_check_page_and_read :
    valid 7#3 0x0000#16 16#16 = true ∧ valid 7#3 0x0000#16 15#16 = false ∧ valid 7#3 0x0000#16 17#16 = false ∧
    valid 7#3 0x0008#16 16#16 = false ∧ valid 7#3 0xFFF0#16 16#16 = true ∧ valid 7#3 0x0001#16 16#16 = false ∧
    valid 3#3 0x000F#16 2#16 = true ∧ valid 3#3 0x0000#16 0#16 = false ∧ valid 3#3 0x0000#16 17#16 = false ∧
    valid 3#3 0xFFFF#16 2#16 = true ∧ valid 0#3 0x0000#16 1#16 = false := by decide

/-- The other page sizes of 95_test_vectors section 2.5. -/
theorem test_check_page_sizes :
    commandCheck 32 0x0010#16 16#16 .write = true ∧ commandCheck 32 0x0010#16 32#16 .writePage = false ∧
    commandCheck 1 0x1234#16 1#16 .write = true ∧ commandCheck 1 0x1234#16 2#16 .write = false := by decide

/-! ## Commands -/

/-- V10, V12: the trace and the result of WREN, also with every ignored field set. -/
theorem test_wren : (after (exec (.wren (ops 0xFFFF#16 0xFFFF#16 (List.replicate 16 0xFF#8))) quiet)).trace =
    [.sel, .tx 0x06#8 true, .desel, .delay Config.tSettleMs] := by rfl

/-- V13: the one transfer fails. -/
theorem test_wren_fails :
    (after (exec (.wren noOps) (failing 0))).trace = [.sel, .tx 0x06#8 false, .desel, .delay Config.tSettleMs] ∧
    (after (exec (.wren noOps) (failing 0))).status = 2#2 := ⟨rfl, rfl⟩

/-- V11. -/
theorem test_wrdi : (after (exec (.wrdi noOps) quiet)).trace =
    [.sel, .tx 0x04#8 true, .desel, .delay Config.tSettleMs] := by rfl

/-- V20: one byte is returned. -/
theorem test_rdsr : (after (exec (.rdsr noOps) quiet)).rlen = 1#16 ∧
    (after (exec (.rdsr noOps) quiet)).status = 0#2 := ⟨rfl, rfl⟩

/-- V22: the opcode transfer fails and the read is not attempted. -/
theorem test_rdsr_fails : (after (exec (.rdsr noOps) (failing 0))).trace =
    [.sel, .tx 0x05#8 false, .desel, .delay Config.tSettleMs] := by rfl

/-- V24. -/
theorem test_wrsr : (after (exec (.wrsr (ops 0#16 0#16 [0x0C#8])) quiet)).trace =
    [.sel, .tx 0x01#8 true, .tx 0x0C#8 true, .desel, .delay Config.tSettleMs] := by rfl

/-- V30: the header of READ 0x1234, 2, and its result length. -/
theorem test_read :
    (after (exec (.read (ops 0x1234#16 2#16 [])) quiet)).trace.take 4 =
      [.sel, .tx 0x03#8 true, .tx 0x34#8 true, .tx 0x12#8 true] ∧
    (after (exec (.read (ops 0x1234#16 2#16 [])) quiet)).rlen = 2#16 := ⟨rfl, rfl⟩

/-- V61: READ 0x1234, 2 whose second transfer fails. -/
theorem test_read_fails : (after (exec (.read (ops 0x1234#16 2#16 [])) (failing 1))).trace =
    [.sel, .tx 0x03#8 true, .tx 0x34#8 false, .desel, .delay Config.tSettleMs] := by rfl

/-- V33: READ_PAGE 0x0010 gives 22 events. -/
theorem test_readPage : (after (exec (.readPage 0x0010#16) quiet)).trace.length = 22 := by rfl

/-- V32: READ_BYTE 0xFF00 gives 7 events and one byte. -/
theorem test_readByte : (after (exec (.readByte 0xFF00#16) quiet)).trace.length = 7 ∧
    (after (exec (.readByte 0xFF00#16) quiet)).rlen = 1#16 := ⟨rfl, rfl⟩

/-- V46. -/
theorem test_write : (after (exec (.write (ops 0x002E#16 2#16 [0x11#8, 0x22#8])) quiet)).trace =
    [.sel, .tx 0x02#8 true, .tx 0x2E#8 true, .tx 0x00#8 true, .tx 0x11#8 true, .tx 0x22#8 true, .desel,
      .delay Config.tSettleMs] := by rfl

/-- V47: the crossing write transmits nothing. -/
theorem test_write_crossing :
    (after (exec (.write (ops 0x002E#16 3#16 [0x11#8, 0x22#8, 0x33#8])) quiet)).trace = [] ∧
    (after (exec (.write (ops 0x002E#16 3#16 [0x11#8, 0x22#8, 0x33#8])) quiet)).status = 1#2 := ⟨rfl, rfl⟩

/-- V44: WRITE_PAGE 0xFFF0 with 16 bytes of AA gives 22 events. -/
theorem test_writePage :
    (after (exec (.writePage (ops 0xFFF0#16 16#16 (List.replicate 16 0xAA#8))) quiet)).trace.length = 22 := by rfl

/-- V43: an address inside a page is refused. -/
theorem test_writePage_unaligned :
    (after (exec (.writePage (ops 0x0008#16 16#16 pageBytes)) quiet)).status = 1#2 := by rfl

/-- V50. -/
theorem test_writeByte : (after (exec (.writeByte 0x0123#16 0x5A#8) quiet)).trace =
    [.sel, .tx 0x02#8 true, .tx 0x23#8 true, .tx 0x01#8 true, .tx 0x5A#8 true, .desel, .delay Config.tSettleMs] := by
  rfl

/-- V1: the phases of WREN from SEL on, one step each. -/
theorem test_phases_wren :
    ((List.range 6).map fun k => (runPhases k (issue { kind := 6#3, operands := noOps } quiet)).phase) =
      [.check, .sel, .opc, .desel, .settle, .done] := by rfl

/-! ## The device -/

/-- A frame the device has taken whole. -/
def wholeFrame (l : List Byte) : DeviceFrame := { bytes := l, failed := false, cut := false, inCycle := false }

/-- R58: WREN sets the latch and WRDI clears it. -/
theorem test_device_latch :
    (Device.start.endFrame 0 (wholeFrame [0x06#8])).wel = true ∧
    (enabled.dev.endFrame 0 (wholeFrame [0x04#8])).wel = false := ⟨rfl, rfl⟩

/-- I13: a WREN frame whose transfer failed has no effect, though its byte arrived; R58, R201: one that was whole before
a reset raised the line has its effect. -/
theorem test_device_cut_wren :
    (Device.start.endFrame 0 { wholeFrame [0x06#8] with failed := true }).wel = false ∧
    (Device.start.endFrame 0 { wholeFrame [0x06#8] with cut := true }).wel = true := ⟨rfl, rfl⟩

/-- I13: a WRSR frame whose second transfer failed has no effect, with the latch set. -/
theorem test_device_cut_wrsr :
    enabled.dev.endFrame 0 { wholeFrame [0x01#8, 0x0C#8] with failed := true } = enabled.dev := by rfl

/-- P2 step 1, on a small address: a write without the latch changes nothing. -/
theorem test_device_ignores_write :
    Device.start.endFrame 0 (wholeFrame [0x02#8, 0x03#8, 0x00#8, 0x5A#8]) = Device.start := by rfl

/-- P2 step 4, on a small address: with the latch set the byte is stored and the latch is cleared. -/
theorem test_device_takes_write :
    (enabled.dev.endFrame 0 (wholeFrame [0x02#8, 0x03#8, 0x00#8, 0x5A#8])).mem = [(3, 0x5A#8)] ∧
    (enabled.dev.endFrame 0 (wholeFrame [0x02#8, 0x03#8, 0x00#8, 0x5A#8])).wel = false := by
  have h : Config.pageSize ≤ Config.memSize := Config.pageSize_le_memSize
  have ha : (joinBytes 0x03#8 0x00#8).toNat = 3 := rfl
  have hm : 3 + 1 ≤ Config.memSize := Nat.le_trans (by decide) h
  have hc : crosses Config.pageSize 3 1 = false := rfl
  have hw : enabled.dev.wel = true := rfl
  have he : enabled.dev.mem = [] := rfl
  simp [Device.endFrame, Device.endWrite, wholeFrame, Device.afterWrite, ha, hm, hc, hw, he, Memory.writeBytes,
    Memory.write]

/-- R61: the status byte is answered in an RDSR frame, and R59: the array in a READ frame. -/
theorem test_device_answers :
    (Device.answer { Device.start with mem := [(3, 0x5A#8)], frame := some (wholeFrame [0x03#8, 0x02#8, 0x00#8, 0x00#8]) }
      7) = 0x5A#8 := by
  have h : 3 < Config.memSize := Nat.lt_of_lt_of_le (by decide) Config.pageSize_le_memSize
  have ha : (joinBytes 0x02#8 0x00#8).toNat = 2 := rfl
  simp [Device.answer, wholeFrame, Device.readAt, ha, h, Device.cell, Memory.read]

/-- R13, R101: the byte of a failed transfer is the device's answer too. -/
theorem test_failed_read_byte :
    State.nextByte { quiet with
      oks := [false]
      dev := { Device.start with
        mem := [(3, 0x5A#8)], frame := some (wholeFrame [0x03#8, 0x03#8, 0x00#8]) } } = 0x5A#8 := by
  have h : 3 < Config.memSize := Nat.lt_of_lt_of_le (by decide) Config.pageSize_le_memSize
  have ha : (joinBytes 0x03#8 0x00#8).toNat = 3 := rfl
  simp [nextByte_eq, Device.answer, wholeFrame, Device.readAt, ha, h, Device.cell, Memory.read]

/-! ## Steps, the command port and reset -/

/-- A word of the table placed at the port runs with the next step. -/
theorem test_fetch_runs :
    (after (step (quiet.withFetchWord 8 0x06))).hostTrace.head? =
      some (.issue { kind := 6#3, operands := noOps }) := by rfl

/-- V6: KIND 0. -/
theorem test_reserved_kind :
    (after (step (waitingWith { kind := 0#3, operands := noOps }))).status = 1#2 ∧
    (after (step (waitingWith { kind := 0#3, operands := noOps }))).trace = [] := ⟨rfl, rfl⟩

/-- R201: a reset in the frame of a READ: the line goes high and nothing follows it. -/
theorem test_reset_cuts_command :
    (after (exec (.read (ops 0x1234#16 2#16 [])) { quiet with resets := [4] })).trace =
      [.sel, .tx 0x03#8 true, .desel] ∧
    (after (exec (.read (ops 0x1234#16 2#16 [])) { quiet with resets := [4] })).csN = true := ⟨rfl, rfl⟩

/-! ## Witnesses: for each statement with hypotheses, a state and operands that meet all of them -/

/-- The phases of READ 0x1234, 2 on a bus that does not fail: CHECK is number 0. -/
def readPhase (k : Nat) : State :=
  match k with
  | 0 => issue { kind := 3#3, operands := ops 0x1234#16 2#16 [] } quiet
  | k + 1 => phaseStep (readPhase k)

theorem readPhase_inv (k : Nat) : (readPhase k).Inv := by
  induction k with
  | zero =>
    refine ⟨rfl, rfl, by decide, by decide, ?_, ?_, ?_, ?_, List.Pairwise.nil, (fun _ h => nomatch h), Nat.zero_le _⟩ <;>
      simp [readPhase, issue, State.goto, State.record, Phase.checked]
  | succ k ih => exact phaseStep_inv ih

theorem readPhase_resets (k : Nat) (h : k < 10) : (readPhase k).resets = [] := by
  have : ∀ k : Fin 10, (readPhase k).resets = [] := by
    intro k
    fin_cases k <;> rfl
  exact this ⟨k, h⟩

/-- A busy machine in any of these phases takes its step. -/
theorem readPhase_step (k : Nat) (h : k < 9) : ∃ t, step (readPhase k) = .next t := by
  have hb : (readPhase k).busy = true := by
    have : ∀ k : Fin 9, (readPhase k).busy = true := by
      intro k
      fin_cases k <;> rfl
    exact this ⟨k, h⟩
  refine ⟨phaseStep (readPhase k).countdown, ?_⟩
  simp [step, not_resetDue (readPhase_resets k (by omega)), hb, advance, stuck_none (readPhase_inv k)]

/-- A state in the middle of a command, with every register given. -/
def inPhase (p : Phase) (kind : BitVec 3) (n idx : Half) : State :=
  { quiet with
    phase := p, csN := !p.selected, kind := kind, addr := 0x1234#16, len := n, n := n, idx := idx
    dev := { quiet.dev with frame := if p.selected then some (wholeFrame []) else none } }

/-- Every ready machine answers an instruction with a next state. -/
theorem exec_next (i : Instr) {s : State} (h : s.Ready) : ∃ t, exec i s = .next t :=
  ⟨_, (exec_eq i s).trans (runCommand_ready i.descriptor h)⟩

theorem witness_pages : (15 : Nat) ≤ 15 ∧ 65535 < 65536 ∧ offsetOf (2 ^ 15) 65535 < 2 ^ 15 := by decide

theorem witness_crosses :
    (0 < Config.pageSize ∧ 1 ≤ (2 : Nat) ∧ crosses Config.pageSize 0x000F 2 = true) ∧
    (1 ≤ (1 : Nat) ∧ crosses Config.pageSize (0xFFFF#16).toNat 1 = false) := by decide

theorem witness_kinds :
    Command.ofKind 1#3 = some .wrsr ∧ Command.ofKind 2#3 = some .write ∧ Command.ofKind 3#3 = some .read ∧
    Command.ofKind 4#3 = some .wrdi ∧ Command.ofKind 5#3 = some .rdsr ∧ Command.ofKind 6#3 = some .wren ∧
    Command.ofKind 7#3 = some .writePage := by decide

/-- For `FrameDecodesToItsInstruction` and `FrameLengthAndFirstByte`: every family, at the ends of its ranges. -/
theorem witness_frames :
    (Instr.wellFormed (.write (ops 0xFFF0#16 16#16 pageBytes)) ∧ instrValid (.write (ops 0xFFF0#16 16#16 pageBytes))) ∧
    (Instr.wellFormed (.write (ops 0x000F#16 1#16 [0xFF#8])) ∧ instrValid (.write (ops 0x000F#16 1#16 [0xFF#8]))) ∧
    (Instr.wellFormed (.read (ops 0xFFFF#16 16#16 [])) ∧ instrValid (.read (ops 0xFFFF#16 16#16 []))) ∧
    (Instr.wellFormed (.wrsr (ops 0#16 0#16 [0xFF#8])) ∧ instrValid (.wrsr (ops 0#16 0#16 [0xFF#8]))) ∧
    (Instr.wellFormed (.wren noOps) ∧ instrValid (.wren noOps)) ∧ (Instr.wellFormed (.wrdi noOps) ∧ instrValid (.wrdi noOps)) ∧
    (Instr.wellFormed (.rdsr noOps) ∧ instrValid (.rdsr noOps)) ∧
    (Instr.wellFormed (.readPage 0x0008#16) ∧ instrValid (.readPage 0x0008#16)) ∧
    (Instr.wellFormed (.writeByte 0xFFFF#16 0#8) ∧ instrValid (.writeByte 0xFFFF#16 0#8)) := by decide

/-- Two different instructions with one frame (R95). -/
theorem witness_same_frame :
    Instr.wellFormed (.write (ops 0x0010#16 16#16 pageBytes)) = true ∧
    Instr.wellFormed (.writePage (ops 0x0010#16 16#16 pageBytes)) = true ∧
    instrValid (.write (ops 0x0010#16 16#16 pageBytes)) = true ∧
    instrValid (.writePage (ops 0x0010#16 16#16 pageBytes)) = true ∧
    encode (.write (ops 0x0010#16 16#16 pageBytes)) = encode (.writePage (ops 0x0010#16 16#16 pageBytes)) := by decide

theorem witness_decoded_frame :
    decodeFrame [0x03#8, 0xFF#8, 0xFF#8, 0x00#8] = .ok (.read (ops 0xFFFF#16 1#16 [])) ∧
    ([0x03#8, 0xFF#8, 0xFF#8, 0x00#8].drop (Command.header 0xFFFF#16 .read).length =
      List.replicate (Command.nData 1#16 .read).toNat Config.filler) := by decide

theorem witness_descriptor : ({ kind := 7#3, operands := noOps } : Descriptor).kind ≠ 0#3 := by decide

theorem witness_check_passes :
    (inPhase .check 3#3 16#16 0#16).phase = .check ∧ (inPhase .check 3#3 16#16 0#16).resets = [] ∧
    (inPhase .check 3#3 16#16 0#16).command = some .read ∧ valid 3#3 0x1234#16 16#16 = true := by decide

theorem witness_check_fails :
    (inPhase .check 3#3 17#16 0#16).phase = .check ∧ (inPhase .check 3#3 17#16 0#16).resets = [] ∧
    valid 3#3 0x1234#16 17#16 = false := by decide

theorem witness_select : (inPhase .sel 6#3 0#16 0#16).phase = .sel ∧ (inPhase .sel 6#3 0#16 0#16).resets = [] := by
  decide

/-- OPC of a command with an address, of one with a data byte only, of one with neither, and one that fails. -/
theorem witness_opcode :
    ((inPhase .opc 3#3 1#16 0#16).command = some .read ∧ Command.hasAddr .read = true) ∧
    ((inPhase .opc 1#3 1#16 0#16).command = some .wrsr ∧ Command.hasAddr .wrsr = false ∧ 0 < (1#16).toNat) ∧
    ((inPhase .opc 6#3 0#16 0#16).command = some .wren ∧ Command.hasAddr .wren = false ∧ (0#16).toNat = 0) ∧
    (inPhase .opc 6#3 0#16 0#16).nextOk = true ∧ (inPhase .opc 6#3 0#16 0#16).resets = [] ∧
    State.nextOk { inPhase .opc 6#3 0#16 0#16 with oks := [false] } = false := by decide

theorem witness_address :
    (inPhase .alo 3#3 1#16 0#16).phase = .alo ∧ (inPhase .ahi 3#3 1#16 0#16).phase = .ahi ∧
    (inPhase .alo 3#3 1#16 0#16).resets = [] ∧ (inPhase .ahi 3#3 1#16 0#16).resets = [] ∧
    (inPhase .alo 3#3 1#16 0#16).nextOk = true ∧ (inPhase .ahi 3#3 1#16 0#16).nextOk = true ∧
    State.nextOk { inPhase .alo 3#3 1#16 0#16 with oks := [false] } = false ∧
    State.nextOk { inPhase .ahi 3#3 1#16 0#16 with oks := [false] } = false := by decide

/-- DATA out and in, the last byte of a page and one before the last, transferred and failed. -/
theorem witness_data :
    (inPhase .data 2#3 16#16 15#16).command = some .write ∧ Command.dir .write = .out ∧
    (inPhase .data 3#3 16#16 14#16).command = some .read ∧ Command.dir .read ≠ .out ∧
    (15#16).toNat < Config.pageSize ∧ (15#16).toNat < (16#16).toNat ∧ (14#16).toNat + 1 ≠ (16#16).toNat ∧
    (15#16).toNat + 1 = (16#16).toNat ∧ (inPhase .data 2#3 16#16 15#16).phase = .data ∧
    (inPhase .data 2#3 16#16 15#16).resets = [] ∧ (inPhase .data 2#3 16#16 15#16).nextOk = true ∧
    State.nextOk { inPhase .data 2#3 16#16 15#16 with oks := [false] } = false := by decide

theorem witness_deselect : (inPhase .desel 2#3 16#16 16#16).phase = .desel ∧ (inPhase .desel 2#3 16#16 16#16).resets = [] := by
  decide

theorem witness_settle : (inPhase .settle 2#3 16#16 16#16).phase = .settle ∧ (inPhase .settle 2#3 16#16 16#16).resets = [] := by
  decide

theorem witness_done :
    (inPhase .done 3#3 16#16 16#16).phase = .done ∧ (inPhase .done 3#3 16#16 16#16).resets = [] ∧
    (inPhase .done 3#3 16#16 16#16).command = some .read ∧ (inPhase .done 3#3 16#16 16#16).err = false ∧
    ({ inPhase .done 3#3 16#16 16#16 with err := true } : State).err = true := by decide

/-- For `PhaseOrder` and `BusyMachineTakesNoCommand`: each phase of a READ meets the invariant and takes its step. -/
theorem witness_phases (k : Nat) (h : k < 9) :
    (readPhase k).Inv ∧ (readPhase k).resets = [] ∧ ∃ t, step (readPhase k) = .next t :=
  ⟨readPhase_inv k, readPhase_resets k (by omega), readPhase_step k h⟩

theorem witness_phase_names :
    ((List.range 10).map fun k => (readPhase k).phase) =
      [.check, .sel, .opc, .alo, .ahi, .data, .data, .desel, .settle, .done] := by rfl

/-- A command waiting at an idle machine. -/
theorem witness_step :
    (waitingWith { kind := 6#3, operands := noOps }).Ready ∧
    arbitrate (waitingWith { kind := 6#3, operands := noOps }) =
      some (.issue { kind := 6#3, operands := noOps }, { quiet with requesters := [[]] }) ∧
    decodeDescriptor { kind := 6#3, operands := noOps } = .ok (.wren noOps) := ⟨⟨rfl, rfl⟩, rfl, rfl⟩

theorem witness_reserved :
    (waitingWith { kind := 0#3, operands := noOps }).Ready ∧
    arbitrate (waitingWith { kind := 0#3, operands := noOps }) =
      some (.issue { kind := 0#3, operands := noOps }, { quiet with requesters := [[]] }) := ⟨⟨rfl, rfl⟩, rfl⟩

theorem witness_idle :
    State.Ready { quiet with requesters := [[], []] } ∧
    ∀ l ∈ ({ quiet with requesters := [[], []] } : State).requesters, l = [] :=
  ⟨⟨rfl, rfl⟩, by simp⟩

/-- Two requesters wait: one is served. -/
theorem witness_arbitration :
    (∃ l ∈ ({ quiet with requesters := [[.wait 1], [.wait 2]] } : State).requesters, l ≠ []) ∧
    ∃ a t, arbitrate (waitingWith { kind := 6#3, operands := noOps }) = some (a, t) :=
  ⟨⟨[.wait 1], by simp, by simp⟩, _, _, rfl⟩

theorem witness_wait :
    State.Ready { quiet with requesters := [[.wait Config.tSettleMs]] } ∧
    ({ quiet with requesters := [[.wait Config.tSettleMs]] } : State).dev.cycleLeft ≤ Config.tWcMs ∧
    arbitrate { quiet with requesters := [[.wait Config.tSettleMs]] } =
      some (.wait Config.tSettleMs, { quiet with requesters := [[]] }) := ⟨⟨rfl, rfl⟩, Nat.zero_le _, rfl⟩

theorem witness_fetched : decodeTableWord 8 0x06 = some (.wren noOps) := by decide

/-- For the completion statements: a ready machine, a bus that does not fail for the longest frame, a quiet device. -/
theorem witness_completes : quiet.Ready ∧ quiet.BusOk 1 ∧ quiet.BusOk 2 ∧ quiet.BusOk 4 ∧ quiet.BusOk 19 ∧ quiet.DeviceQuiet :=
  ⟨quiet_ready, rfl, rfl, rfl, rfl, rfl⟩

theorem witness_read_completes :
    quiet.Ready ∧ instrValid (.read (ops 0#16 16#16 [])) = true ∧ quiet.BusOk (3 + (16#16).toNat) ∧ quiet.DeviceQuiet ∧
    0 + 15 < Config.memSize :=
  ⟨quiet_ready, by decide, rfl, rfl, Nat.lt_of_lt_of_le (by decide) Config.pageSize_le_memSize⟩

theorem witness_write_completes :
    enabled.Ready ∧ instrValid (.write (ops 0x000F#16 1#16 [0xFF#8])) = true ∧ enabled.BusOk (3 + (1#16).toNat) ∧
    enabled.DeviceQuiet ∧ enabled.dev.wel = true ∧ 15 + 1 ≤ Config.memSize ∧ quiet.dev.wel = false :=
  ⟨enabled_ready, by decide, rfl, rfl, rfl, Config.pageSize_le_memSize, rfl⟩

theorem witness_writePage_completes :
    enabled.Ready ∧ instrValid (.writePage (ops 0#16 16#16 pageBytes)) = true ∧ enabled.BusOk 19 ∧
    enabled.DeviceQuiet ∧ enabled.dev.wel = true ∧ 0 + 16 ≤ Config.memSize ∧ quiet.dev.wel = false :=
  ⟨enabled_ready, by decide, rfl, rfl, rfl, Config.pageSize_le_memSize, rfl⟩

theorem witness_writeByte_completes :
    enabled.Ready ∧ enabled.BusOk 4 ∧ enabled.DeviceQuiet ∧ enabled.dev.wel = true ∧ 15 < Config.memSize ∧
    quiet.dev.wel = false :=
  ⟨enabled_ready, rfl, rfl, rfl, Nat.lt_of_lt_of_le (by decide) Config.pageSize_le_memSize, rfl⟩

/-- For `ReadsLeaveTheDevice`. -/
theorem witness_reads_leave :
    Instr.command (.rdsr noOps) = .rdsr ∧ Instr.command (.readPage 0#16) = .read ∧ quiet.Ready ∧ quiet.DeviceQuiet ∧
    (∃ t, exec (.rdsr noOps) quiet = .next t) ∧ ∃ t, exec (.readPage 0#16) quiet = .next t :=
  ⟨rfl, rfl, quiet_ready, rfl, exec_next _ quiet_ready, exec_next _ quiet_ready⟩

/-- For `LatchAndStatusCommandsLeaveTheArray` and `OnlyReadsWriteRbuf`. -/
theorem witness_latch_leaves :
    Instr.command (.wren noOps) = .wren ∧ Instr.command (.wrdi noOps) = .wrdi ∧ Instr.command (.wrsr noOps) = .wrsr ∧
    Command.dir .wrsr ≠ .inward ∧ enabled.Ready ∧ enabled.DeviceQuiet ∧ ∃ t, exec (.wrsr noOps) enabled = .next t :=
  ⟨rfl, rfl, rfl, by decide, enabled_ready, rfl, exec_next _ enabled_ready⟩

/-- For `WriteWithoutEnableIsIgnored` and `WritesStayInTheirPage`. -/
theorem witness_write_leaves :
    Instr.command (.writeByte 0x000F#16 1#8) = .write ∧ quiet.Ready ∧ quiet.DeviceQuiet ∧ quiet.dev.wel = false ∧
    enabled.Ready ∧ enabled.DeviceQuiet ∧ enabled.BusOk 3 ∧
    pageOf Config.pageSize 0x0010 ≠ pageOf Config.pageSize (Instr.operands (.writeByte 0x000F#16 1#8)).addr.toNat ∧
    (∃ t, exec (.writeByte 0x000F#16 1#8) quiet = .next t) ∧ ∃ t, exec (.writeByte 0x000F#16 1#8) enabled = .next t :=
  ⟨rfl, quiet_ready, rfl, rfl, enabled_ready, rfl, rfl, by decide, exec_next _ quiet_ready, exec_next _ enabled_ready⟩

/-- For `ValidCommandEndsIdle` and `CommandAddsAtMostOneFrame`. -/
theorem witness_valid_command :
    quiet.Ready ∧ instrValid (.read (ops 0x000F#16 2#16 [])) = true ∧
    ∃ t, exec (.read (ops 0x000F#16 2#16 [])) quiet = .next t :=
  ⟨quiet_ready, by decide, exec_next _ quiet_ready⟩

theorem witness_invalid_command :
    quiet.Ready ∧ instrValid (.read (ops 0#16 17#16 [])) = false ∧ instrValid (.write (ops 0x000F#16 2#16 [])) = false ∧
    instrValid (.writePage (ops 0x0008#16 16#16 [])) = false := ⟨quiet_ready, by decide, by decide, by decide⟩

/-- The first and the last transfer of the longest frame can fail. -/
theorem witness_bus_error :
    (failing 0).Ready ∧ (failing 18).Ready ∧ instrValid (.writePage (ops 0#16 16#16 pageBytes)) = true ∧
    18 < Command.frameLen 16#16 .writePage ∧ (failing 0).BusFailsAfter 0 ∧ (failing 18).BusFailsAfter 18 ∧
    instrValid (.wren noOps) = true ∧ 0 < Command.frameLen 0#16 .wren ∧ (failing 0).DeviceQuiet ∧
    Command.wren ≠ .write ∧ Command.wren ≠ .writePage :=
  ⟨⟨rfl, rfl⟩, ⟨rfl, rfl⟩, by decide, by decide, rfl, rfl, by decide, by decide, rfl, by decide, by decide⟩

/-- Two machines that differ in everything an earlier command leaves, before the same device and bus. -/
theorem witness_same_world :
    quiet.Ready ∧ State.Ready { quiet with kind := 7#3, idx := 9#16, err := true, status := 2#2, rlen := 1#16 } ∧
    SameWorld quiet { quiet with kind := 7#3, idx := 9#16, err := true, status := 2#2, rlen := 1#16 } :=
  ⟨quiet_ready, ⟨rfl, rfl⟩, rfl, rfl, rfl⟩

theorem witness_ignored :
    quiet.Ready ∧
    relevantOperands (ops 0#16 1#16 [1#8, 2#8]) .write = relevantOperands (ops 0#16 1#16 [1#8, 3#8]) .write ∧
    relevantOperands (ops 5#16 9#16 [1#8, 2#8]) .wrsr = relevantOperands (ops 0#16 1#16 [1#8, 3#8]) .wrsr ∧
    ops 0#16 1#16 [1#8, 2#8] ≠ ops 0#16 1#16 [1#8, 3#8] := ⟨quiet_ready, by decide, by decide, by decide⟩

theorem witness_round_trip :
    quiet.Ready ∧ quiet.DeviceQuiet ∧ instrValid (.write (ops 0#16 16#16 pageBytes)) = true ∧
    0 + 16 ≤ Config.memSize ∧ (ops 0#16 16#16 []).addr = (ops 0#16 16#16 pageBytes).addr ∧
    (ops 0#16 16#16 []).len = (ops 0#16 16#16 pageBytes).len ∧
    quiet.BusOk (1 + (3 + (16#16).toNat) + (3 + (16#16).toNat)) :=
  ⟨quiet_ready, rfl, by decide, Config.pageSize_le_memSize, rfl, rfl, rfl⟩

/-- For `EveryStepKeepsTheInvariant`, `MachineNeverStops` and `NoFrameStartsInAWriteCycle`: after reset, and in the
middle of a frame. -/
theorem witness_invariant :
    State.reset.Inv ∧ State.reset.Settled ∧ State.reset.resets = [] ∧ (∃ t, step State.reset = .next t) ∧
    (readPhase 5).Inv ∧ (readPhase 5).Settled ∧ (readPhase 5).resets = [] ∧ ∃ t, step (readPhase 5) = .next t :=
  ⟨reset_inv, ⟨Nat.zero_le _, fun _ => rfl⟩, rfl, ⟨_, rfl⟩, readPhase_inv 5, ⟨Nat.zero_le _, fun _ => rfl⟩, rfl,
    readPhase_step 5 (by decide)⟩

theorem witness_reset : ({ quiet with resets := [0, 3] } : State).resets = 0 :: [3] := rfl

/-- A reset in the frame of a write whose header was sent, with the latch set and with it clear. -/
theorem witness_reset_in_write :
    let frame : DeviceFrame := wholeFrame [0x02#8, 0x0F#8, 0x00#8, 0xFF#8]
    let s : State := { enabled with
      phase := .data, csN := false, resets := [0], dev := { enabled.dev with frame := some frame } }
    s.resets = 0 :: [] ∧ s.csN = false ∧ s.dev.frame = some frame ∧ frame.inCycle = false ∧
    frame.bytes = 0x02#8 :: 0x0F#8 :: 0x00#8 :: [0xFF#8] ∧ quiet.dev.wel = false ∧
    pageOf Config.pageSize 16 ≠ pageOf Config.pageSize (joinBytes 0x0F#8 0x00#8).toNat :=
  ⟨rfl, rfl, rfl, rfl, rfl, rfl, by decide⟩

theorem witness_array : Memory.wf [(3, 0x5A#8), (9, 0x00#8)] ∧ (0 : Nat) < [0xFF#8].length := by decide

end Sys2Proof.Machine.Tests
end

section
/-! PROOFS. The legal configuration, and what a read of the array finds after a sequence is written. -/

namespace Sys2Proof

/-- Settles O1: the settle delay and MEM_SIZE are legal by construction for every value of the open draws; the other
parameters are the fixed ones. -/
theorem configurationIsLegal : Obligations.ConfigurationIsLegal := by
  have legal : Config.params.Legal Config.tWcMs :=
    ⟨by decide, by decide, Config.one_le_tSettle, Config.tWc_le_tSettle, rfl,
      Config.pageSize_dvd_memSize, Config.pageSize_le_memSize, Config.memSize_le⟩
  exact ⟨legal, rfl, rfl, rfl⟩

namespace Machine

/-- A sequence written is read back byte by byte in ascending order. -/
theorem Memory.read_writeBytes_inside (m : Memory) (a : Nat) {l : List Byte} {i : Nat} (h : i < l.length) :
    (m.writeBytes a l).read (a + i) = some l[i] := by
  rw [Memory.read_writeBytes, if_pos (by omega), Nat.add_sub_cancel_left, List.getElem?_eq_getElem h]

/-- Writing a sequence leaves every other address as it was. -/
theorem Memory.read_writeBytes_outside (m : Memory) {a x : Nat} {l : List Byte} (h : x < a ∨ a + l.length ≤ x) :
    (m.writeBytes a l).read x = m.read x := by
  rw [Memory.read_writeBytes, if_neg (by omega)]

/-- Settles O60, from what one read answers after a sequence is written. -/
theorem arrayReadsAfterWrites : Obligations.ArrayReadsAfterWrites := fun m a _ hwf =>
  ⟨Memory.writeBytes_wf hwf a _, fun _ hi => Memory.read_writeBytes_inside m a hi,
    fun _ hx => Memory.read_writeBytes_outside m hx⟩

end Machine
end Sys2Proof
end

section
/-! PROOFS. The state after reset: what the spec fixes of it, and the invariants (R41, R56). -/

namespace Sys2Proof.Machine

/-- Settles O57: every field is the one reset writes, and an unwritten array answers its arbitrary content. -/
theorem resetState : Obligations.ResetState :=
  ⟨rfl, rfl, rfl, rfl, rfl, rfl, rfl, rfl, rfl, fun _ _ => rfl⟩

/-- Settles O52: the machine is idle with its device whole and empty, and no write cycle runs. -/
theorem invariantHoldsAtReset : Obligations.InvariantHoldsAtReset := by
  have inv : State.reset.Inv :=
    idle_inv rfl rfl (by decide) (by decide) rfl List.Pairwise.nil (fun _ hx => nomatch hx) (Nat.zero_le _)
  exact ⟨inv, Nat.zero_le _, fun _ => rfl⟩

end Sys2Proof.Machine
end

section
/-! PROOFS. What one step of the machine can do, said once (R36, R37, R103, R200), and that every step keeps the
invariant. -/

namespace Sys2Proof.Machine

variable {s t u : State} {d : Descriptor}

/-! ### The step, the command port and a command, by the branch taken -/

/-- A command in progress goes on by one phase, unless its phase has no enabled step. -/
theorem advance_eq_next_iff : advance s = .next t ↔ s.stuck = none ∧ t = phaseStep s.countdown := by
  unfold advance
  cases s.stuck <;> simp [eq_comm]

/-- What a step that answers a next state has done: a reset, a phase, nothing, or an accepted action. -/
theorem step_cases (h : step s = .next t) :
    (s.resetDue = true ∧ t = takeReset s) ∨
    (s.resetDue = false ∧ s.busy = true ∧ advance s = .next t) ∨
    (s.resetDue = false ∧ s.busy = false ∧ arbitrate s = none ∧ t = s.countdown) ∨
    (s.resetDue = false ∧ s.busy = false ∧ ∃ a u, arbitrate s = some (a, u) ∧ accept a u = .next t) := by
  unfold step at h
  cases hd : s.resetDue <;> simp only [hd, Bool.false_eq_true, if_false, if_true] at h
  · cases hb : s.busy <;> simp only [hb, Bool.false_eq_true, if_false, if_true] at h
    · cases ha : arbitrate s <;> simp only [ha] at h
      · exact .inr (.inr (.inl ⟨rfl, rfl, rfl, by simpa using h.symm⟩))
      · exact .inr (.inr (.inr ⟨rfl, rfl, _, _, rfl, h⟩))
    · exact .inr (.inl ⟨rfl, rfl, h⟩)
  · exact .inl ⟨rfl, by simpa using h.symm⟩

/-- What a command presented at the port can do: a reset that is due, a phase of the one in progress, or its own run. -/
theorem runCommand_cases (h : runCommand d s = .next t) :
    t = takeReset s ∨ advance s = .next t ∨
      (s.phase = .idle ∧ t = runPhases longestCommand (issue d s.countdown)) := by
  unfold runCommand at h
  split at h
  · exact .inl (by simpa using h.symm)
  · split at h
    · exact .inr (.inl h)
    · next hb => exact .inr (.inr ⟨by simpa [State.busy] using hb, by simpa using h.symm⟩)

/-- An instruction read at the port is the one of the descriptor presented. -/
theorem descriptor_of_decodeDescriptor {i : Instr} (h : decodeDescriptor d = .ok i) : i.descriptor = d := by
  unfold decodeDescriptor at h
  split at h
  · next c hc =>
    cases h
    simp [Instr.descriptor, Command.kind_of_ofKind hc]
  · cases h

/-- An accepted descriptor runs as its command, the reserved KIND too (R83, R88). -/
theorem accept_issue (d : Descriptor) (s : State) : accept (.issue d) s = runCommand d s := by
  cases hdec : decodeDescriptor d with
  | ok i => simp only [accept, hdec, exec_eq, descriptor_of_decodeDescriptor hdec]
  | error e => simp only [accept, hdec, runReserved]

/-- The step of a ready machine with a waiting requester is what it does with the accepted action. -/
theorem step_of_arbitrate {a : HostAction} (h : s.Ready) (ha : arbitrate s = some (a, t)) : step s = accept a t := by
  obtain ⟨hp, hr⟩ := h
  simp [step, not_resetDue hr, State.busy, hp, ha]

/-- Settles O22: a ready machine accepts the descriptor, and accepting it is running its instruction. -/
theorem stepRunsTheDecodedInstruction : Obligations.StepRunsTheDecodedInstruction := by
  intro s t d i hready ha hdec
  rw [step_of_arbitrate hready ha, accept_issue, exec_eq, descriptor_of_decodeDescriptor hdec]

/-! ### The invariant -/

/-- The invariant says nothing of the inputs to come, the records and the count of draws. -/
theorem State.Inv.of_inputs (h : s.Inv) (q : List (List HostAction)) (r : List Nat) (k : Nat) :
    ({ s with requesters := q, resets := r, draws := k } : State).Inv :=
  ⟨h.select, h.frame, h.status, h.result, h.latched, h.address, h.opening, h.counting, h.canonical, h.inArray, h.cycle⟩

theorem countdown_inv (h : s.Inv) : s.countdown.Inv := h.of_inputs _ _ _

theorem takeReset_inv (h : s.Inv) : (takeReset s).Inv := applyReset_inv (h.of_inputs _ _ _)

theorem tick_inv (h : s.Inv) : (tick s).Inv := by
  unfold tick
  split
  · exact takeReset_inv h
  · exact phaseStep_inv (countdown_inv h)

theorem runPhases_inv (k : Nat) (h : s.Inv) : (runPhases k s).Inv := by
  induction k generalizing s with
  | zero => exact h
  | succ k ih =>
    unfold runPhases
    split
    · exact h
    · exact ih (tick_inv h)

theorem advance_inv (h : s.Inv) (ht : advance s = .next t) : t.Inv := by
  obtain ⟨-, rfl⟩ := advance_eq_next_iff.mp ht
  exact phaseStep_inv (countdown_inv h)

/-- Outside a frame the invariant speaks of the results and the device only, so that a command may be issued (R36). -/
theorem issue_inv (hp : s.phase = .idle) (h : s.Inv) : (issue d s).Inv := by
  have hsel := h.select
  have hfr := h.frame
  rw [hp] at hsel hfr
  exact ⟨hsel, hfr, h.status, h.result, by simp [Phase.checked], by simp, by simp, by simp, h.canonical, h.inArray,
    h.cycle⟩

theorem runCommand_inv (h : s.Inv) (ht : runCommand d s = .next t) : t.Inv := by
  rcases runCommand_cases ht with rfl | hadv | ⟨hp, rfl⟩
  · exact takeReset_inv h
  · exact advance_inv h hadv
  · exact runPhases_inv _ (issue_inv hp (countdown_inv h))

/-- Time that passes while a requester waits only shortens the write cycle (R206). -/
theorem hostWait_inv (ms : Nat) (h : s.Inv) : (hostWait ms s).Inv := by
  obtain ⟨w, l, hdev, hl⟩ := Device.elapse_cases s.dev ms
  unfold hostWait
  rw [hdev]
  exact ⟨h.select, h.frame, h.status, h.result, h.latched, h.address, h.opening, h.counting, h.canonical, h.inArray,
    Nat.le_trans hl h.cycle⟩

theorem accept_inv {a : HostAction} (h : s.Inv) (ht : accept a s = .next t) : t.Inv := by
  cases a with
  | wait ms =>
    cases ht
    exact hostWait_inv ms h
  | issue d =>
    rw [accept_issue] at ht
    exact runCommand_inv h ht

/-- Taking an action off its requester keeps the invariant (R188). -/
theorem arbitrate_inv {a : HostAction} (h : s.Inv) (ha : arbitrate s = some (a, u)) : u.Inv := by
  obtain ⟨_, _, _, -, rfl⟩ := arbitrate_spec ha
  exact h.of_inputs _ _ _

/-- Settles O53: each branch of the step keeps the invariant, a reset and a host's wait included. -/
theorem everyStepKeepsTheInvariant : Obligations.EveryStepKeepsTheInvariant := by
  intro s t hinv hstep
  rcases step_cases hstep with ⟨-, rfl⟩ | ⟨-, -, hadv⟩ | ⟨-, -, -, rfl⟩ | ⟨-, -, a, u, ha, hacc⟩
  · exact takeReset_inv hinv
  · exact advance_inv hinv hadv
  · exact countdown_inv hinv
  · exact accept_inv (arbitrate_inv hinv ha) hacc

end Sys2Proof.Machine
end

section
/-! PROOFS. A machine in the middle of a command: its step is one phase, in the order of R42, and takes no command
(R37, R116). -/

namespace Sys2Proof.Machine

variable {s t u v : State}

/-- The step of a machine that is in a command with no reset to come is one phase (R37, R103). -/
theorem step_busy_next (hp : s.phase ≠ .idle) (hr : s.resets = []) (h : step s = .next t) :
    s.stuck = none ∧ t = phaseStep s := by
  rcases step_cases h with ⟨hdue, -⟩ | ⟨-, -, hadv⟩ | ⟨-, hb, -⟩ | ⟨-, hb, -⟩
  · simp [not_resetDue hr] at hdue
  · simpa [countdown_of_none hr] using advance_eq_next_iff.mp hadv
  · simp [State.busy, hp] at hb
  · simp [State.busy, hp] at hb

/-! ### The order of the phases -/

/-- A transfer leads to the phase given for its success, or to the failure path (R106 to R108). -/
theorem afterTransfer_phase (ok : Bool) (next : Phase) (v : State) :
    (afterTransfer ok next v).phase = next ∨ (afterTransfer ok next v).phase = .desel := by
  cases ok
  · exact .inr rfl
  · exact .inl rfl

/-- A data byte leads to the next one, to the end of the data or to the failure path (R109). -/
theorem afterData_phase (ok : Bool) (v : State) :
    (afterData ok v).phase = .data ∨ (afterData ok v).phase = .desel := by
  cases ok
  · exact .inr rfl
  · rw [afterData_true, goto_phase]
    split
    · exact .inr rfl
    · exact .inl rfl

theorem afterOpcode_cases (c : Command) (n : Half) :
    afterOpcode c n = .alo ∨ afterOpcode c n = .data ∨ afterOpcode c n = .desel := by
  unfold afterOpcode
  split
  · exact .inl rfl
  · split
    · exact .inr (.inl rfl)
    · exact .inr (.inr rfl)

theorem phaseCheck_phase (s : State) : (phaseCheck s).phase = .sel ∨ (phaseCheck s).phase = .idle := by
  unfold phaseCheck
  split
  · exact .inr rfl
  · split
    · exact .inl rfl
    · exact .inr rfl

theorem phaseOpc_phase {c : Command} (hc : s.command = some c) :
    (phaseOpc s).phase = .alo ∨ (phaseOpc s).phase = .data ∨ (phaseOpc s).phase = .desel := by
  simp only [phaseOpc, hc]
  rcases afterTransfer_phase s.nextOk (afterOpcode c s.n) (busTx c.opcode s) with h | h <;> rw [h]
  · exact afterOpcode_cases c s.n
  · exact .inr (.inr rfl)

theorem phaseData_phase (hp : s.phase = .data) : (phaseData s).phase = .data ∨ (phaseData s).phase = .desel := by
  unfold phaseData
  split
  · exact .inl hp
  · split
    · split <;> exact afterData_phase _ _
    · exact .inl hp

theorem phaseDone_phase {c : Command} (hc : s.command = some c) : (phaseDone s).phase = .idle := by
  simp only [phaseDone, hc]
  split <;> rfl

/-- Settles O21: a busy step is one phase, and each phase goes on where R104 to R112 say. -/
theorem phaseOrder : Obligations.PhaseOrder := by
  intro s t hinv hbusy hresets hstep
  obtain ⟨-, rfl⟩ := step_busy_next hbusy hresets hstep
  have command : s.phase.checked = true → ∃ c, s.command = some c := fun hp =>
    let ⟨c, hc, _⟩ := hinv.latched hp
    ⟨c, hc⟩
  refine ⟨?_, ?_, ?_, ?_, ?_, ?_, ?_, ?_, ?_⟩ <;> intro hp <;>
    simp only [phaseStep, hp, Phase.checked, forall_const] at command ⊢
  · exact phaseCheck_phase s
  · rfl
  · obtain ⟨c, hc⟩ := command
    exact phaseOpc_phase hc
  · exact afterTransfer_phase _ _ _
  · exact afterTransfer_phase _ _ _
  · exact phaseData_phase hp
  · rfl
  · rfl
  · obtain ⟨c, hc⟩ := command
    exact phaseDone_phase hc

/-! ### What a phase leaves unchanged -/

/-- A command goes on: its latches and the host's inputs stay, and no event but a completion is recorded for the host
(R23, R37, R38). -/
structure GoesOn (s u : State) : Prop where
  latches : LatchesKept s u
  inputs : InputsKept s u
  hostTrace : u.hostTrace = s.hostTrace ∨ ∃ status, u.hostTrace = s.hostTrace ++ [HostEvent.complete status]

theorem GoesOn.refl (s : State) : GoesOn s s := ⟨⟨rfl, rfl, rfl, rfl⟩, ⟨rfl, rfl⟩, .inl rfl⟩

theorem goesOn_complete (status : BitVec 2) (rlen : Half) (s : State) : GoesOn s (s.complete status rlen) :=
  ⟨⟨rfl, rfl, rfl, rfl⟩, ⟨rfl, rfl⟩, .inr ⟨status, rfl⟩⟩

theorem goesOn_afterTransfer (ok : Bool) (next : Phase) (b : Byte) (s : State) :
    GoesOn s (afterTransfer ok next (busTx b s)) := by
  cases ok <;> exact ⟨⟨rfl, rfl, rfl, rfl⟩, ⟨rfl, rfl⟩, .inl rfl⟩

theorem GoesOn.afterData (h : GoesOn s v) (ok : Bool) : GoesOn s (afterData ok v) := by
  cases ok <;> exact ⟨h.latches, h.inputs, h.hostTrace⟩

theorem goesOn_phaseCheck (s : State) : GoesOn s (phaseCheck s) := by
  unfold phaseCheck
  split
  · exact goesOn_complete _ _ s
  · split
    · exact ⟨⟨rfl, rfl, rfl, rfl⟩, ⟨rfl, rfl⟩, .inl rfl⟩
    · exact goesOn_complete _ _ s

theorem goesOn_phaseOpc (s : State) : GoesOn s (phaseOpc s) := by
  unfold phaseOpc
  split
  · exact .refl s
  · exact goesOn_afterTransfer _ _ _ s

theorem goesOn_phaseData (s : State) : GoesOn s (phaseData s) := by
  have sent (b : Byte) : GoesOn s (busTx b s) := ⟨⟨rfl, rfl, rfl, rfl⟩, ⟨rfl, rfl⟩, .inl rfl⟩
  have stored (ok : Bool) (b f : Byte) : GoesOn s (storeByte ok b (busRx f s)) :=
    ⟨⟨rfl, rfl, rfl, rfl⟩, ⟨rfl, rfl⟩, .inl rfl⟩
  unfold phaseData
  split
  · exact .refl s
  · split
    · split
      · exact (sent _).afterData _
      · exact (stored _ _ _).afterData _
    · exact .refl s

theorem goesOn_phaseDone (s : State) : GoesOn s (phaseDone s) := by
  unfold phaseDone
  split
  · exact .refl s
  · split <;> exact goesOn_complete _ _ s

/-- No phase writes a latch, takes an input of the host or issues a command (R23, R37). -/
theorem goesOn_phaseStep (s : State) : GoesOn s (phaseStep s) := by
  unfold phaseStep
  split
  case h_1 => exact .refl s
  case h_2 => exact goesOn_phaseCheck s
  case h_4 => exact goesOn_phaseOpc s
  case h_5 => exact goesOn_afterTransfer _ _ _ s
  case h_6 => exact goesOn_afterTransfer _ _ _ s
  case h_7 => exact goesOn_phaseData s
  case h_10 => exact goesOn_phaseDone s
  all_goals exact ⟨⟨rfl, rfl, rfl, rfl⟩, ⟨rfl, rfl⟩, .inl rfl⟩

theorem GoesOn.issued {d : Descriptor} (h : GoesOn s t) (hd : HostEvent.issue d ∈ t.hostTrace) :
    HostEvent.issue d ∈ s.hostTrace := by
  rcases h.hostTrace with he | ⟨status, he⟩ <;> simpa [he] using hd

/-- An instruction presented to a busy machine waits: the command in progress goes on (R37). -/
theorem exec_busy (i : Instr) (hp : s.phase ≠ .idle) (hr : s.resets = []) : exec i s = step s := by
  simp [exec_eq, runCommand, step, not_resetDue hr, State.busy, hp]

/-- Settles O23: the step of a busy machine is one phase of the command in progress, whatever is presented. -/
theorem busyMachineTakesNoCommand : Obligations.BusyMachineTakesNoCommand := by
  intro s t hbusy hresets hstep
  have hexec (i : Instr) : exec i s = .next t := (exec_busy i hbusy hresets).trans hstep
  obtain ⟨-, rfl⟩ := step_busy_next hbusy hresets hstep
  have hgoes := goesOn_phaseStep s
  exact ⟨hgoes.inputs.1, hgoes.latches, hexec, fun _ => hgoes.issued⟩

end Sys2Proof.Machine
end

section
/-! PROOFS. A command on any bus: what it leaves of RBUF, and how it ends (R27, R38, R112). -/

namespace Sys2Proof.Machine

variable {s t : State}

theorem instrValid_eq (i : Instr) :
    instrValid i = commandCheck Config.pageSize i.operands.addr i.operands.len i.command := by
  simp [instrValid, Instr.descriptor]

/-- An instruction that passes its check, whatever the bus reports: how its frame ends (R104 to R112). -/
theorem exec_valid {i : Instr} (h : s.Ready) (hv : instrValid i = true) :
    ∃ oracle t, exec i s = .next t ∧
      FrameEnds i.command (frameTransfers i.operands i.command) oracle (openedFrame i.command i.operands s) t := by
  obtain ⟨oracle, -, t, hrun, hends⟩ := runCommand_any h (instrValid_eq i ▸ hv)
  exact ⟨oracle, t, (exec_eq i s).trans hrun, hends⟩

/-- An instruction that fails its check is issued and completes with InvalidArgument (R172). -/
theorem exec_invalid {i : Instr} (h : s.Ready) (hv : instrValid i = false) :
    exec i s = .next (raiseException statusInvalidArgument (issue i.descriptor s)) :=
  (exec_eq i s).trans (runCommand_invalid h hv)

/-- Settles O41: a command that fails its check transfers nothing, and in a frame only data clocked in go to RBUF. -/
theorem onlyReadsWriteRbuf : Obligations.OnlyReadsWriteRbuf := by
  intro i s t hdir hready hexec
  cases hv : instrValid i with
  | false =>
    rw [exec_invalid hready hv] at hexec
    cases hexec
    rfl
  | true =>
    obtain ⟨oracle, u, hrun, hends⟩ := exec_valid hready hv
    rw [hrun] at hexec
    cases hexec
    exact hends.rbufKept hdir

/-- Settles O42: the ending of the command's frame, with the STATUS read off whether a transfer failed. -/
theorem validCommandEndsIdle : Obligations.ValidCommandEndsIdle := by
  intro i s hready hv
  obtain ⟨oracle, t, hrun, hends⟩ := exec_valid hready hv
  obtain ⟨hkind, haddr, hlen, hwbuf⟩ := hends.latches
  obtain ⟨hreq, hres⟩ := hends.inputs
  refine ⟨t, hrun, ⟨hends.phase, hends.csN, hkind, haddr, hlen, hwbuf, hends.n, hreq, hres⟩, ?_, ?_⟩
  · rw [AddedHostTrace, hends.hostTrace]
    simp [openedFrame, Instr.descriptor]
  · rw [hends.status, hends.err, hends.rlen]
    cases (runTransfers oracle (frameTransfers i.operands i.command)).failed
    · refine ⟨.inl rfl, by decide, ?_⟩
      cases hd : i.command.dir <;> simp [resultLength, hd, openedFrame]
    · exact ⟨.inr rfl, by decide, rfl⟩

end Sys2Proof.Machine
end

section
/-! PROOFS. Two machines before the same device and bus run a command alike (R20): no phase reads what earlier commands
left, and the result of a command is read off the events of its transfers. -/

namespace Sys2Proof.Machine

variable {a b : List Event} {s t : State}

/-! ### Two runs in step -/

/-- Two machines at the same place of the same command before the same device and bus, one having added to the trace
`a` what the other added to `b`. RBUF, STATUS, RLEN and the host's side may differ. -/
structure InStep (a b : List Event) (s t : State) : Prop where
  world : SameWorld s t
  latches : LatchesKept s t
  phase : t.phase = s.phase
  n : t.n = s.n
  idx : t.idx = s.idx
  err : t.err = s.err
  trace : ∃ e, s.trace = a ++ e ∧ t.trace = b ++ e

theorem SameWorld.nextOk_eq (h : SameWorld s t) : t.nextOk = s.nextOk := by
  obtain ⟨-, hoks, hdraws⟩ := h
  rw [State.nextOk, State.nextOk, hoks, hdraws]

theorem SameWorld.okTaken_draws_eq (h : SameWorld s t) : t.okTaken.draws = s.okTaken.draws := by
  obtain ⟨-, hoks, hdraws⟩ := h
  simp [hoks, hdraws]

theorem SameWorld.nextByte_eq (h : SameWorld s t) : t.nextByte = s.nextByte := by
  rw [Machine.nextByte_eq, Machine.nextByte_eq, h.okTaken_draws_eq, h.1]

theorem SameWorld.busTx (h : SameWorld s t) (x : Byte) : SameWorld (busTx x s) (busTx x t) := by
  have hdraws := h.okTaken_draws_eq
  have hok := h.nextOk_eq
  obtain ⟨hdev, hoks, -⟩ := h
  refine ⟨?_, ?_, ?_⟩
  · rw [busTx_dev, busTx_dev, hdev, hdraws, hok]
  · rw [busTx_oks, busTx_oks, hoks]
  · rw [busTx_draws, busTx_draws, hdraws, hok]

theorem SameWorld.busRx (h : SameWorld s t) (f : Byte) : SameWorld (busRx f s) (busRx f t) := by
  have hdraws := h.okTaken_draws_eq
  have hok := h.nextOk_eq
  obtain ⟨hdev, hoks, -⟩ := h
  refine ⟨?_, ?_, ?_⟩
  · rw [busRx_dev, busRx_dev, hdev, hdraws, hok]
  · rw [busRx_oks, busRx_oks, hoks]
  · rw [busRx_draws, busRx_draws, hdraws, hok]

namespace InStep

theorem command_eq (h : InStep a b s t) : t.command = s.command := congrArg Command.ofKind h.latches.1

theorem trace_append (h : InStep a b s t) (x : Event) :
    ∃ e, s.trace ++ [x] = a ++ e ∧ t.trace ++ [x] = b ++ e := by
  obtain ⟨e, hs, ht⟩ := h.trace
  exact ⟨e ++ [x], by rw [hs, List.append_assoc], by rw [ht, List.append_assoc]⟩

theorem goto (h : InStep a b s t) (p : Phase) : InStep a b (s.goto p) (t.goto p) :=
  ⟨h.world, h.latches, rfl, h.n, h.idx, h.err, h.trace⟩

theorem failTransfer (h : InStep a b s t) : InStep a b (failTransfer s) (failTransfer t) :=
  ⟨h.world, h.latches, rfl, h.n, h.idx, rfl, h.trace⟩

theorem complete (h : InStep a b s t) (status : BitVec 2) (rlen : Half) :
    InStep a b (s.complete status rlen) (t.complete status rlen) :=
  ⟨h.world, h.latches, rfl, h.n, h.idx, h.err, h.trace⟩

theorem busTx (h : InStep a b s t) (x : Byte) : InStep a b (busTx x s) (busTx x t) := by
  refine ⟨h.world.busTx x, h.latches, h.phase, h.n, h.idx, h.err, ?_⟩
  rw [busTx_trace, busTx_trace, h.world.nextOk_eq]
  exact h.trace_append _

theorem busRx (h : InStep a b s t) (f : Byte) : InStep a b (busRx f s) (busRx f t) := by
  refine ⟨h.world.busRx f, h.latches, h.phase, h.n, h.idx, h.err, ?_⟩
  rw [busRx_trace, busRx_trace, h.world.nextOk_eq, h.world.nextByte_eq]
  exact h.trace_append _

theorem storeByte (h : InStep a b s t) (ok : Bool) (x : Byte) : InStep a b (storeByte ok x s) (storeByte ok x t) :=
  ⟨h.world, h.latches, h.phase, h.n, h.idx, h.err, h.trace⟩

theorem afterTransfer (h : InStep a b s t) (ok : Bool) (next : Phase) :
    InStep a b (afterTransfer ok next s) (afterTransfer ok next t) := by
  cases ok
  · exact h.failTransfer
  · exact h.goto next

theorem afterData (h : InStep a b s t) (ok : Bool) : InStep a b (afterData ok s) (afterData ok t) := by
  cases ok
  · exact h.failTransfer
  · refine ⟨h.world, h.latches, ?_, h.n, congrArg (· + 1#16) h.idx, h.err, h.trace⟩
    simp only [afterData_true, goto_phase, h.idx, h.n]

/-! ### Each phase keeps two machines in step -/

theorem phaseCheck (h : InStep a b s t) : InStep a b (phaseCheck s) (phaseCheck t) := by
  obtain ⟨hkind, haddr, hlen, hwbuf⟩ := h.latches
  simp only [Machine.phaseCheck, h.command_eq, hkind, haddr, hlen]
  split
  · exact h.complete _ _
  · split
    · exact ⟨h.world, ⟨rfl, rfl, rfl, hwbuf⟩, rfl, rfl, h.idx, h.err, h.trace⟩
    · exact h.complete _ _

theorem phaseSel (h : InStep a b s t) : InStep a b (phaseSel s) (phaseSel t) := by
  obtain ⟨hdev, hoks, hdraws⟩ := h.world
  exact ⟨⟨congrArg Device.select hdev, hoks, hdraws⟩, h.latches, rfl, h.n, rfl, rfl, h.trace_append _⟩

theorem phaseOpc (h : InStep a b s t) : InStep a b (phaseOpc s) (phaseOpc t) := by
  simp only [Machine.phaseOpc, h.command_eq, h.n, h.world.nextOk_eq]
  split
  · exact h
  · exact (h.busTx _).afterTransfer _ _

theorem phaseAlo (h : InStep a b s t) : InStep a b (phaseAlo s) (phaseAlo t) := by
  obtain ⟨-, haddr, -⟩ := h.latches
  rw [Machine.phaseAlo, Machine.phaseAlo, haddr, h.world.nextOk_eq]
  exact (h.busTx _).afterTransfer _ _

theorem phaseAhi (h : InStep a b s t) : InStep a b (phaseAhi s) (phaseAhi t) := by
  obtain ⟨-, haddr, -⟩ := h.latches
  rw [Machine.phaseAhi, Machine.phaseAhi, haddr, h.world.nextOk_eq]
  exact (h.busTx _).afterTransfer _ _

theorem phaseData (h : InStep a b s t) : InStep a b (phaseData s) (phaseData t) := by
  obtain ⟨-, -, -, hwbuf⟩ := h.latches
  simp only [Machine.phaseData, h.command_eq, h.idx, h.n, hwbuf, h.world.nextOk_eq, h.world.nextByte_eq]
  split
  · exact h
  · split
    · split
      · exact (h.busTx _).afterData _
      · exact ((h.busRx _).storeByte _ _).afterData _
    · exact h

theorem phaseDesel (h : InStep a b s t) : InStep a b (phaseDesel s) (phaseDesel t) := by
  obtain ⟨hdev, hoks, hdraws⟩ := h.world
  refine ⟨⟨?_, hoks, congrArg (· + 1) hdraws⟩, h.latches, rfl, h.n, h.idx, h.err, h.trace_append _⟩
  change s.dev.deselect s.draws = t.dev.deselect t.draws
  rw [hdev, hdraws]

theorem phaseSettle (h : InStep a b s t) : InStep a b (phaseSettle s) (phaseSettle t) := by
  obtain ⟨hdev, hoks, hdraws⟩ := h.world
  exact ⟨⟨congrArg (Device.elapse Config.tSettleMs) hdev, hoks, hdraws⟩, h.latches, rfl, h.n, h.idx, h.err,
    h.trace_append _⟩

theorem phaseDone (h : InStep a b s t) : InStep a b (phaseDone s) (phaseDone t) := by
  simp only [Machine.phaseDone, h.command_eq, h.err, h.n]
  split
  · exact h
  · split <;> exact h.complete _ _

theorem phaseStep (h : InStep a b s t) : InStep a b (phaseStep s) (phaseStep t) := by
  rw [Machine.phaseStep, Machine.phaseStep, h.phase]
  cases s.phase with
  | idle => exact h
  | check => exact h.phaseCheck
  | sel => exact h.phaseSel
  | opc => exact h.phaseOpc
  | alo => exact h.phaseAlo
  | ahi => exact h.phaseAhi
  | data => exact h.phaseData
  | desel => exact h.phaseDesel
  | settle => exact h.phaseSettle
  | done => exact h.phaseDone

/-- Two machines in step stay so for any number of phases, with no reset to come. -/
theorem runPhases (k : Nat) (h : InStep a b s t) (hs : s.resets = []) (ht : t.resets = []) :
    InStep a b (runPhases k s) (runPhases k t) := by
  induction k generalizing s t with
  | zero => exact h
  | succ k ih =>
    by_cases hp : s.phase = .idle
    · rw [runPhases_idle _ hp, runPhases_idle _ (h.phase.trans hp)]
      exact h
    · rw [runPhases_succ _ hp hs, runPhases_succ _ (h.phase ▸ hp) ht]
      exact ih h.phaseStep ((goesOn_phaseStep s).inputs.2.trans hs) ((goesOn_phaseStep t).inputs.2.trans ht)

end InStep

/-! ### The result of a command, read off its transfers -/

theorem Transfer.event_inj {tr : Transfer} {x y : Byte} {p q : Bool} (h : tr.event x p = tr.event y q) :
    p = q ∧ tr.received x = tr.received y := by
  cases tr with
  | send z => simpa [Transfer.event, Transfer.received] using h
  | receive => simpa [Transfer.event, Transfer.received, and_comm] using h

/-- Transfers that left the same events failed and received alike. -/
theorem runTransfers_eq_of_events {R : List Transfer} {f g : Nat → Byte × Bool}
    (h : (runTransfers f R).events = (runTransfers g R).events) : runTransfers f R = runTransfers g R := by
  induction R generalizing f g with
  | nil => rfl
  | cons tr R ih =>
    unfold runTransfers at h ⊢
    cases hf : (f 0).2 <;> cases hg : (g 0).2 <;>
      simp only [hf, hg, Bool.false_eq_true, if_false, if_true, List.cons.injEq] at h ⊢
    · rw [h.1]
    · exact absurd (Transfer.event_inj h.1).1 (by decide)
    · exact absurd (Transfer.event_inj h.1).1 (by decide)
    · rw [h.1, ih h.2, (Transfer.event_inj h.1).2]

/-- Transfers that all succeeded received one byte for each transfer in. -/
theorem runTransfers_received_length {R : List Transfer} {f : Nat → Byte × Bool}
    (h : (runTransfers f R).failed = false) : (runTransfers f R).received.length = R.count .receive := by
  induction R generalizing f with
  | nil => rfl
  | cons tr R ih =>
    unfold runTransfers at h ⊢
    cases hf : (f 0).2 <;> simp only [hf, Bool.false_eq_true, if_false, if_true, Bool.true_eq_false] at h ⊢
    rw [List.length_append, ih h]
    cases tr with
    | send x => simp [Transfer.received]
    | receive => simp [Transfer.received, Nat.add_comm]

/-- A frame that reads receives NData bytes (R81, R86). -/
theorem count_receive_frameTransfers {c : Command} (o : Operands) (hd : c.dir = .inward) :
    (frameTransfers o c).count .receive = (c.nData o.len).toNat := by
  have header : ((c.header o.addr).map Transfer.send).count .receive = 0 := by
    simp [List.count_eq_zero]
  rw [frameTransfers_eq, List.count_append, header, Nat.zero_add]
  simp [dataTransfers, hd]

/-- RBUF below RLEN holds the bytes the frame received (R27, R29). -/
theorem FrameEnds.rbuf_received {c : Command} {o : Operands} {oracle : Nat → Byte × Bool} {k : Nat}
    (hv : commandCheck Config.pageSize o.addr o.len c = true)
    (h : FrameEnds c (frameTransfers o c) oracle (openedFrame c o s) t) (hk : k < t.rlen.toNat) :
    t.rbuf[k]? = (runTransfers oracle (frameTransfers o c)).received[k]? := by
  rw [h.rlen] at hk
  cases hf : (runTransfers oracle (frameTransfers o c)).failed with
  | true => simp [hf] at hk
  | false =>
    simp only [hf, Bool.false_eq_true, if_false] at hk
    cases hd : c.dir with
    | out => simp [resultLength, hd] at hk
    | none => simp [resultLength, hd] at hk
    | inward =>
      have hkn : k < (c.nData o.len).toNat := by simpa [resultLength, hd, openedFrame] using hk
      obtain ⟨hpage, -⟩ := commandCheck_bounds hv
      refine (h.rbuf hd k (by omega)).2 k (by simp [openedFrame]) ?_
      rwa [runTransfers_received_length hf, count_receive_frameTransfers o hd]

/-! ### Two runs of one instruction -/

/-- A valid command is in its frame after CHECK and SEL (R104, R105). -/
theorem runCommand_opened {c : Command} {o : Operands} (h : s.Ready)
    (hv : commandCheck Config.pageSize o.addr o.len c = true) :
    runCommand { kind := c.kind, operands := o } s = .next (runPhases (Config.pageSize + 6) (openedFrame c o s)) := by
  rw [runCommand_ready _ h, longestCommand, runPhases_succ _ (by simp) (by simpa using h.2),
    phaseStep_check_valid (c := c) rfl rfl (by simpa using hv),
    runPhases_succ _ (by simp) (by simpa using h.2), phaseStep_sel rfl]
  simp [openedFrame, issue, State.goto, State.record]

theorem inStep_openedFrame (h : SameWorld s t) (c : Command) (o : Operands) :
    InStep s.trace t.trace (openedFrame c o s) (openedFrame c o t) := by
  obtain ⟨hdev, hoks, hdraws⟩ := h
  exact ⟨⟨congrArg Device.select hdev, hoks, hdraws⟩, ⟨rfl, rfl, rfl, rfl⟩, rfl, rfl, rfl, rfl, [Event.sel], rfl, rfl⟩

/-- Two runs of a valid instruction stay in step to their end. -/
theorem exec_valid_inStep {i : Instr} {s' t' : State} (hs : s.Ready) (ht : t.Ready) (hw : SameWorld s t)
    (hv : instrValid i = true) (hs' : exec i s = .next s') (ht' : exec i t = .next t') :
    InStep s.trace t.trace s' t' := by
  rw [instrValid_eq] at hv
  have hrun := (inStep_openedFrame hw i.command i.operands).runPhases (Config.pageSize + 6) hs.2 ht.2
  rw [exec_eq, Instr.descriptor, runCommand_opened hs hv] at hs'
  rw [exec_eq, Instr.descriptor, runCommand_opened ht hv] at ht'
  cases hs'
  cases ht'
  exact hrun

/-- Settles O49: a command that fails its check reads its descriptor only; the runs of a valid one stay in step, so that
their transfers leave the same events, from which the results are read. -/
theorem commandsAreStateless : Obligations.CommandsAreStateless := by
  intro i s t hs ht hw
  cases hv : instrValid i with
  | false =>
    exact ⟨_, _, [], exec_invalid hs hv, exec_invalid ht hv, (List.append_nil _).symm, (List.append_nil _).symm, rfl, rfl,
      fun _ hk => absurd hk (Nat.not_lt_zero _), hw⟩
  | true =>
    obtain ⟨f, s', hs', hsends⟩ := exec_valid hs hv
    obtain ⟨g, t', ht', htends⟩ := exec_valid ht hv
    have hstep := exec_valid_inStep hs ht hw hv hs' ht'
    obtain ⟨e, hse, hte⟩ := hstep.trace
    have hf := hsends.trace
    have hg := htends.trace
    rw [hse] at hf
    rw [hte] at hg
    have hruns : runTransfers f (frameTransfers i.operands i.command) =
        runTransfers g (frameTransfers i.operands i.command) := by
      apply runTransfers_eq_of_events
      simp only [openedFrame, List.append_assoc, List.append_cancel_left_eq] at hf hg
      simpa using hf.symm.trans hg
    have hrlen : s'.rlen = t'.rlen := by rw [hsends.rlen, htends.rlen, hruns]; rfl
    refine ⟨s', t', e, hs', ht', hse, hte, ?_, hrlen, fun k hk => ?_, hstep.world⟩
    · rw [hsends.status, htends.status, hruns]
    · rw [instrValid_eq] at hv
      rw [hsends.rbuf_received hv hk, htends.rbuf_received hv (hrlen ▸ hk), hruns]

end Sys2Proof.Machine
end

section
/-! PROOFS. Pages: which addresses share one, and the ranges that stay in one (R53, R54). -/

namespace Sys2Proof.Machine

variable {pageSize a n : Nat}

/-- An address `k` further on lies in the same page exactly while the offset stays below the page size. -/
theorem pageOf_add_eq_iff (a k : Nat) (h : 0 < pageSize) :
    pageOf pageSize (a + k) = pageOf pageSize a ↔ offsetOf pageSize a + k < pageSize := by
  have hsplit : a + k = offsetOf pageSize a + k + pageSize * pageOf pageSize a := by
    have := Nat.mod_add_div a pageSize
    simp only [offsetOf, pageOf]
    omega
  calc pageOf pageSize (a + k) = pageOf pageSize a
    _ ↔ (offsetOf pageSize a + k) / pageSize + pageOf pageSize a = pageOf pageSize a := by
        rw [hsplit, pageOf, Nat.add_mul_div_left _ _ h]
    _ ↔ offsetOf pageSize a + k < pageSize := by rw [Nat.add_eq_right, Nat.div_eq_zero_iff_lt h]

theorem crosses_eq_true_iff : crosses pageSize a n = true ↔ pageSize < offsetOf pageSize a + n := decide_eq_true_iff

theorem crosses_eq_false_iff : crosses pageSize a n = false ↔ offsetOf pageSize a + n ≤ pageSize := by
  rw [crosses, decide_eq_false_iff_not, Nat.not_lt]

/-- A range crosses exactly when its first and its last byte lie in different pages (R54). -/
theorem crosses_iff_pageOf_last (h : 0 < pageSize) (hn : 1 ≤ n) :
    crosses pageSize a n = true ↔ pageOf pageSize a ≠ pageOf pageSize (a + n - 1) := by
  rw [crosses_eq_true_iff, ne_comm, Nat.add_sub_assoc hn, ne_eq, pageOf_add_eq_iff a (n - 1) h]
  omega

/-- Every byte of a range that does not cross lies in the page of its first byte (R54). -/
theorem pageOf_eq_of_not_crosses {x : Nat} (h : 0 < pageSize) (hc : crosses pageSize a n = false) (hax : a ≤ x)
    (hx : x < a + n) : pageOf pageSize x = pageOf pageSize a := by
  obtain ⟨k, rfl⟩ := Nat.exists_eq_add_of_le hax
  rw [crosses_eq_false_iff] at hc
  exact (pageOf_add_eq_iff a k h).mpr (by omega)

/-- Settles O3: the formula is the definition of `crosses`, and the range's last byte decides it. -/
theorem crossesMeansTwoPages : Obligations.CrossesMeansTwoPages := by
  refine ⟨fun pageSize a n hpos hn => ⟨crosses_eq_true_iff, crosses_iff_pageOf_last hpos hn⟩, ?_,
    by decide, by decide, by decide, by decide⟩
  intro a n _ hc
  have haddr := a.isLt
  simp only [crosses_eq_false_iff, offsetOf, Config.pageSize] at hc
  omega

/-- A page whose size is a power of two ends inside the 16-bit space (R53). -/
theorem page_end_le {bits : Nat} (hb : bits ≤ 15) (ha : a < 65536) :
    pageOf (2 ^ bits) a * 2 ^ bits + 2 ^ bits ≤ 65536 := by
  have hpages : 2 ^ (16 - bits) * 2 ^ bits = 65536 := by
    rw [← Nat.pow_add, Nat.sub_add_cancel (by omega)]
  have hpage : pageOf (2 ^ bits) a < 2 ^ (16 - bits) := Nat.div_lt_of_lt_mul (by rw [Nat.mul_comm]; omega)
  calc pageOf (2 ^ bits) a * 2 ^ bits + 2 ^ bits
    _ = (pageOf (2 ^ bits) a + 1) * 2 ^ bits := (Nat.succ_mul _ _).symm
    _ ≤ 2 ^ (16 - bits) * 2 ^ bits := Nat.mul_le_mul_right _ hpage
    _ = 65536 := hpages

/-- Settles O2: page and offset are quotient and remainder, and a page size 2^bits divides 65536. -/
theorem pagesTileTheAddressSpace : Obligations.PagesTileTheAddressSpace := by
  refine ⟨fun bits a hb ha => ⟨Nat.mod_lt _ (Nat.two_pow_pos bits), Nat.div_add_mod' a _, page_end_le hb ha⟩,
    fun a => ?_, fun a p => ?_, by decide⟩
  · rw [BitVec.extractLsb'_toNat, Nat.shiftRight_zero, offsetOf]
  · simp only [pageOf, Config.pageSize]
    omega

end Sys2Proof.Machine
end

section
/-! PROOFS. The write cycle: the settle delay of the frame that starts it is over before a frame can start again
(R63, R67). -/

namespace Sys2Proof.Machine

variable {s t : State}

/-- Within a frame and its settle delay nothing is asked of the write cycle but its bound. -/
theorem settled_of_selected_or_settle (hleft : s.dev.cycleLeft ≤ Config.tWcMs)
    (hp : s.phase.selected = true ∨ s.phase = .settle) : s.Settled := by
  refine ⟨hleft, fun hfree => ?_⟩
  rcases hfree with h | h | h | h <;> simp [h, Phase.selected] at hp

theorem settled_of_quiet (hleft : s.dev.cycleLeft ≤ Config.tWcMs) (hq : s.dev.wip = false) : s.Settled :=
  ⟨hleft, fun _ => hq⟩

/-- A transfer that goes on within the frame, or fails it, leaves the write cycle alone (R106 to R108). -/
theorem afterTransfer_settled (h : s.Settled) (ok : Bool) {next : Phase} (hnext : next.selected = true) (b : Byte) :
    (afterTransfer ok next (busTx b s)).Settled := by
  cases ok
  · exact settled_of_selected_or_settle h.1 (.inl rfl)
  · exact settled_of_selected_or_settle h.1 (.inl hnext)

/-- A data byte leaves the write cycle alone (R109). -/
theorem afterData_settled (hleft : s.dev.cycleLeft ≤ Config.tWcMs) (ok : Bool) : (afterData ok s).Settled := by
  have hdev : (afterData ok s).dev = s.dev := by cases ok <;> rfl
  refine settled_of_selected_or_settle (hdev ▸ hleft) (.inl ?_)
  rcases afterData_phase ok s with hp | hp <;> rw [hp] <;> rfl

theorem phaseCheck_settled (h : s.Settled) (hp : s.phase = .check) : (phaseCheck s).Settled := by
  have hq : s.dev.wip = false := h.2 (.inr (.inl hp))
  unfold phaseCheck
  split
  · exact settled_of_quiet h.1 hq
  · split <;> exact settled_of_quiet h.1 hq

theorem phaseOpc_settled (h : s.Settled) : (phaseOpc s).Settled := by
  unfold phaseOpc
  split
  · exact h
  · next c _ =>
    refine afterTransfer_settled h _ ?_ _
    rcases afterOpcode_cases c s.n with hnext | hnext | hnext <;> rw [hnext] <;> rfl

theorem phaseData_settled (h : s.Settled) : (phaseData s).Settled := by
  unfold phaseData
  split
  · exact h
  · split
    · split
      · exact afterData_settled (s := busTx _ s) h.1 _
      · exact afterData_settled (s := storeByte _ _ (busRx _ s)) h.1 _
    · exact h

theorem phaseDesel_settled (h : s.Settled) : (phaseDesel s).Settled := by
  refine settled_of_selected_or_settle ?_ (.inr rfl)
  change (s.dev.deselect s.draws).cycleLeft ≤ Config.tWcMs
  unfold Device.deselect
  split
  · exact h.1
  · exact Device.endFrame_cycle _ _ h.1

/-- The settle delay ends the write cycle that its frame may have started (R63, R67, R111). -/
theorem phaseSettle_settled (h : s.Settled) : (phaseSettle s).Settled := by
  have hdev : (phaseSettle s).dev = s.dev.elapse Config.tSettleMs := rfl
  rw [Device.elapse_settled h.1] at hdev
  exact settled_of_quiet (by simp [hdev]) (by simp [hdev])

theorem phaseDone_settled (h : s.Settled) (hp : s.phase = .done) : (phaseDone s).Settled := by
  have hq : s.dev.wip = false := h.2 (.inr (.inr (.inr hp)))
  unfold phaseDone
  split
  · exact h
  · split <;> exact settled_of_quiet h.1 hq

/-- Every phase keeps the device settled (R103 to R112). -/
theorem phaseStep_settled (h : s.Settled) : (phaseStep s).Settled := by
  cases hp : s.phase <;> simp only [phaseStep, hp]
  case idle => exact h
  case check => exact phaseCheck_settled h hp
  case sel => exact settled_of_selected_or_settle h.1 (.inl rfl)
  case opc => exact phaseOpc_settled h
  case alo => exact afterTransfer_settled h _ rfl _
  case ahi => exact afterTransfer_settled h _ rfl _
  case data => exact phaseData_settled h
  case desel => exact phaseDesel_settled h
  case settle => exact phaseSettle_settled h
  case done => exact phaseDone_settled h hp

theorem runPhases_settled (k : Nat) (hr : s.resets = []) (h : s.Settled) : (runPhases k s).Settled := by
  induction k generalizing s with
  | zero => exact h
  | succ k ih =>
    by_cases hp : s.phase = .idle
    · rwa [runPhases_idle _ hp]
    · rw [runPhases_succ k hp hr]
      exact ih ((goesOn_phaseStep s).inputs.2.trans hr) (phaseStep_settled h)

/-- Time that passes while a requester waits never starts a write cycle (R206). -/
theorem Device.elapse_wip_of_quiet {d : Device} (ms : Nat) (h : d.wip = false) : (d.elapse ms).wip = false := by
  unfold Device.elapse
  split
  · rfl
  · exact h

theorem accept_settled {a : HostAction} (hready : s.Ready) (h : s.Settled) (ht : accept a s = .next t) : t.Settled := by
  have hq : s.dev.wip = false := h.2 (.inl hready.1)
  cases a with
  | wait ms =>
    cases ht
    obtain ⟨w, l, hdev, hl⟩ := Device.elapse_cases s.dev ms
    refine settled_of_quiet ?_ (Device.elapse_wip_of_quiet ms hq)
    simp only [hostWait, hdev]
    exact Nat.le_trans hl h.1
  | issue d =>
    rw [accept_issue, runCommand_ready d hready] at ht
    cases ht
    exact runPhases_settled _ hready.2 (settled_of_quiet h.1 hq)

/-- Settles O55: every phase keeps the device settled, the settle delay ending the cycle that a deselect edge may have
started; an idle step runs the phases of a command, waits, or does nothing. -/
theorem noFrameStartsInAWriteCycle : Obligations.NoFrameStartsInAWriteCycle := by
  intro s t _ hsettled hr hstep
  rcases step_cases hstep with ⟨hdue, -⟩ | ⟨-, -, hadv⟩ | ⟨-, -, -, rfl⟩ | ⟨-, hbusy, a, u, ha, hacc⟩
  · simp [not_resetDue hr] at hdue
  · obtain ⟨-, rfl⟩ := advance_eq_next_iff.mp hadv
    exact phaseStep_settled hsettled
  · exact hsettled
  · have hidle : s.phase = .idle := by simpa [State.busy] using hbusy
    obtain ⟨_, _, _, -, hu⟩ := arbitrate_spec ha
    have hready : u.Ready := by rw [hu]; exact ⟨hidle, hr⟩
    have husettled : u.Settled := by rw [hu]; exact hsettled
    exact accept_settled hready husettled hacc

end Sys2Proof.Machine
end

section
/-! PROOFS. What the frame of a command can do to the device, whatever the bus reports: the bytes the device took and
their effect at the deselect edge (R57 to R63, R173). -/

namespace Sys2Proof.Machine

variable {s t : State} {d : Device} {f : DeviceFrame} {c : Command} {o : Operands}

/-! ### What an update of the device leaves of the array -/

@[simp] theorem Device.cell_afterWrite (d : Device) (x : Nat) : d.afterWrite.cell x = d.cell x := rfl

@[simp] theorem Device.cell_afterUndefinedWrite (d : Device) (draw x : Nat) :
    (d.afterUndefinedWrite draw).cell x = d.cell x := rfl

/-- Time changes no byte of the array, nor the latch or the status register (R63). -/
theorem Device.elapse_keeps (d : Device) (ms : Nat) :
    (∀ x, (d.elapse ms).cell x = d.cell x) ∧ (d.elapse ms).wel = d.wel ∧ (d.elapse ms).sr = d.sr := by
  obtain ⟨w, l, he, -⟩ := Device.elapse_cases d ms
  rw [he]
  exact ⟨fun _ => rfl, rfl, rfl⟩

theorem Device.deselect_of_frame (h : d.frame = some f) (draw : Nat) :
    d.deselect draw = { d.endFrame draw f with frame := none } := by
  rw [Device.deselect, h]

/-! ### Effects of a frame that did not start in a write cycle -/

/-- A frame that reads, or holds no byte, has no effect (R57, R59, R61). -/
theorem Device.endFrame_of_read (draw : Nat) (hc : f.inCycle = false)
    (hop : ∀ b ∈ f.bytes.head?, b = 0x03#8 ∨ b = 0x05#8) : d.endFrame draw f = d := by
  unfold Device.endFrame
  cases hb : f.bytes with
  | nil => simp [hc]
  | cons op rest => rcases hop op (by simp [hb]) with rfl | rfl <;> simp [hc]

/-- A WRSR frame changes no byte of the array (R62). -/
theorem Device.cell_endWrsr (d : Device) (draw x : Nat) : (d.endWrsr draw).cell x = d.cell x := by
  unfold Device.endWrsr
  split <;> rfl

/-- Only a WRITE frame changes a byte of the array (R58 to R62). -/
theorem Device.cell_endFrame_of_not_write (draw x : Nat) (hc : f.inCycle = false)
    (hop : 0x02#8 ∉ f.bytes.head?) : (d.endFrame draw f).cell x = d.cell x := by
  unfold Device.endFrame
  cases hb : f.bytes with
  | nil => simp [hc]
  | cons op rest =>
    have hop : op ≠ 0x02#8 := by simpa [hb] using hop
    simp only [hc, hop, Bool.false_eq_true, if_false]
    split
    · rfl
    · split
      · split <;> rfl
      · split
        · split <;> rfl
        · split
          · split
            · exact Device.cell_endWrsr d draw x
            · rfl
          · rfl

/-- A write whose header arrived changes no byte outside the page of its address, whether it takes effect or is
device-defined (R60). -/
theorem Device.cell_endWrite_outside (draw : Nat) (cut : Bool) {lo hi : Byte} (data : List Byte) {x : Nat}
    (hx : pageOf Config.pageSize x ≠ pageOf Config.pageSize (joinBytes lo hi).toNat) :
    (d.endWrite draw cut (lo :: hi :: data)).cell x = d.cell x := by
  unfold Device.endWrite
  split
  · rfl
  · simp only
    split
    · next h =>
      obtain ⟨-, -, hcrosses, -⟩ := h
      rw [Device.cell_afterWrite, Device.cell_writeBytes, dif_neg]
      exact fun ⟨hle, hlt⟩ => hx (pageOf_eq_of_not_crosses (by decide) hcrosses hle hlt)
    · rw [Device.cell_afterUndefinedWrite, Device.cell_scramblePage hx]

/-- A frame that starts as a write and holds its header changes no byte outside the page of its address. -/
theorem Device.cell_endFrame_outside (draw : Nat) {lo hi : Byte} {data : List Byte} {x : Nat} (hc : f.inCycle = false)
    (hb : f.bytes = 0x02#8 :: lo :: hi :: data)
    (hx : pageOf Config.pageSize x ≠ pageOf Config.pageSize (joinBytes lo hi).toNat) :
    (d.endFrame draw f).cell x = d.cell x := by
  simp only [Device.endFrame, hc, hb, Bool.false_eq_true, if_false, if_true]
  exact Device.cell_endWrite_outside draw _ data hx

/-! ### The bytes of a frame that reach the device -/

@[simp] theorem bytesOut_sent_append (l : List Byte) (es : List Event) :
    bytesOut (sent l ++ es) = l ++ bytesOut es := by
  induction l with
  | nil => rfl
  | cons b l ih => simpa [bytesOut, sent, Event.byteOut] using ih

/-- The first transfer of a frame leaves its event, whatever the bus reports. -/
theorem runTransfers_send_events (oracle : Nat → Byte × Bool) (b : Byte) (R : List Transfer) :
    ∃ ok es, (runTransfers oracle (.send b :: R)).events = .tx b ok :: es := by
  unfold runTransfers
  simp only
  split
  · exact ⟨_, _, rfl⟩
  · exact ⟨_, [], rfl⟩

/-- Bytes whose transfers succeed go out before the rest of the frame. -/
theorem runTransfers_sent_append (l : List Byte) (R : List Transfer) {oracle : Nat → Byte × Bool}
    (h : ∀ j, j < l.length → (oracle j).2 = true) :
    ∃ r : TransferRun, runTransfers oracle (l.map .send ++ R) = { r with events := sent l ++ r.events } ∧
      (r.failed = true → r.events ≠ []) := by
  induction l generalizing oracle with
  | nil => exact ⟨runTransfers oracle R, rfl, runTransfers_failed_events⟩
  | cons b l ih =>
    obtain ⟨r, hr, hne⟩ := ih (oracle := fun k => oracle (k + 1)) fun j hj => h (j + 1) (by simpa using hj)
    refine ⟨r, ?_, hne⟩
    have hok : (oracle 0).2 = true := h 0 (by simp)
    simp only [List.map_cons, List.cons_append, runTransfers, hok, if_true, hr]
    rfl

/-- What a command did to the device: a frame that did not start in a write cycle ended at a given draw, and the settle
delay passed. -/
structure DeviceTook (g : DeviceFrame) (draw : Nat) (s t : State) : Prop where
  dev : t.dev = (({ s.dev with frame := some g } : Device).deselect draw).elapse Config.tSettleMs
  quiet : g.inCycle = false

/-- The device a command leaves, by the effect of its frame. -/
theorem DeviceTook.dev_of_endFrame {draw : Nat} (h : DeviceTook f draw s t)
    (he : ({ s.dev with frame := some f } : Device).endFrame draw f = d) :
    t.dev = ({ d with frame := none } : Device).elapse Config.tSettleMs := by
  rw [h.dev, Device.deselect_of_frame rfl, he]

/-- The effect of its frame is all that a command leaves in the array. -/
theorem DeviceTook.memByte {draw : Nat} (h : DeviceTook f draw s t) (x : Nat) :
    t.memByte x = (({ s.dev with frame := some f } : Device).endFrame draw f).cell x := by
  rw [State.memByte, h.dev_of_endFrame rfl]
  exact (Device.elapse_keeps _ _).1 x

/-- Of a valid command the device took a frame that is empty or starts with the command's opcode (R57, R106). -/
theorem FrameEnds.deviceTook_opcode {oracle : Nat → Byte × Bool} (hq : s.DeviceQuiet)
    (h : FrameEnds c (frameTransfers o c) oracle (openedFrame c o s) t) :
    ∃ g draw, DeviceTook g draw s t ∧ ∀ b ∈ g.bytes.head?, b = c.opcode := by
  obtain ⟨g, draw, hdev, hcycle, -, -, hbytes⟩ := h.device _ rfl
  obtain ⟨ok, es, hes⟩ := runTransfers_send_events oracle c.opcode
    (((c.header o.addr).tail).map .send ++ dataTransfers o c)
  have hframe : (runTransfers oracle (frameTransfers o c)).events = .tx c.opcode ok :: es := hes
  refine ⟨g, draw, ⟨hdev, hcycle.trans hq⟩, ?_⟩
  rcases hbytes with hb | ⟨-, hb⟩ <;> rw [hframe] at hb <;> rw [hb]
  · simp [bytesOut, Event.byteOut]
  · cases es <;> simp [bytesOut, Event.byteOut]

/-- Of a valid command whose header is transferred the device took the header (R106 to R108). -/
theorem FrameEnds.deviceTook_header {oracle : Nat → Byte × Bool} (hq : s.DeviceQuiet)
    (hok : ∀ j, j < (c.header o.addr).length → (oracle j).2 = true)
    (h : FrameEnds c (frameTransfers o c) oracle (openedFrame c o s) t) :
    ∃ g draw, DeviceTook g draw s t ∧ ∃ data, g.bytes = c.header o.addr ++ data := by
  obtain ⟨g, draw, hdev, hcycle, -, -, hbytes⟩ := h.device _ rfl
  obtain ⟨r, hr, hne⟩ := runTransfers_sent_append (c.header o.addr) (dataTransfers o c) hok
  rw [frameTransfers_eq, hr] at hbytes
  refine ⟨g, draw, ⟨hdev, hcycle.trans hq⟩, ?_⟩
  rcases hbytes with hb | ⟨hfailed, hb⟩
  · exact ⟨bytesOut r.events, by simpa using hb⟩
  · refine ⟨bytesOut r.events.dropLast, ?_⟩
    rw [List.dropLast_append_of_ne_nil (hne hfailed)] at hb
    simpa using hb

/-! ### A command on a quiet device -/

/-- A command either leaves the device alone, its check failed, or the device took a frame with its opcode. -/
theorem exec_deviceTook {i : Instr} (h : s.Ready) (hq : s.DeviceQuiet) (hexec : exec i s = .next t) :
    t.dev = s.dev ∨ ∃ g draw, DeviceTook g draw s t ∧ ∀ b ∈ g.bytes.head?, b = i.command.opcode := by
  cases hv : instrValid i with
  | false =>
    rw [exec_invalid h hv] at hexec
    cases hexec
    exact .inl rfl
  | true =>
    obtain ⟨oracle, u, hrun, hends⟩ := exec_valid h hv
    rw [hrun] at hexec
    cases hexec
    exact .inr (hends.deviceTook_opcode hq)

theorem deviceKept_of_dev_eq (h : t.dev = s.dev) : DeviceKept s t :=
  ⟨fun a => by rw [State.memByte, State.memByte, h], by rw [h], by rw [h]⟩

/-- A frame without effect leaves the array, the latch and the status register. -/
theorem DeviceTook.deviceKept {draw : Nat} (h : DeviceTook f draw s t)
    (hend : ({ s.dev with frame := some f } : Device).endFrame draw f = { s.dev with frame := some f }) :
    DeviceKept s t := by
  obtain ⟨hcell, hwel, hsr⟩ := Device.elapse_keeps { s.dev with frame := none } Config.tSettleMs
  rw [← h.dev_of_endFrame hend] at hcell hwel hsr
  exact ⟨hcell, hwel, hsr⟩

/-- Settles O37: the frame of a READ or RDSR, whole or cut, holds no byte or starts with an opcode that has no
effect. -/
theorem readsLeaveTheDevice : Obligations.ReadsLeaveTheDevice := by
  intro i s t hi hready hq hexec
  rcases exec_deviceTook hready hq hexec with hdev | ⟨g, draw, htook, hopcode⟩
  · exact deviceKept_of_dev_eq hdev
  · refine htook.deviceKept (Device.endFrame_of_read draw htook.quiet fun b hb => ?_)
    rw [hopcode b hb]
    exact hi.imp (fun h => by rw [h]; rfl) (fun h => by rw [h]; rfl)

/-- Settles O38: the frame of WREN, WRDI or WRSR, whole or cut, does not start as a WRITE, and no other frame changes a
byte of the array. -/
theorem latchAndStatusCommandsLeaveTheArray : Obligations.LatchAndStatusCommandsLeaveTheArray := by
  intro i s t hi hready hq hexec x
  rcases exec_deviceTook hready hq hexec with hdev | ⟨g, draw, htook, hopcode⟩
  · exact (deviceKept_of_dev_eq hdev).1 x
  · rw [htook.memByte]
    refine Device.cell_endFrame_of_not_write draw x htook.quiet fun hop => ?_
    have hwrite := hopcode _ hop
    rcases hi with h | h | h <;> rw [h] at hwrite <;> exact absurd hwrite (by decide)

theorem State.BusOk.getElem {k j : Nat} (h : s.BusOk k) (hj : j < k) : ∃ hlt : j < s.oks.length, s.oks[j] = true := by
  have hget : (s.oks.take k)[j]? = some true := by rw [h, List.getElem?_replicate_of_lt hj]
  rw [List.getElem?_take_of_lt hj] at hget
  exact List.getElem?_eq_some_iff.mp hget

/-- Settles O40: with its header transferred the frame of a write names its page, and its effect stays in it. -/
theorem writesStayInTheirPage : Obligations.WritesStayInTheirPage := by
  intro i s t hi hready hq hbus hexec x hx
  cases hv : instrValid i with
  | false =>
    rw [exec_invalid hready hv] at hexec
    cases hexec
    rfl
  | true =>
    have hheader : i.command.header i.operands.addr =
        [0x02#8, lowByte i.operands.addr, highByte i.operands.addr] := by
      rcases hi with h | h <;> rw [h] <;> rfl
    obtain ⟨oracle, hscript, u, hrun, hends⟩ := runCommand_any hready (instrValid_eq i ▸ hv)
    rw [exec_eq, Instr.descriptor, hrun] at hexec
    cases hexec
    obtain ⟨g, draw, htook, data, hbytes⟩ := hends.deviceTook_header hq fun j hj => by
      obtain ⟨hlt, hok⟩ := hbus.getElem (j := j) (by simpa [hheader] using hj)
      rw [hscript j hlt, hok]
    rw [hheader] at hbytes
    rw [htook.memByte]
    exact Device.cell_endFrame_outside draw htook.quiet hbytes (by rwa [joinBytes_low_high])

end Sys2Proof.Machine
end

section
/-! PROOFS. A payload that is written reads back: commands on a bus that does not fail, as runs of whole frames
(R59, R60, R66, R67). -/

namespace Sys2Proof.Machine

variable {s t : State} {d : Device} {f : DeviceFrame} {c : Command} {o : Operands} {rest : List Bool}

/-! ### Commands on a bus that does not fail -/

/-- The ok flags of a bus that does not fail come before the rest of the script. -/
theorem State.BusOk.oks_eq {k : Nat} (h : s.BusOk k) : s.oks = List.replicate k true ++ s.oks.drop k := by
  rw [← h, List.take_append_drop]

/-- A valid instruction on a bus that does not fail ends in the closed form of its command (R104 to R112). -/
theorem exec_ok {i : Instr} (h : s.Ready) (hv : instrValid i = true)
    (ho : s.oks = List.replicate
      ((i.command.header i.operands.addr).length + (i.command.nData i.operands.len).toNat) true ++ rest) :
    exec i s = .next (okState i.command i.operands rest s) := by
  rw [exec_eq]
  exact runCommand_ok h (instrValid_eq i ▸ hv) ho

theorem okState_ready (h : s.Ready) : (okState c o rest s).Ready := ⟨rfl, h.2⟩

/-- A frame that arrives as a whole, outside a write cycle. -/
def DeviceFrame.whole (bytes : List Byte) : DeviceFrame :=
  { bytes := bytes, failed := false, cut := false, inCycle := false }

/-- Bytes that all arrive after a select edge outside a write cycle are a whole frame (R57). -/
theorem Device.select_push_of_quiet (h : d.wip = false) (l : List Byte) :
    d.select.push l = { d with frame := some (.whole l) } := by
  simp [Device.select, Device.push, DeviceFrame.whole, h]

/-- On a bus that does not fail the device takes the whole frame (R94). -/
theorem okState_deviceTook (hq : s.DeviceQuiet) :
    DeviceTook (.whole (c.frame o)) (okDraws c o s) s (okState c o rest s) :=
  ⟨by rw [← Device.select_push_of_quiet hq]; rfl, rfl⟩

/-! ### The effect of a whole WREN or WRITE frame -/

theorem Device.endFrame_wren (d : Device) (draw : Nat) :
    d.endFrame draw (.whole [0x06#8]) = { d with wel := true } := rfl

/-- With the latch set, a whole write inside its page and the array stores its data (R60). -/
theorem Device.endFrame_write (draw : Nat) {lo hi : Byte} {data : List Byte} (hwel : d.wel = true) (hne : data ≠ [])
    (hc : crosses Config.pageSize (joinBytes lo hi).toNat data.length = false)
    (hin : (joinBytes lo hi).toNat + data.length ≤ Config.memSize) :
    d.endFrame draw (.whole (0x02#8 :: lo :: hi :: data)) =
      Device.afterWrite { d with mem := d.mem.writeBytes (joinBytes lo hi).toNat data } := by
  change d.endWrite draw false (lo :: hi :: data) = _
  simp [Device.endWrite, hwel, hne, hc, hin]

/-- WREN sets the latch and leaves the device quiet (R58). -/
theorem wren_sets_latch {draw : Nat} (hq : s.DeviceQuiet) (h : DeviceTook (.whole [0x06#8]) draw s t) :
    t.dev.wel = true ∧ t.DeviceQuiet := by
  have hdev := h.dev_of_endFrame (Device.endFrame_wren _ draw)
  rw [State.DeviceQuiet, hdev]
  exact ⟨(Device.elapse_keeps _ _).2.1, Device.elapse_wip_of_quiet _ hq⟩

/-- A whole write stores its data and, once the settle delay is over, leaves the device quiet (R60, R63, R67). -/
theorem write_stores {draw : Nat} {lo hi : Byte} {data : List Byte} (hwel : s.dev.wel = true) (hne : data ≠ [])
    (hc : crosses Config.pageSize (joinBytes lo hi).toNat data.length = false)
    (hin : (joinBytes lo hi).toNat + data.length ≤ Config.memSize)
    (h : DeviceTook (.whole (0x02#8 :: lo :: hi :: data)) draw s t) :
    (∀ i (hi' : i < data.length), t.memByte ((joinBytes lo hi).toNat + i) = data[i]) ∧ t.DeviceQuiet := by
  have hend := Device.endFrame_write (d := { s.dev with frame := some (.whole (0x02#8 :: lo :: hi :: data)) }) draw
    hwel hne hc hin
  constructor
  · intro i hi'
    rw [h.memByte, hend, Device.cell_afterWrite, Device.cell_writeBytes, dif_pos (by omega)]
    simp
  · have hdev := h.dev_of_endFrame hend
    rw [Device.elapse_settled (Nat.le_refl Config.tWcMs)] at hdev
    rw [State.DeviceQuiet, hdev]

/-! ### What a READ frame answers -/

theorem Device.answer_of_read {lo hi : Byte} {more : List Byte} (draw : Nat) (hf : d.frame = some f)
    (hc : f.inCycle = false) (hb : f.bytes = 0x03#8 :: lo :: hi :: more) :
    d.answer draw = d.readAt draw ((joinBytes lo hi).toNat + more.length) := by
  simp [Device.answer, hf, hc, hb]

/-- A READ frame answers with the content of one address after the other (R59). -/
theorem Device.answers_of_read {lo hi : Byte} {n i : Nat} (hi' : i < n) {more : List Byte} (draw : Nat)
    (hf : d.frame = some (.whole (0x03#8 :: lo :: hi :: more))) :
    (d.answers draw n)[i]? = some (d.readAt (draw + i) ((joinBytes lo hi).toNat + (more.length + i))) := by
  induction n generalizing d draw more i with
  | zero => exact absurd hi' (Nat.not_lt_zero i)
  | succ n ih =>
    cases i with
    | zero => simp [Device.answers, Device.answer_of_read draw hf rfl rfl]
    | succ i =>
      have hpush : (d.push [Config.filler]).frame =
          some (.whole (0x03#8 :: lo :: hi :: (more ++ [Config.filler]))) := by
        simp [Device.push, hf, DeviceFrame.whole]
      have hdraw : draw + 1 + i = draw + (i + 1) := by omega
      have hoffset : (more ++ [Config.filler]).length + i = more.length + (i + 1) := by simp; omega
      rw [Device.answers, List.getElem?_cons_succ, ih (by omega) (draw + 1) hpush, hdraw, hoffset]
      rfl

/-- What a READ on a bus that does not fail leaves for the host, inside the array (R27, R59). -/
theorem okState_read_hostRbuf (hq : s.DeviceQuiet) {i : Nat} (hpage : i < Config.pageSize) (hlen : i < o.len.toNat)
    (hin : o.addr.toNat + i < Config.memSize) :
    (okState .read o rest s).hostRbuf i = s.memByte (o.addr.toNat + i) := by
  have hframe : (s.dev.select.push (Command.header o.addr .read)).frame =
      some (.whole [0x03#8, lowByte o.addr, highByte o.addr]) := by
    rw [Device.select_push_of_quiet hq]
    rfl
  have hanswer := Device.answers_of_read hlen s.draws hframe
  rw [joinBytes_low_high, List.length_nil, Nat.zero_add, Device.readAt, if_pos hin] at hanswer
  have hread : (okState .read o rest s).hostRbuf i = (okState .read o rest s).rbuf[i] := by
    rw [State.hostRbuf, dif_pos hpage, if_pos ⟨hlen, rfl⟩]
  rw [hread]
  change (fillFrom s.rbuf 0 ((s.dev.select.push (Command.header o.addr .read)).answers s.draws o.len.toNat))[i] = _
  rw [fillFrom_getElem _ _ _ _ hpage, dif_pos (by simpa using hlen)]
  exact (List.getElem?_eq_some_iff.mp hanswer).2

/-! ### WREN, WRITE and READ one after the other -/

theorem exec_wren_sets_latch (e : Operands) (h : s.Ready) (hq : s.DeviceQuiet) (ho : s.oks = true :: rest) :
    ∃ t, exec (.wren e) s = .next t ∧ t.Ready ∧ t.DeviceQuiet ∧ t.oks = rest ∧ t.dev.wel = true := by
  obtain ⟨hwel, hquiet⟩ := wren_sets_latch hq (okState_deviceTook (c := .wren) (o := e) (rest := rest) hq)
  exact ⟨okState .wren e rest s, exec_ok (i := .wren e) h rfl ho, okState_ready h, hquiet, rfl, hwel⟩

theorem exec_write_stores (h : s.Ready) (hq : s.DeviceQuiet) (hwel : s.dev.wel = true)
    (hv : instrValid (.write o) = true) (hin : o.addr.toNat + o.len.toNat ≤ Config.memSize)
    (ho : s.oks = List.replicate (3 + o.len.toNat) true ++ rest) :
    ∃ t, exec (.write o) s = .next t ∧ t.Ready ∧ t.DeviceQuiet ∧ t.oks = rest ∧
      ∀ i (hi : i < Config.pageSize), i < o.len.toNat → t.memByte (o.addr.toNat + i) = o.wdata[i] := by
  have hcheck := instrValid_eq (.write o) ▸ hv
  obtain ⟨hpage, hpos⟩ := commandCheck_bounds hcheck
  have hlength : (o.wdata.toList.take o.len.toNat).length = o.len.toNat := by
    rw [List.length_take, Vector.length_toList]
    exact Nat.min_eq_left hpage
  have hne : o.wdata.toList.take o.len.toNat ≠ [] := List.ne_nil_of_length_pos (hlength.symm ▸ hpos rfl)
  have hcrosses := not_crosses_of_write (.inl rfl) hcheck
  rw [← joinBytes_low_high o.addr, ← hlength] at hin
  obtain ⟨hstored, hquiet⟩ := write_stores hwel hne (by rw [joinBytes_low_high, hlength]; exact hcrosses) hin
    (okState_deviceTook (c := .write) (o := o) (rest := rest) hq)
  refine ⟨okState .write o rest s, exec_ok (i := .write o) h hv ho, okState_ready h, hquiet, rfl,
    fun i hi hlen => ?_⟩
  have hbyte := hstored i (by rwa [hlength])
  rw [joinBytes_low_high] at hbyte
  simpa using hbyte

theorem exec_read_hostRbuf (h : s.Ready) (hq : s.DeviceQuiet) (hv : instrValid (.read o) = true)
    (hin : o.addr.toNat + o.len.toNat ≤ Config.memSize)
    (ho : s.oks = List.replicate (3 + o.len.toNat) true ++ rest) :
    ∃ t, exec (.read o) s = .next t ∧ t.status = statusOk ∧ t.rlen = o.len ∧
      ∀ i, i < Config.pageSize → i < o.len.toNat → t.hostRbuf i = s.memByte (o.addr.toNat + i) :=
  ⟨okState .read o rest s, exec_ok (i := .read o) h hv ho, rfl, rfl, fun _ hpage hlen =>
    okState_read_hostRbuf hq hpage hlen (by omega)⟩

/-- A READ of the range of a valid write is valid (R141, R151). -/
theorem read_valid_of_write {p : Operands} (hv : instrValid (.write o) = true) (hlen : p.len = o.len) :
    instrValid (.read p) = true := by
  rw [instrValid_eq] at hv ⊢
  obtain ⟨hpage, hpos⟩ := commandCheck_bounds hv
  change readCheck Config.pageSize p.len = true
  rw [readCheck, hlen, Bool.and_eq_true]
  exact ⟨decide_eq_true (hpos rfl), decide_eq_true hpage⟩

/-- Settles O51: WREN sets the latch, the write stores its payload and its cycle is over when the read's frame
starts. -/
theorem writtenPayloadReadsBack : Obligations.WrittenPayloadReadsBack := by
  intro e o p s hready hq hv hin haddr hlen hbus
  have hoks := hbus.oks_eq
  rw [List.replicate_add, List.replicate_add, List.append_assoc, List.append_assoc] at hoks
  obtain ⟨s1, hwren, hready1, hq1, hoks1, hwel⟩ := exec_wren_sets_latch e hready hq hoks
  obtain ⟨s2, hwrite, hready2, hq2, hoks2, hstored⟩ := exec_write_stores hready1 hq1 hwel hv hin hoks1
  rw [← hlen] at hoks2
  obtain ⟨s3, hread, hstatus, hrlen, hhost⟩ :=
    exec_read_hostRbuf hready2 hq2 (read_valid_of_write hv hlen) (by rwa [haddr, hlen]) hoks2
  rw [hlen, haddr] at hhost
  exact ⟨s1, s2, s3, hwren, hwrite, hread, hstatus, hrlen.trans hlen, fun i hi hlt =>
    (hhost i hi hlt).trans (hstored i hi hlt)⟩

end Sys2Proof.Machine
end

section
/-! PROOFS. The frame codec (R80, R81, R94, R95): which byte lists decode and to what, as one equivalence, the written
form of R92 in terms of the command, and the two directions of the codec read off them. -/

namespace Sys2Proof

variable {c : Command} {o : Operands} {i : Instr} {addr : Half} {rest data bytes : List Byte}

/-! ### The command a frame shows -/

/-- The command whose frame is sent: WRITE for a WRITE_PAGE, any other itself (R95). -/
def Command.onWire : Command → Command
  | .wrsr => .wrsr
  | .write => .write
  | .read => .read
  | .wrdi => .wrdi
  | .rdsr => .rdsr
  | .wren => .wren
  | .writePage => .write

theorem Instr.onWire_eq (i : Instr) : i.onWire = i.command.onWire.instr i.operands := by cases i <;> rfl

@[simp] theorem Command.onWire_onWire (c : Command) : c.onWire.onWire = c.onWire := by cases c <;> rfl

@[simp] theorem Command.onWire_opcode (c : Command) : c.onWire.opcode = c.opcode := by cases c <;> rfl

@[simp] theorem Command.onWire_hasAddr (c : Command) : c.onWire.hasAddr = c.hasAddr := by cases c <;> rfl

@[simp] theorem Command.onWire_dir (c : Command) : c.onWire.dir = c.dir := by cases c <;> rfl

@[simp] theorem Command.onWire_nData (c : Command) (len : Half) : c.onWire.nData len = c.nData len := by
  cases c <;> rfl

@[simp] theorem Command.onWire_header (c : Command) (addr : Half) : c.onWire.header addr = c.header addr := by
  simp [Command.header]

/-! ### The data bytes of a command (R81, R86) -/

theorem Command.nData_of_hasAddr (h : c.hasAddr = true) (len : Half) : c.nData len = len := by
  cases c <;> simp_all [Command.hasAddr, Command.nData]

theorem Command.nData_of_no_addr (h : c.hasAddr = false) (len : Half) : c.nData len = c.nData 0#16 := by
  cases c <;> simp_all [Command.hasAddr, Command.nData]

theorem Command.nData_of_dir_none (h : c.dir = .none) (len : Half) : c.nData len = 0#16 := by
  cases c <;> simp_all [Command.dir, Command.nData]

theorem Command.nData_eq_one (ha : c.hasAddr = false) (hd : c.dir ≠ .none) (len : Half) : c.nData len = 1#16 := by
  cases c <;> simp_all [Command.hasAddr, Command.dir, Command.nData]

/-- How many data bytes a frame of the command may have (R81). -/
def Command.Fits (n : Nat) (c : Command) : Prop :=
  if c.hasAddr then 1 ≤ n ∧ n ≤ Config.pageSize else n = (c.nData 0#16).toNat

/-- The payload among the data bytes clocked out: fillers are none (R94). -/
def Command.payload (data : List Byte) (c : Command) : List Byte := if c.dir = .out then data else []

/-- What a frame of the command says of its operands (R93, R95). -/
def Command.operandsOf (addr : Half) (data : List Byte) (c : Command) : Operands :=
  if c.hasAddr then frameOperands addr data.length (c.payload data) else frameOperands 0#16 0 (c.payload data)

/-! ### Which frames decode -/

theorem decodeO_eq_ok_iff : decodeO c rest = .ok i ↔ rest = [] ∧ i = c.instr (frameOperands 0#16 0 []) := by
  unfold decodeO
  split <;> simp [eq_comm]

theorem decodeOD_eq_ok_iff :
    decodeOD c rest = .ok i ↔ ∃ v, rest = [v] ∧ i = c.instr (frameOperands 0#16 0 (c.payload [v])) := by
  unfold decodeOD
  split
  · simp [Command.payload, eq_comm]
  · next hne => simpa using fun v hv => absurd hv (hne v)

theorem decodeOAD_eq_ok_iff :
    decodeOAD c rest = .ok i ↔ ∃ lo hi data, rest = lo :: hi :: data ∧
      1 ≤ data.length ∧ data.length ≤ Config.pageSize ∧
      i = c.instr (frameOperands (joinBytes lo hi) data.length (c.payload data)) := by
  unfold decodeOAD
  split
  · next lo hi d ds =>
    split
    · next hlt => simp [Command.payload, eq_comm, Nat.succ_le_iff, hlt]
    · next hge => simpa using fun hlt => absurd hlt hge
  · next hne =>
    constructor
    · intro h; cases h
    · rintro ⟨lo, hi, _ | ⟨d, ds⟩, rfl, hpos, -⟩
      · cases hpos
      · exact absurd rfl (hne lo hi d ds)

/-- Decoding what follows the opcode, by the format of the command (R81). -/
def Command.decodeBody (rest : List Byte) (c : Command) : Except DecodeError Instr :=
  if c.hasAddr then decodeOAD c rest else if c.dir = .none then decodeO c rest else decodeOD c rest

theorem decodeFrame_opcode (c : Command) (rest : List Byte) :
    decodeFrame (c.opcode :: rest) = c.onWire.decodeBody rest := by cases c <;> rfl

/-- A frame that decodes starts with one of the six opcodes (R89). -/
theorem exists_opcode_of_decodeFrame (h : decodeFrame bytes = .ok i) :
    ∃ c rest, c.onWire = c ∧ bytes = Command.opcode c :: rest := by
  cases bytes with
  | nil => cases h
  | cons op rest =>
    simp only [decodeFrame] at h
    split at h
    · next hop => exact ⟨.wrsr, rest, rfl, by rw [hop]; rfl⟩
    split at h
    · next hop => exact ⟨.write, rest, rfl, by rw [hop]; rfl⟩
    split at h
    · next hop => exact ⟨.read, rest, rfl, by rw [hop]; rfl⟩
    split at h
    · next hop => exact ⟨.wrdi, rest, rfl, by rw [hop]; rfl⟩
    split at h
    · next hop => exact ⟨.rdsr, rest, rfl, by rw [hop]; rfl⟩
    split at h
    · next hop => exact ⟨.wren, rest, rfl, by rw [hop]; rfl⟩
    · cases h

theorem decodeBody_eq_ok_iff :
    c.decodeBody rest = .ok i ↔ ∃ addr data, c.opcode :: rest = c.header addr ++ data ∧ c.Fits data.length ∧
      i = c.instr (c.operandsOf addr data) := by
  cases ha : c.hasAddr with
  | true =>
    simp only [Command.decodeBody, Command.header, Command.Fits, Command.operandsOf, ha, if_true, decodeOAD_eq_ok_iff,
      List.cons_append, List.nil_append, List.cons.injEq, true_and]
    constructor
    · rintro ⟨lo, hi, data, rfl, hpos, hle, rfl⟩
      exact ⟨joinBytes lo hi, data, by rw [lowByte_join, highByte_join], ⟨hpos, hle⟩, rfl⟩
    · rintro ⟨addr, data, rfl, ⟨hpos, hle⟩, rfl⟩
      exact ⟨lowByte addr, highByte addr, data, rfl, hpos, hle, by rw [joinBytes_low_high]⟩
  | false =>
    have hdata : c.decodeBody rest = .ok i ↔
        rest.length = (c.nData 0#16).toNat ∧ i = c.instr (frameOperands 0#16 0 (c.payload rest)) := by
      simp only [Command.decodeBody, ha, Bool.false_eq_true, if_false]
      split
      · next hd =>
        rw [decodeO_eq_ok_iff, Command.nData_of_dir_none hd]
        simp [Command.payload, hd]
      · next hd =>
        have hone := Command.nData_eq_one ha hd 0#16
        rw [decodeOD_eq_ok_iff, hone, BitVec.toNat_ofNat, List.length_eq_one_iff]
        constructor
        · rintro ⟨v, rfl, rfl⟩
          exact ⟨⟨v, rfl⟩, rfl⟩
        · rintro ⟨⟨v, rfl⟩, rfl⟩
          exact ⟨v, rfl, rfl⟩
    simp [hdata, Command.header, Command.Fits, Command.operandsOf, ha]

/-- The frames that decode, and what each stands for: a header of a core command and data bytes as its format allows
(R81, R95). -/
theorem decodeFrame_eq_ok_iff :
    decodeFrame bytes = .ok i ↔ ∃ c addr data, Command.onWire c = c ∧ bytes = c.header addr ++ data ∧
      c.Fits data.length ∧ i = c.instr (c.operandsOf addr data) := by
  constructor
  · intro h
    obtain ⟨c, rest, hc, rfl⟩ := exists_opcode_of_decodeFrame h
    rw [decodeFrame_opcode, hc, decodeBody_eq_ok_iff] at h
    obtain ⟨addr, data, hbytes, hfits, hi⟩ := h
    exact ⟨c, addr, data, hc, hbytes, hfits, hi⟩
  · rintro ⟨c, addr, data, hc, rfl, hfits, rfl⟩
    rw [Command.header, List.cons_append, decodeFrame_opcode, hc, decodeBody_eq_ok_iff]
    exact ⟨addr, data, by rw [Command.header, List.cons_append], hfits, rfl⟩

/-! ### The written form (R92) -/

/-- How many bytes of WDATA a command reads (R86, R93). -/
def Command.payloadLength (len : Half) (c : Command) : Nat := if c.dir = .out then (c.nData len).toNat else 0

/-- The fields of a descriptor that its command ignores are zero (R93). -/
def Command.Written (o : Operands) (c : Command) : Prop :=
  (c.hasAddr = false → o.addr = 0#16 ∧ o.len = 0#16) ∧
  ∀ k (hk : k < Config.pageSize), c.payloadLength o.len ≤ k → o.wdata[k] = 0#8

theorem Command.wellFormed_instr : (c.instr o).wellFormed = true ↔ c.Written o := by
  cases c <;> simp [Command.instr, Instr.wellFormed, Command.Written, Command.payloadLength, Command.hasAddr,
    Command.dir, Command.nData, Operands.noRange, Operands.zeroFrom_iff]

/-- What a well-formed instruction shows on the wire is well-formed too (R91). -/
theorem Instr.wellFormed_onWire (h : i.wellFormed = true) : i.onWire.wellFormed = true := by
  cases i with
  | wrsr o | write o | read o | wrdi o | rdsr o | wren o | writePage o => exact h
  | readPage a | readByte a => simp [Instr.onWire, Instr.wellFormed, Operands.zeroFrom_iff, Instr.operands, zeroPage]
  | writeByte a v =>
    simp only [Instr.onWire, Instr.wellFormed, Operands.zeroFrom_iff, Instr.operands]
    intro k hk hpos
    have hne : 0 ≠ k := by rintro rfl; simp at hpos
    simp [zeroPage, Vector.getElem_set_ne, hne]

/-! ### Decode of encode -/

@[simp] theorem Command.onWire_frame (c : Command) (o : Operands) : c.onWire.frame o = c.frame o := by
  simp [Command.frame, Command.dataOut]

theorem encode_eq (i : Instr) : encode i = i.command.frame i.operands := rfl

/-- A descriptor that passes its check moves as many data bytes as its format allows (R81, R102). -/
theorem Command.fits_of_check (hv : Machine.commandCheck Config.pageSize o.addr o.len c = true) :
    c.Fits (c.nData o.len).toNat := by
  obtain ⟨hpage, hpos⟩ := Machine.commandCheck_bounds hv
  unfold Command.Fits
  split
  · next ha => exact ⟨hpos ha, hpage⟩
  · next ha => rw [Command.nData_of_no_addr (by simpa using ha)]

theorem Command.Fits.le_pageSize {n : Nat} (h : c.Fits n) : n ≤ Config.pageSize := by
  unfold Command.Fits at h
  split at h
  · exact h.2
  · rw [h]; cases c <;> decide

theorem Command.dataOut_length (h : (c.nData o.len).toNat ≤ Config.pageSize) :
    (c.dataOut o).length = (c.nData o.len).toNat := by
  unfold Command.dataOut
  split
  · simpa using h
  · simp
  · next hd => simp [Command.nData_of_dir_none hd]

theorem Command.payload_dataOut (c : Command) (o : Operands) :
    c.payload (c.dataOut o) = o.wdata.toList.take (c.payloadLength o.len) := by
  cases hd : c.dir <;> simp [Command.payload, Command.payloadLength, Command.dataOut, hd]

/-- A frame carries every operand its command does not ignore (R93, R95). -/
theorem Command.operandsOf_dataOut (hw : c.Written o) (hfits : c.Fits (c.nData o.len).toNat) :
    c.operandsOf o.addr (c.dataOut o) = o := by
  obtain ⟨hrange, hzero⟩ := hw
  have hdata : pageOfList (c.payload (c.dataOut o)) = o.wdata := by
    rw [Command.payload_dataOut, pageOfList_take hzero]
  cases ha : c.hasAddr with
  | true =>
    simp [Command.operandsOf, ha, frameOperands, hdata, Command.dataOut_length hfits.le_pageSize,
      Command.nData_of_hasAddr ha]
  | false =>
    obtain ⟨addr, len, wdata⟩ := o
    obtain ⟨rfl, rfl⟩ := hrange ha
    simp [Command.operandsOf, ha, frameOperands, hdata]

/-- The frame of a core command in its written form decodes to it. -/
theorem decodeFrame_frame (hc : c.onWire = c) (hw : c.Written o) (hfits : c.Fits (c.nData o.len).toNat) :
    decodeFrame (c.frame o) = .ok (c.instr o) := by
  rw [decodeFrame_eq_ok_iff]
  refine ⟨c, o.addr, c.dataOut o, hc, rfl, ?_, ?_⟩
  · rwa [Command.dataOut_length hfits.le_pageSize]
  · rw [Command.operandsOf_dataOut hw hfits]

/-- Settles O8: what a frame shows is in the written form, and the operands of the written form are those its frame
carries. -/
theorem frameDecodesToItsInstruction : Obligations.FrameDecodesToItsInstruction := by
  intro i hwf hv
  have hw := Instr.wellFormed_onWire hwf
  rw [Instr.onWire_eq, Command.wellFormed_instr] at hw
  have hfits := Command.fits_of_check (Machine.instrValid_eq i ▸ hv)
  rw [encode_eq, Instr.onWire_eq, ← Command.onWire_frame]
  exact decodeFrame_frame (Command.onWire_onWire _) hw (by simpa [Command.Fits] using hfits)

/-- Settles O9: both frames decode, to what each instruction shows. -/
theorem framesAreInjective : Obligations.FramesAreInjective := by
  intro i j hi hj hvi hvj hframe
  have hdecode := frameDecodesToItsInstruction i hi hvi
  rw [hframe, frameDecodesToItsInstruction j hj hvj] at hdecode
  exact (Except.ok.inj hdecode).symm

/-! ### Encode of decode -/

/-- The number of data bytes of a frame is what its operands say (R86, R95). -/
theorem Command.nData_operandsOf (h : c.Fits data.length) :
    (c.nData (c.operandsOf addr data).len).toNat = data.length := by
  have hle := h.le_pageSize
  cases ha : c.hasAddr with
  | true =>
    rw [Command.nData_of_hasAddr ha]
    simp only [Command.operandsOf, ha, if_true, frameOperands, BitVec.toNat_ofNat]
    simp only [Config.pageSize] at hle
    omega
  | false =>
    simp only [Command.Fits, ha, Bool.false_eq_true, if_false] at h
    rw [Command.nData_of_no_addr ha, h]

theorem Command.wdata_operandsOf (c : Command) (addr : Half) (data : List Byte) :
    (c.operandsOf addr data).wdata = pageOfList (c.payload data) := by
  unfold Command.operandsOf
  split <;> rfl

theorem Command.header_operandsOf (c : Command) (addr : Half) (data : List Byte) :
    c.header (c.operandsOf addr data).addr = c.header addr := by
  cases ha : c.hasAddr <;> simp [Command.header, Command.operandsOf, ha, frameOperands]

theorem take_pageOfList (h : data.length ≤ Config.pageSize) : (pageOfList data).toList.take data.length = data := by
  apply List.ext_getElem
  · simpa using h
  · intro k hk hk'
    simp [pageOfList, hk']

theorem Command.payload_length (h : c.Fits data.length) :
    (c.payload data).length = c.payloadLength (c.operandsOf addr data).len := by
  rw [Command.payloadLength, Command.nData_operandsOf h, Command.payload]
  split <;> rfl

/-- The fields a frame does not carry are read as zero (R93). -/
theorem Command.written_operandsOf (h : c.Fits data.length) : c.Written (c.operandsOf addr data) := by
  constructor
  · intro ha
    simp [Command.operandsOf, ha, frameOperands]
  · intro k hk hle
    simp only [Command.wdata_operandsOf, pageOfList_getElem _ k hk]
    exact List.getD_eq_default _ _ ((Command.payload_length h).trans_le hle)

/-- The data bytes of a frame are those of its operands, if what it clocks out of a read are fillers (R94). -/
theorem Command.dataOut_operandsOf (h : c.Fits data.length)
    (hfill : c.dir = .inward → data = List.replicate data.length Config.filler) :
    c.dataOut (c.operandsOf addr data) = data := by
  have hn := Command.nData_operandsOf (addr := addr) h
  cases hd : c.dir with
  | out =>
    simp only [Command.dataOut, hd, hn, Command.wdata_operandsOf, Command.payload, if_true]
    exact take_pageOfList h.le_pageSize
  | inward =>
    simp only [Command.dataOut, hd, hn]
    exact (hfill hd).symm
  | none =>
    rw [Command.nData_of_dir_none hd] at hn
    simp only [Command.dataOut, hd]
    exact (List.length_eq_zero_iff.mp hn.symm).symm

/-- Settles O10: a frame that decodes is a header and data bytes of a core command, and its operands hold both. -/
theorem decodedFrameEncodesBack : Obligations.DecodedFrameEncodesBack := by
  intro bytes i hdec
  obtain ⟨c, addr, data, hc, rfl, hfits, rfl⟩ := decodeFrame_eq_ok_iff.mp hdec
  refine ⟨Command.wellFormed_instr.mpr (Command.written_operandsOf hfits), ?_, fun hfill => ?_⟩
  · rw [Instr.onWire_eq, Command.command_instr, Command.operands_instr, hc]
  · simp only [Command.command_instr, Command.operands_instr, Command.header_operandsOf, List.drop_left,
      Command.nData_operandsOf hfits] at hfill
    rw [encode_eq, Command.command_instr, Command.operands_instr, Command.frame, Command.header_operandsOf,
      Command.dataOut_operandsOf hfits hfill]

/-! ### The size of a frame and its first byte -/

theorem Command.header_length (c : Command) (addr : Half) : (c.header addr).length = if c.hasAddr then 3 else 1 := by
  cases ha : c.hasAddr <;> simp [Command.header, ha]

/-- The length of a frame is FrameLen (R90). -/
theorem Command.frame_length_eq (hv : Machine.commandCheck Config.pageSize o.addr o.len c = true) :
    (c.frame o).length = c.frameLen o.len := by
  rw [Machine.frame_length hv, Command.header_length, Command.frameLen]

theorem Command.frameLen_cases (c : Command) (len : Half) :
    c.frameLen len = 1 ∨ c.frameLen len = 2 ∨ c.frameLen len = 3 + len.toNat := by
  cases c <;> simp [Command.frameLen, Command.hasAddr, Command.nData]

theorem Command.opcode_range (c : Command) : 0x01#8 ≤ c.opcode ∧ c.opcode ≤ 0x06#8 := by cases c <;> decide

/-- Settles O12: a header of one or three bytes that starts with the opcode, and at most a page of data bytes. -/
theorem frameLengthAndFirstByte : Obligations.FrameLengthAndFirstByte := by
  intro i hv
  rw [Machine.instrValid_eq] at hv
  have hlen : (encode i).length = i.command.frameLen i.operands.len := Command.frame_length_eq hv
  obtain ⟨hpage, -⟩ := Machine.commandCheck_bounds hv
  refine ⟨hlen, ?_, hlen ▸ Command.frameLen_cases _ _, i.command.opcode, rfl, Command.opcode_range _⟩
  rw [hlen, Command.frameLen]
  simp only [Config.pageSize] at hpage
  split <;> omega

/-! ### KIND codes and descriptors -/

/-- Settles O6: the codes one by one, and the rows of R85 and R86 by the command a code stands for. -/
theorem encodingOfEachKind : Obligations.EncodingOfEachKind := by
  refine ⟨rfl, rfl, rfl, rfl, rfl, rfl, rfl, rfl, fun k c len hk => ?_⟩
  obtain rfl := Command.kind_of_ofKind hk
  cases c <;> simp [Command.kind, Command.hasAddr, Command.dir, Command.nData]

/-- Settles O7: the bytes are literals, and the decoder computes on them. -/
theorem knownFramesDecode : Obligations.KnownFramesDecode := by
  unfold Obligations.KnownFramesDecode
  decide

theorem exists_command_of_kind {k : BitVec 3} (h : k ≠ 0#3) : ∃ c, Command.ofKind k = some c :=
  Option.ne_none_iff_exists'.mp fun hnone => h ((Command.ofKind_eq_none_iff k).mp hnone)

theorem decodeDescriptor_eq_error_iff (d : Descriptor) :
    decodeDescriptor d = .error .reservedKind ↔ d.kind = 0#3 := by
  rw [← Command.ofKind_eq_none_iff, decodeDescriptor]
  cases Command.ofKind d.kind <;> simp

/-- Settles O11: a KIND other than 0 has its command, whose code it is. -/
theorem descriptorsDecode : Obligations.DescriptorsDecode := by
  refine ⟨fun i => decodeDescriptor_of_command _ _, fun d hk => ?_, fun d => (decodeDescriptor_eq_error_iff d).symm⟩
  obtain ⟨c, hc⟩ := exists_command_of_kind hk
  have hdec : decodeDescriptor d = .ok (c.instr d.operands) := by simp only [decodeDescriptor, hc]
  exact ⟨_, hdec, Machine.descriptor_of_decodeDescriptor hdec⟩

end Sys2Proof
end

section
/-! PROOFS. A descriptor presented at the port of an idle machine: the reserved code (R88), and the instruction of a
table word (R96, R103). -/

namespace Sys2Proof.Machine

variable {s t : State}

/-- Accepting an action leaves the machine ready. -/
theorem ready_of_arbitrate {a : HostAction} (h : s.Ready) (ha : arbitrate s = some (a, t)) : t.Ready := by
  obtain ⟨_, _, _, -, rfl⟩ := arbitrate_spec ha
  exact h

/-- Settles O26: KIND 0 fails the check, and a command that fails its check completes at once. -/
theorem reservedKindIsRejected : Obligations.ReservedKindIsRejected := by
  refine ⟨fun k hk => exists_command_of_kind hk, fun s t o hready harb => ?_⟩
  have ht := ready_of_arbitrate hready harb
  rw [step_of_arbitrate hready harb, accept_issue, runCommand_invalid ht rfl]
  obtain ⟨hidle, -⟩ := ht
  simp [raiseException, State.complete, State.goto, State.record, issue, hidle]

/-- The one requester of a machine to which a descriptor is presented is served. -/
theorem arbitrate_present (d : Descriptor) (s : State) :
    arbitrate (present d s) = some (.issue d, { s with phase := .idle, resets := [], requesters := [[]] }) := rfl

/-- Settles O27: the step accepts the descriptor of the word's instruction, and it runs as its command. -/
theorem fetchedWordRuns : Obligations.FetchedWordRuns := by
  intro s nbits w i hdec
  have hplaced : s.withFetchWord nbits w = present i.descriptor s := by simp only [State.withFetchWord, hdec]
  rw [hplaced, step_of_arbitrate ⟨rfl, rfl⟩ (arbitrate_present _ _), accept_issue, exec_eq]

end Sys2Proof.Machine
end

section
/-! PROOFS. A command does not read the fields it ignores (R93): two runs of one command on descriptors that agree in
the other fields differ in the latches and the host's record only. -/

namespace Sys2Proof.Machine

variable {c : Command} {o p : Operands} {x : Transfer} {R : List Transfer} {s t : State}

/-! ### Operands that agree in the fields a command reads -/

theorem addr_eq_of_relevant (h : relevantOperands o c = relevantOperands p c) (ha : c.hasAddr = true) :
    p.addr = o.addr := by
  cases c <;> simp_all [relevantOperands, Command.hasAddr]

theorem nData_eq_of_relevant (h : relevantOperands o c = relevantOperands p c) : c.nData p.len = c.nData o.len := by
  cases c <;> simp_all [relevantOperands, Command.nData]

theorem commandCheck_eq_of_relevant (h : relevantOperands o c = relevantOperands p c) :
    commandCheck Config.pageSize p.addr p.len c = commandCheck Config.pageSize o.addr o.len c := by
  cases c <;> simp_all [relevantOperands, commandCheck]

theorem wdata_eq_of_relevant (h : relevantOperands o c = relevantOperands p c) (hd : c.dir = .out) :
    p.wdata.toList.take (c.nData o.len).toNat = o.wdata.toList.take (c.nData o.len).toNat := by
  cases c with
  | wrsr =>
    have hone (q : Page) : q.toList.take 1 = [q[0]] := by
      rw [List.take_one, List.head?_eq_getElem?]
      simp
    simp_all [relevantOperands, Command.nData]
  | write | writePage =>
    simp only [relevantOperands, Prod.mk.injEq] at h
    obtain ⟨-, hlen, hdata⟩ := h
    rw [← hlen] at hdata
    exact hdata.symm
  | read | wrdi | rdsr | wren => cases hd

theorem wdata_getElem_of_relevant (h : relevantOperands o c = relevantOperands p c) (hd : c.dir = .out) {k : Nat}
    (hn : k < (c.nData o.len).toNat) (hk : k < Config.pageSize) : p.wdata[k] = o.wdata[k] := by
  have htake := congrArg (·[k]?) (wdata_eq_of_relevant h hd)
  simpa [List.getElem?_take, hn, hk] using htake

theorem frameTransfers_eq_of_relevant (h : relevantOperands o c = relevantOperands p c) :
    frameTransfers p c = frameTransfers o c := by
  have hheader : c.header p.addr = c.header o.addr := by
    cases ha : c.hasAddr with
    | true => rw [addr_eq_of_relevant h ha]
    | false => simp [Command.header, ha]
  rw [frameTransfers_eq, frameTransfers_eq, hheader, dataTransfers, dataTransfers, nData_eq_of_relevant h]
  cases hd : c.dir with
  | out => simp only [wdata_eq_of_relevant h hd]
  | inward => rfl
  | none => rfl

/-! ### Two machines that differ in the latches -/

/-- The machines differ at most in ADDR, LEN, WBUF and the host's record. -/
def SameButLatches (s t : State) : Prop :=
  ∃ addr len wbuf hostTrace, t = { s with addr := addr, len := len, wbuf := wbuf, hostTrace := hostTrace }

namespace SameButLatches

theorem regs_eq (h : SameButLatches s t) :
    t.phase = s.phase ∧ t.n = s.n ∧ t.idx = s.idx ∧ t.nextOk = s.nextOk ∧ t.nextByte = s.nextByte := by
  obtain ⟨_, _, _, _, rfl⟩ := h
  exact ⟨rfl, rfl, rfl, rfl, rfl⟩

theorem afterTransfer (h : SameButLatches s t) (ok : Bool) (next : Phase) :
    SameButLatches (afterTransfer ok next s) (afterTransfer ok next t) := by
  obtain ⟨addr, len, wbuf, hostTrace, rfl⟩ := h
  cases ok <;> exact ⟨addr, len, wbuf, hostTrace, rfl⟩

theorem afterData (h : SameButLatches s t) (ok : Bool) : SameButLatches (afterData ok s) (afterData ok t) := by
  obtain ⟨addr, len, wbuf, hostTrace, rfl⟩ := h
  cases ok <;> exact ⟨addr, len, wbuf, hostTrace, rfl⟩

theorem busTx (h : SameButLatches s t) (b : Byte) : SameButLatches (busTx b s) (busTx b t) := by
  obtain ⟨addr, len, wbuf, hostTrace, rfl⟩ := h
  exact ⟨addr, len, wbuf, hostTrace, rfl⟩

theorem busRx (h : SameButLatches s t) (b : Byte) : SameButLatches (busRx b s) (busRx b t) := by
  obtain ⟨addr, len, wbuf, hostTrace, rfl⟩ := h
  exact ⟨addr, len, wbuf, hostTrace, rfl⟩

theorem storeByte (h : SameButLatches s t) (ok : Bool) (b : Byte) :
    SameButLatches (storeByte ok b s) (storeByte ok b t) := by
  obtain ⟨addr, len, wbuf, hostTrace, rfl⟩ := h
  exact ⟨addr, len, wbuf, hostTrace, rfl⟩

/-- The end of a frame reads no latch but KIND (R110 to R112). -/
theorem runPhases_desel (h : SameButLatches s t) (k : Nat) (hp : s.phase = .desel) (hr : s.resets = [])
    (hk : s.kind = c.kind) : SameButLatches (runPhases (k + 3) s) (runPhases (k + 3) t) := by
  obtain ⟨addr, len, wbuf, hostTrace, rfl⟩ := h
  rw [Machine.runPhases_desel k hp hr hk,
    Machine.runPhases_desel (s := { s with addr := addr, len := len, wbuf := wbuf, hostTrace := hostTrace }) k hp hr hk]
  exact ⟨addr, len, wbuf, _, rfl⟩

end SameButLatches

/-! ### A transfer of a frame, whatever the bus reports -/

theorem phaseStep_opc (hp : s.phase = .opc) (hc : s.kind = c.kind) :
    phaseStep s = afterTransfer s.nextOk (afterOpcode c s.n) (busTx c.opcode s) := by
  simp [phaseStep, hp, phaseOpc, hc]

theorem phaseStep_alo (hp : s.phase = .alo) :
    phaseStep s = afterTransfer s.nextOk .ahi (busTx (lowByte s.addr) s) := by
  simp [phaseStep, hp, phaseAlo]

theorem phaseStep_ahi (hp : s.phase = .ahi) :
    phaseStep s = afterTransfer s.nextOk .data (busTx (highByte s.addr) s) := by
  simp [phaseStep, hp, phaseAhi]

theorem phaseStep_data_out (hp : s.phase = .data) (hc : s.kind = c.kind) (hd : c.dir = .out)
    (hn : s.idx.toNat < s.n.toNat) (hpage : s.idx.toNat < Config.pageSize) :
    phaseStep s = afterData s.nextOk (busTx s.wbuf[s.idx.toNat] s) := by
  simp only [phaseStep, hp, phaseData, command_eq, hc, Command.ofKind_kind]
  rw [dif_pos ⟨hn, hpage⟩]
  simp only [hd]

theorem phaseStep_data_in (hp : s.phase = .data) (hc : s.kind = c.kind) (hd : c.dir ≠ .out)
    (hn : s.idx.toNat < s.n.toNat) (hpage : s.idx.toNat < Config.pageSize) :
    phaseStep s = afterData s.nextOk (storeByte s.nextOk s.nextByte (busRx Config.filler s)) := by
  simp only [phaseStep, hp, phaseData, command_eq, hc, Command.ofKind_kind]
  rw [dif_pos ⟨hn, hpage⟩]

/-- One transfer of the same frame from two descriptors that agree in what the command reads. -/
theorem InFrame.sameButLatches_phaseStep (hs : InFrame c o (x :: R) s) (ht : InFrame c p (x :: R) t)
    (hrel : relevantOperands o c = relevantOperands p c) (h : SameButLatches s t) :
    SameButLatches (phaseStep s) (phaseStep t) := by
  have haddr (ha : c.hasAddr = true) : t.addr = s.addr := by
    rw [hs.addr, ht.addr, addr_eq_of_relevant hrel ha]
  obtain ⟨hphase, hn, hidx, hok, hbyte⟩ := h.regs_eq
  rcases hs.place with ⟨hp, -, -⟩ | ⟨hp, -, ha, -⟩ | ⟨hp, -, ha, -⟩ | ⟨hp, hlt, -⟩ | ⟨-, hR⟩
  · rw [phaseStep_opc hp hs.kind, phaseStep_opc (hphase.trans hp) ht.kind, hok, hn]
    exact (h.busTx _).afterTransfer _ _
  · rw [phaseStep_alo hp, phaseStep_alo (hphase.trans hp), hok, haddr ha]
    exact (h.busTx _).afterTransfer _ _
  · rw [phaseStep_ahi hp, phaseStep_ahi (hphase.trans hp), hok, haddr ha]
    exact (h.busTx _).afterTransfer _ _
  · have hdata : s.idx.toNat < (c.nData o.len).toNat := hs.n ▸ hlt
    have hpage : s.idx.toNat < Config.pageSize := hdata.trans_le (commandCheck_bounds hs.valid).1
    by_cases hd : c.dir = .out
    · have hwbuf : t.wbuf[s.idx.toNat] = s.wbuf[s.idx.toNat] := by
        simp only [ht.wbuf, hs.wbuf, wdata_getElem_of_relevant hrel hd hdata hpage]
      rw [phaseStep_data_out hp hs.kind hd hlt hpage,
        phaseStep_data_out (hphase.trans hp) ht.kind hd (by rwa [hidx, hn]) (by rwa [hidx])]
      simp only [hidx, hok, hwbuf]
      exact (h.busTx _).afterData _
    · rw [phaseStep_data_in hp hs.kind hd hlt hpage,
        phaseStep_data_in (hphase.trans hp) ht.kind hd (by rwa [hidx, hn]) (by rwa [hidx]), hok, hbyte]
      exact ((h.busRx _).storeByte _ _).afterData _
  · cases hR

/-! ### A whole command -/

/-- With no transfer to come the frame ends. -/
theorem InFrame.phase_of_nil (h : InFrame c o [] s) : s.phase = .desel := by
  rcases h.place with ⟨-, -, hR⟩ | ⟨-, -, -, hR⟩ | ⟨-, -, -, hR⟩ | ⟨-, hlt, hR⟩ | ⟨hp, -⟩
  · cases hR
  · cases hR
  · cases hR
  · rw [eq_comm, List.drop_eq_nil_iff, dataTransfers_length h.valid, ← h.n] at hR
    omega
  · exact hp

/-- The transfers `R` of a frame and its end, from two descriptors that agree in what the command reads. -/
theorem InFrame.sameButLatches_runPhases (hs : InFrame c o R s) (ht : InFrame c p R t)
    (hrel : relevantOperands o c = relevantOperands p c) (h : SameButLatches s t) (k : Nat) :
    SameButLatches (runPhases (k + R.length + 3) s) (runPhases (k + R.length + 3) t) := by
  induction R generalizing s t with
  | nil => exact h.runPhases_desel _ hs.phase_of_nil hs.resets hs.kind
  | cons x R ih =>
    have hstep := hs.sameButLatches_phaseStep ht hrel h
    obtain ⟨-, -, -, htnext, -⟩ := h.regs_eq
    obtain ⟨hsidle, _, hsent, hsok, hsfail⟩ := nextTransfer hs
    obtain ⟨htidle, _, -, htok, -⟩ := nextTransfer ht
    rw [List.length_cons, show k + (R.length + 1) + 3 = k + R.length + 3 + 1 by omega,
      runPhases_succ _ hsidle hs.resets, runPhases_succ _ htidle ht.resets]
    cases hok : s.nextOk with
    | true =>
      exact ih (hsok hok).1 (htok (htnext.trans hok)).1 hstep
    | false =>
      exact hstep.runPhases_desel _ (hsfail hok).1 (hsent.inputs.2.trans hs.resets) (hsent.latches.1.trans hs.kind)

theorem sameButLatches_openedFrame (hrel : relevantOperands o c = relevantOperands p c) (s : State) :
    SameButLatches (openedFrame c o s) (openedFrame c p s) :=
  ⟨_, _, _, _, by rw [openedFrame, nData_eq_of_relevant hrel]; rfl⟩

/-- Two runs of one command on descriptors that agree in what it reads. -/
theorem exec_sameButLatches (hready : s.Ready) (hrel : relevantOperands o c = relevantOperands p c) :
    ∃ t u, exec (c.instr o) s = .next t ∧ exec (c.instr p) s = .next u ∧ SameButLatches t u := by
  have hcheck := commandCheck_eq_of_relevant hrel
  simp only [exec_eq, Instr.descriptor, Command.command_instr, Command.operands_instr]
  cases hv : commandCheck Config.pageSize o.addr o.len c with
  | false =>
    exact ⟨_, _, runCommand_invalid hready (by simpa using hv),
      runCommand_invalid hready (by simpa [hcheck] using hv), _, _, _, _, rfl⟩
  | true =>
    have hv' := hcheck.trans hv
    have hs := openedFrame_inFrame hready.2 hv
    have ht := openedFrame_inFrame hready.2 hv'
    rw [frameTransfers_eq_of_relevant hrel] at ht
    obtain ⟨k, hk⟩ := Nat.exists_eq_add_of_le' (frameTransfers_length hv)
    have hfuel : Config.pageSize + 6 = k + (frameTransfers o c).length + 3 := by omega
    refine ⟨_, _, runCommand_opened hready hv, runCommand_opened hready hv', ?_⟩
    rw [hfuel]
    exact hs.sameButLatches_runPhases ht hrel (sameButLatches_openedFrame hrel s) k

/-- Settles O50: what the two runs may differ in is neither on the bus nor among the results. -/
theorem ignoredFieldsHaveNoEffect : Obligations.IgnoredFieldsHaveNoEffect := by
  intro c o p s hready hrel
  obtain ⟨t, _, hexec, hexec', _, _, _, _, rfl⟩ := exec_sameButLatches hready hrel
  exact ⟨t, _, hexec, hexec', rfl, rfl, rfl, rfl, rfl, rfl, rfl⟩

end Sys2Proof.Machine
end

section
/-! PROOFS. The frame a command adds to the trace (R100, R113), and the big step of R114: the phase machine gives its
trace and result, and on a bus that does not fail it clocks out the frame of its descriptor. -/

namespace Sys2Proof.Machine

variable {tr : Transfer} {R : List Transfer} {oracle : Nat → Byte × Bool} {c : Command} {o : Operands} {d : Descriptor}
  {s t : State}

/-! ### A run of transfers, by its first transfer -/

theorem runTransfers_cons_ok (h : (oracle 0).2 = true) :
    runTransfers oracle (tr :: R) =
      { events := tr.event (oracle 0).1 true :: (runTransfers (fun k => oracle (k + 1)) R).events
        failed := (runTransfers (fun k => oracle (k + 1)) R).failed
        received := tr.received (oracle 0).1 ++ (runTransfers (fun k => oracle (k + 1)) R).received } := by
  simp only [runTransfers, h, if_true]

theorem runTransfers_cons_failed (h : (oracle 0).2 = false) :
    runTransfers oracle (tr :: R) = { events := [tr.event (oracle 0).1 false], failed := true, received := [] } := by
  simp only [runTransfers, h, Bool.false_eq_true, if_false]

/-! ### The events of a run of transfers -/

theorem Transfer.event_isTransfer (tr : Transfer) (b : Byte) (ok : Bool) : (tr.event b ok).isTransfer = true := by
  cases tr <;> rfl

theorem Transfer.event_succeeded (tr : Transfer) (b : Byte) (ok : Bool) : (tr.event b ok).succeeded = ok := by
  cases tr <;> rfl

theorem runTransfers_events_length_le (oracle : Nat → Byte × Bool) (R : List Transfer) :
    (runTransfers oracle R).events.length ≤ R.length := by
  induction R generalizing oracle with
  | nil => exact Nat.le_refl 0
  | cons tr R ih =>
    cases h : (oracle 0).2 with
    | true =>
      rw [runTransfers_cons_ok h]
      exact Nat.succ_le_succ (ih _)
    | false =>
      rw [runTransfers_cons_failed h]
      simp

theorem runTransfers_isTransfer {e : Event} (h : e ∈ (runTransfers oracle R).events) : e.isTransfer = true := by
  induction R generalizing oracle with
  | nil => cases h
  | cons tr R ih =>
    cases hok : (oracle 0).2 with
    | true =>
      rw [runTransfers_cons_ok hok] at h
      rcases List.mem_cons.mp h with rfl | h
      · exact tr.event_isTransfer _ _
      · exact ih h
    | false =>
      rw [runTransfers_cons_failed hok] at h
      obtain rfl := List.mem_singleton.mp h
      exact tr.event_isTransfer _ _

/-- Transfers stop at the first one that fails (R114). -/
theorem runTransfers_dropLast_succeeded {e : Event} (h : e ∈ (runTransfers oracle R).events.dropLast) :
    e.succeeded = true := by
  induction R generalizing oracle with
  | nil => cases h
  | cons tr R ih =>
    cases hok : (oracle 0).2 with
    | true =>
      rw [runTransfers_cons_ok hok] at h
      by_cases hlast : (runTransfers (fun k => oracle (k + 1)) R).events = []
      · simp [hlast] at h
      · rw [dropLast_cons_of_ne_nil _ hlast] at h
        rcases List.mem_cons.mp h with rfl | h
        · exact tr.event_succeeded _ _
        · exact ih h
    | false =>
      rw [runTransfers_cons_failed hok] at h
      cases h

/-- The trace of a valid command is extended by its frame (R113). -/
theorem FrameEnds.trace_framed (h : FrameEnds c (frameTransfers o c) oracle (openedFrame c o s) t) :
    t.trace = s.trace ++ framed (runTransfers oracle (frameTransfers o c)).events := by
  rw [h.trace]
  simp [openedFrame, framed]

/-- Settles O46: a command that fails its check adds no event; a valid one adds its frame, whose transfers stop at the
first that fails. -/
theorem commandAddsAtMostOneFrame : Obligations.CommandAddsAtMostOneFrame := by
  intro i s t hready hexec
  cases hv : instrValid i with
  | false =>
    rw [exec_invalid hready hv] at hexec
    cases hexec
    exact .inl rfl
  | true =>
    obtain ⟨oracle, u, hrun, hends⟩ := exec_valid hready hv
    rw [hrun] at hexec
    cases hexec
    have hlen := (runTransfers_events_length_le oracle _).trans (frameTransfers_length (instrValid_eq i ▸ hv))
    exact .inr ⟨_, hends.trace_framed, hlen, fun _ => runTransfers_isTransfer,
      fun _ => runTransfers_dropLast_succeeded⟩

/-! ### The bytes received -/

theorem runTransfers_received_length_le (oracle : Nat → Byte × Bool) (R : List Transfer) :
    (runTransfers oracle R).received.length ≤ R.count .receive := by
  induction R generalizing oracle with
  | nil => exact Nat.le_refl 0
  | cons tr R ih =>
    cases h : (oracle 0).2 with
    | true =>
      have hrest := ih fun k => oracle (k + 1)
      rw [runTransfers_cons_ok h]
      cases tr with
      | send b => simpa [Transfer.received] using hrest
      | receive => simpa [Transfer.received, Nat.add_comm 1] using hrest
    | false =>
      rw [runTransfers_cons_failed h]
      exact Nat.zero_le _

/-- A frame that does not read receives nothing (R81, R85). -/
theorem count_receive_of_not_inward (hd : c.dir ≠ .inward) : (frameTransfers o c).count .receive = 0 :=
  List.count_eq_zero.mpr fun hmem =>
    absurd (received_nil_of_not_inward hd hmem 0#8) (List.cons_ne_nil _ _)

/-- The bytes a frame received stand at the start of RBUF, also when a later transfer failed (R109, R114). -/
theorem FrameEnds.rbuf_eq_received (hv : commandCheck Config.pageSize o.addr o.len c = true)
    (h : FrameEnds c (frameTransfers o c) oracle (openedFrame c o s) t) {k : Nat}
    (hk : k < (runTransfers oracle (frameTransfers o c)).received.length) :
    t.rbuf[k]? = (runTransfers oracle (frameTransfers o c)).received[k]? := by
  have hcount := hk.trans_le (runTransfers_received_length_le oracle _)
  by_cases hd : c.dir = .inward
  · rw [count_receive_frameTransfers o hd] at hcount
    have hpage := hcount.trans_le (commandCheck_bounds hv).1
    exact (h.rbuf hd k hpage).2 k (by simp [openedFrame]) hk
  · rw [count_receive_of_not_inward hd] at hcount
    exact absurd hcount (Nat.not_lt_zero k)

/-! ### The big step, by the check -/

theorem bigStep_invalid (hv : valid d.kind d.operands.addr d.operands.len = false) (oracle : Nat → Byte × Bool) :
    bigStep d oracle = ([], { status := statusInvalidArgument, rlen := 0#16, received := [] }) := by
  unfold bigStep
  split
  · rfl
  · rw [hv, if_neg Bool.false_ne_true]

theorem bigStep_valid (hv : commandCheck Config.pageSize o.addr o.len c = true) (oracle : Nat → Byte × Bool) :
    bigStep { kind := c.kind, operands := o } oracle =
      (framed (runTransfers oracle (frameTransfers o c)).events,
        if (runTransfers oracle (frameTransfers o c)).failed then
          { status := statusBusError, rlen := 0#16
            received := (runTransfers oracle (frameTransfers o c)).received }
        else
          { status := statusOk, rlen := resultLength c (c.nData o.len)
            received := (runTransfers oracle (frameTransfers o c)).received }) := by
  simp only [bigStep, Command.ofKind_kind, valid_kind, hv, if_true, framed]

theorem exists_command_of_valid {kind : BitVec 3} {addr len : Half} (h : valid kind addr len = true) :
    ∃ c : Command, kind = c.kind := by
  cases hc : Command.ofKind kind with
  | none => simp [valid, hc] at h
  | some c => exact ⟨c, (Command.kind_of_ofKind hc).symm⟩

/-! ### The phase machine and the big step -/

/-- What a run of the phase machine added to the trace, and its result, are those of `Run(desc)` for the answers of an
oracle (R114). -/
def RunsAs (d : Descriptor) (oracle : Nat → Byte × Bool) (s t : State) : Prop :=
  AddedTrace s t (bigStep d oracle).1 ∧
  t.status = (bigStep d oracle).2.status ∧ t.rlen = (bigStep d oracle).2.rlen ∧
  ∀ k, k < (bigStep d oracle).2.received.length → t.rbuf[k]? = (bigStep d oracle).2.received[k]?

theorem runsAs_invalid (hv : valid d.kind d.operands.addr d.operands.len = false) (oracle : Nat → Byte × Bool)
    (s : State) : RunsAs d oracle s (raiseException statusInvalidArgument (issue d s)) := by
  rw [RunsAs, bigStep_invalid hv]
  exact ⟨(List.append_nil _).symm, rfl, rfl, fun _ hk => absurd hk (Nat.not_lt_zero _)⟩

theorem FrameEnds.runsAs (hv : commandCheck Config.pageSize o.addr o.len c = true)
    (h : FrameEnds c (frameTransfers o c) oracle (openedFrame c o s) t) :
    RunsAs { kind := c.kind, operands := o } oracle s t := by
  have hrbuf (k : Nat) := h.rbuf_eq_received hv (k := k)
  have hstatus := h.status
  have hrlen := h.rlen
  rw [RunsAs, bigStep_valid hv]
  refine ⟨h.trace_framed, ?_⟩
  cases hf : (runTransfers oracle (frameTransfers o c)).failed with
  | true =>
    rw [hf] at hstatus hrlen
    exact ⟨hstatus, hrlen, hrbuf⟩
  | false =>
    rw [hf] at hstatus hrlen
    exact ⟨hstatus, hrlen, hrbuf⟩

/-- Settles O47: a descriptor that fails its check transmits nothing in both; the frame of a valid one ends as its
transfers say, which are those of the big step. -/
theorem phaseMachineRunsTheBigStep : Obligations.PhaseMachineRunsTheBigStep := by
  intro d s hready
  cases hv : valid d.kind d.operands.addr d.operands.len with
  | false =>
    exact ⟨fun k => (0#8, s.oks.getD k true), _, fun k hk => by simp [hk], runCommand_invalid hready hv,
      runsAs_invalid hv _ s⟩
  | true =>
    obtain ⟨kind, o⟩ := d
    obtain ⟨c, rfl⟩ := exists_command_of_valid hv
    rw [valid_kind] at hv
    obtain ⟨oracle, hscript, t, hrun, hends⟩ := runCommand_any hready hv
    exact ⟨oracle, t, hscript, hrun, hends.runsAs hv⟩

/-! ### The bytes clocked out when no transfer fails -/

/-- The byte a transfer clocks out: FILLER while one comes in (R94, R101). -/
def Transfer.byteOut : Transfer → Byte
  | .send b => b
  | .receive => Config.filler

theorem Transfer.event_byteOut (tr : Transfer) (b : Byte) (ok : Bool) : (tr.event b ok).byteOut = [tr.byteOut] := by
  cases tr <;> rfl

/-- Transfers that do not fail clock out each its byte. -/
theorem bytesOut_runTransfers (h : ∀ k, (oracle k).2 = true) (R : List Transfer) :
    bytesOut (runTransfers oracle R).events = R.map Transfer.byteOut := by
  induction R generalizing oracle with
  | nil => rfl
  | cons tr R ih =>
    have hrest := ih fun k => h (k + 1)
    rw [bytesOut] at hrest
    rw [runTransfers_cons_ok (h 0), bytesOut, List.flatMap_cons, hrest, Transfer.event_byteOut]
    rfl

theorem runTransfers_events_length (h : ∀ k, (oracle k).2 = true) (R : List Transfer) :
    (runTransfers oracle R).events.length = R.length := by
  induction R generalizing oracle with
  | nil => rfl
  | cons tr R ih =>
    rw [runTransfers_cons_ok (h 0)]
    exact congrArg (· + 1) (ih fun k => h (k + 1))

/-- The bytes of a command's transfers are its frame (R94). -/
theorem map_byteOut_frameTransfers (c : Command) (o : Operands) :
    (frameTransfers o c).map Transfer.byteOut = c.frame o := by
  have hsend (l : List Byte) : (l.map Transfer.send).map Transfer.byteOut = l := by
    simp [Function.comp_def, Transfer.byteOut]
  rw [frameTransfers_eq, List.map_append, hsend, Command.frame, dataTransfers, Command.dataOut]
  cases c.dir with
  | out => simp only [hsend]
  | inward => simp only [List.map_replicate, Transfer.byteOut]
  | none => rfl

theorem bytesOut_framed (es : List Event) : bytesOut (framed es) = bytesOut es := by
  simp [bytesOut, framed, Event.byteOut]

/-- Settles O48: each transfer of the frame clocks out its byte, and Sel, Desel and Delay are the three other events. -/
theorem bigStepSendsTheFrame : Obligations.BigStepSendsTheFrame := by
  intro i answers hv
  rw [instrValid_eq] at hv
  have hok (k : Nat) : (answers k, true).2 = true := rfl
  rw [Instr.descriptor, bigStep_valid hv]
  constructor
  · change bytesOut _ = _
    rw [bytesOut_framed, bytesOut_runTransfers hok, map_byteOut_frameTransfers, encode_eq]
  · have hlen : (frameTransfers i.operands i.command).length = i.command.frameLen i.operands.len := by
      rw [← Command.frame_length_eq hv, ← map_byteOut_frameTransfers, List.length_map]
    simp [framed, runTransfers_events_length hok, hlen]

end Sys2Proof.Machine
end

section
/-! PROOFS. Each phase as one step of the machine (R103 to R112), and what the check decides KIND by KIND (R102). -/

namespace Sys2Proof.Machine

variable {s v : State} {c : Command}

/-! ### The check (R102) -/

theorem readCheck_eq_true_iff {pageSize : Nat} {len : Half} :
    readCheck pageSize len = true ↔ 1 ≤ len.toNat ∧ len.toNat ≤ pageSize := by
  simp [readCheck]

theorem writeCheck_eq_true_iff {pageSize : Nat} {addr len : Half} :
    writeCheck pageSize addr len = true ↔
      1 ≤ len.toNat ∧ len.toNat ≤ pageSize ∧ crosses pageSize addr.toNat len.toNat = false := by
  simp [writeCheck, and_assoc]

theorem writePageCheck_eq_true_iff {pageSize : Nat} {addr len : Half} :
    writePageCheck pageSize addr len = true ↔
      len.toNat = pageSize ∧ crosses pageSize addr.toNat len.toNat = false := by
  simp [writePageCheck]

/-- Settles O4: each KIND has the check of its command. -/
theorem checkDecidesByKind : Obligations.CheckDecidesByKind := fun _ _ =>
  ⟨rfl, rfl, rfl, rfl, rfl, readCheck_eq_true_iff, writeCheck_eq_true_iff, writePageCheck_eq_true_iff⟩

/-! ### The step of a machine with no reset to come -/

/-- The step of a machine in a command whose phase is enabled is that phase. -/
theorem step_eq_phaseStep (hp : s.phase ≠ .idle) (hr : s.resets = []) (hstuck : s.stuck = none) :
    step s = .next (phaseStep s) := by
  simp [step, not_resetDue hr, State.busy, hp, advance, hstuck, countdown_of_none hr]

/-- OPC and DONE need a command, and no other phase but DATA can be stuck (R84, R109). -/
theorem stuck_eq_none_of_command (hc : s.command = some c) (hp : s.phase ≠ .data) : s.stuck = none := by
  unfold State.stuck
  split
  · rw [hc, if_neg (by simp)]
  · next hdata => exact absurd hdata hp
  · rw [hc, if_neg (by simp)]
  · rfl

theorem stuck_eq_none_of_data (hc : s.command = some c) (hp : s.phase = .data) (hn : s.idx.toNat < s.n.toNat)
    (hpage : s.idx.toNat < Config.pageSize) : s.stuck = none := by
  rw [State.stuck, hp]
  simp only [hc, reduceCtorEq, if_false, hn, hpage, and_self, if_true]

/-- Settles O24: nobody waits, so that nothing is accepted. -/
theorem idleMachineStays : Obligations.IdleMachineStays := by
  rintro s ⟨hp, hr⟩ hnone
  simp [step, not_resetDue hr, State.busy, hp, arbitrate_none hnone, countdown_of_none hr]

/-- Settles O13: a passed check writes N; a failed one raises InvalidArgument. -/
theorem checkStep : Obligations.CheckStep := by
  intro s hp hr
  rw [step_eq_phaseStep (by simp [hp]) hr (by simp [State.stuck, hp])]
  constructor
  · intro c hc hv
    rw [phaseStep_check_valid hp (Command.kind_of_ofKind hc).symm hv]
  · intro hv
    rw [phaseStep_check_invalid hp hv]
    rfl

/-- Settles O14: the line goes low and the device sees the select edge. -/
theorem selectStep : Obligations.SelectStep := by
  intro s hp hr
  rw [step_eq_phaseStep (by simp [hp]) hr (by simp [State.stuck, hp]), phaseStep_sel hp]
  rfl

/-! ### What a transfer leaves unchanged (R101) -/

/-- A transfer writes RBUF, the device, the inputs of the bus and the trace only (R101). -/
def OnlyTransferred (s v : State) : Prop :=
  ∃ rbuf dev oks trace draws, v = { s with rbuf := rbuf, dev := dev, oks := oks, trace := trace, draws := draws }

theorem onlyTransferred_busTx (b : Byte) (s : State) : OnlyTransferred s (busTx b s) := ⟨_, _, _, _, _, rfl⟩

theorem onlyTransferred_busRx_storeByte (ok : Bool) (b f : Byte) (s : State) :
    OnlyTransferred s (storeByte ok b (busRx f s)) := ⟨_, _, _, _, _, rfl⟩

/-! ### The header (R106 to R108) -/

/-- What a header byte leaves: its transfer, the phase it leads to, and the registers it does not write. -/
structure HeaderByte (b : Byte) (next : Phase) (s t : State) : Prop where
  trace : t.trace = s.trace ++ [Event.tx b s.nextOk]
  failed : s.nextOk = false → t.err = true ∧ t.phase = .desel
  transferred : s.nextOk = true → t.err = s.err ∧ t.phase = next
  kept : LatchesKept s t ∧ ResultsKept s t ∧ InputsKept s t ∧
    t.csN = s.csN ∧ t.n = s.n ∧ t.idx = s.idx ∧ t.rbuf = s.rbuf

theorem OnlyTransferred.headerByte {b : Byte} (hv : OnlyTransferred s v)
    (htrace : v.trace = s.trace ++ [Event.tx b s.nextOk]) (hrbuf : v.rbuf = s.rbuf) (next : Phase) :
    HeaderByte b next s (afterTransfer s.nextOk next v) := by
  obtain ⟨rbuf, dev, oks, trace, draws, rfl⟩ := hv
  rcases afterTransfer_cases s.nextOk next _ with ⟨hok, h⟩ | ⟨hok, h⟩ <;> rw [h]
  · exact ⟨htrace, by simp [hok], fun _ => ⟨rfl, rfl⟩,
      ⟨rfl, rfl, rfl, rfl⟩, ⟨rfl, rfl, rfl⟩, ⟨rfl, rfl⟩, rfl, rfl, rfl, hrbuf⟩
  · exact ⟨htrace, fun _ => ⟨rfl, rfl⟩, by simp [hok],
      ⟨rfl, rfl, rfl, rfl⟩, ⟨rfl, rfl, rfl⟩, ⟨rfl, rfl⟩, rfl, rfl, rfl, hrbuf⟩

/-- A byte of the header is transferred (R106 to R108). -/
theorem headerByte_busTx (b : Byte) (next : Phase) (s : State) :
    HeaderByte b next s (afterTransfer s.nextOk next (busTx b s)) :=
  (onlyTransferred_busTx b s).headerByte (busTx_trace s b) (busTx_rbuf s b) next

theorem afterOpcode_of_addr (h : c.hasAddr = true) (n : Half) : afterOpcode c n = .alo := by simp [afterOpcode, h]

theorem afterOpcode_of_data {n : Half} (h : c.hasAddr = false) (hn : 0 < n.toNat) : afterOpcode c n = .data := by
  simp [afterOpcode, h, hn]

theorem afterOpcode_of_no_data {n : Half} (h : c.hasAddr = false) (hn : n.toNat = 0) : afterOpcode c n = .desel := by
  simp [afterOpcode, h, hn]

/-- Settles O15: the opcode is a header byte, after which the frame goes on as its format says. -/
theorem opcodeStep : Obligations.OpcodeStep := by
  intro s c hp hr hc
  obtain ⟨htrace, hfailed, hok, hkept⟩ := headerByte_busTx c.opcode (afterOpcode c s.n) s
  rw [← phaseStep_opc hp (Command.kind_of_ofKind hc).symm] at htrace hfailed hok hkept
  refine ⟨phaseStep s, step_eq_phaseStep (by simp [hp]) hr (stuck_eq_none_of_command hc (by simp [hp])),
    htrace, hfailed, fun h => ?_, hkept⟩
  obtain ⟨herr, hphase⟩ := hok h
  exact ⟨herr, fun ha => hphase.trans (afterOpcode_of_addr ha _),
    fun ha hn => hphase.trans (afterOpcode_of_data ha hn),
    fun ha hn => hphase.trans (afterOpcode_of_no_data ha hn)⟩

/-- Settles O16: both address bytes are header bytes; a command with an address passes its check with data only. -/
theorem addressSteps : Obligations.AddressSteps := by
  refine ⟨fun c a l ha hv => ?_, fun s hr => ⟨fun hp => ?_, fun hp => ?_⟩⟩
  · rw [valid_kind] at hv
    exact (commandCheck_bounds hv).2 ha
  · obtain ⟨htrace, hfailed, hok, hkept⟩ := headerByte_busTx (lowByte s.addr) .ahi s
    refine ⟨_, step_eq_phaseStep (by simp [hp]) hr (by simp [State.stuck, hp]), ?_⟩
    rw [phaseStep_alo hp]
    exact ⟨htrace, hfailed, hok, hkept⟩
  · obtain ⟨htrace, hfailed, hok, hkept⟩ := headerByte_busTx (highByte s.addr) .data s
    refine ⟨_, step_eq_phaseStep (by simp [hp]) hr (by simp [State.stuck, hp]), ?_⟩
    rw [phaseStep_ahi hp]
    exact ⟨htrace, hfailed, hok, hkept⟩

/-! ### The data bytes (R109) -/

/-- What a data byte leaves of the registers but RBUF: it is counted if it was transferred. -/
structure DataByte (ok : Bool) (s t : State) : Prop where
  failed : ok = false → t.err = true ∧ t.phase = .desel ∧ t.idx = s.idx
  transferred : ok = true → t.err = s.err ∧ t.idx.toNat = s.idx.toNat + 1 ∧
    (s.idx.toNat + 1 = s.n.toNat → t.phase = .desel) ∧ (s.idx.toNat + 1 ≠ s.n.toNat → t.phase = .data)
  kept : LatchesKept s t ∧ ResultsKept s t ∧ InputsKept s t ∧ t.csN = s.csN ∧ t.n = s.n

/-- IDX does not wrap below the page size (R22, R76). -/
theorem idx_succ_toNat (h : s.idx.toNat < Config.pageSize) : (s.idx + 1#16).toNat = s.idx.toNat + 1 := by
  simp only [Config.pageSize] at h
  simp only [BitVec.toNat_add, BitVec.toNat_ofNat]
  omega

theorem OnlyTransferred.dataByte (hv : OnlyTransferred s v) (ok : Bool) (h : s.idx.toNat < Config.pageSize) :
    DataByte ok s (afterData ok v) := by
  obtain ⟨rbuf, dev, oks, trace, draws, rfl⟩ := hv
  cases ok with
  | false =>
    exact ⟨fun _ => ⟨rfl, rfl, rfl⟩, by simp, ⟨rfl, rfl, rfl, rfl⟩, ⟨rfl, rfl, rfl⟩, ⟨rfl, rfl⟩, rfl, rfl⟩
  | true =>
    have hidx := idx_succ_toNat h
    have hlast : s.idx + 1#16 = s.n ↔ s.idx.toNat + 1 = s.n.toNat := by rw [← BitVec.toNat_inj, hidx]
    refine ⟨by simp, fun _ => ⟨rfl, hidx, fun hn => ?_, fun hn => ?_⟩,
      ⟨rfl, rfl, rfl, rfl⟩, ⟨rfl, rfl, rfl⟩, ⟨rfl, rfl⟩, rfl, rfl⟩
    · rw [afterData_true, goto_phase, if_pos (hlast.mpr hn)]
    · rw [afterData_true, goto_phase, if_neg (mt hlast.mp hn)]

theorem afterData_trace (ok : Bool) (s : State) : (afterData ok s).trace = s.trace := by cases ok <;> rfl

theorem afterData_rbuf (ok : Bool) (s : State) : (afterData ok s).rbuf = s.rbuf := by cases ok <;> rfl

/-- A byte that was transferred is stored at IDX, which lies inside the buffer (R109). -/
theorem storeByte_rbuf_of_lt (ok : Bool) (b : Byte) (h : s.idx.toNat < Config.pageSize) :
    (storeByte ok b s).rbuf = if ok then s.rbuf.set s.idx.toNat b else s.rbuf := by
  have hset : s.rbuf.setIfInBounds s.idx.toNat b = s.rbuf.set s.idx.toNat b := by
    ext k hk : 1
    rw [Vector.getElem_setIfInBounds, Vector.getElem_set]
  rw [storeByte, hset]

/-- Settles O17: the byte goes out of WBUF or comes into RBUF, and is counted. -/
theorem dataStep : Obligations.DataStep := by
  intro s c hpage hp hr hc hn
  have hkind := (Command.kind_of_ofKind hc).symm
  refine ⟨phaseStep s, step_eq_phaseStep (by simp [hp]) hr (stuck_eq_none_of_data hc hp hn hpage), ?_⟩
  by_cases hd : c.dir = .out
  · rw [phaseStep_data_out hp hkind hd hn hpage]
    obtain ⟨hfailed, hok, hkept⟩ := (onlyTransferred_busTx s.wbuf[s.idx.toNat] s).dataByte s.nextOk hpage
    refine ⟨fun _ => ⟨?_, ?_⟩, fun hin => absurd hd hin, hfailed, hok, hkept⟩
    · rw [afterData_trace, busTx_trace]
    · rw [afterData_rbuf, busTx_rbuf]
  · rw [phaseStep_data_in hp hkind hd hn hpage]
    obtain ⟨hfailed, hok, hkept⟩ :=
      (onlyTransferred_busRx_storeByte s.nextOk s.nextByte Config.filler s).dataByte s.nextOk hpage
    refine ⟨fun hout => absurd hout hd, fun _ => ⟨?_, ?_⟩, hfailed, hok, hkept⟩
    · rw [afterData_trace, storeByte_trace, busRx_trace]
    · exact (afterData_rbuf _ _).trans (storeByte_rbuf_of_lt (s := busRx Config.filler s) _ _ hpage)

/-! ### The end of a frame (R110 to R112) -/

/-- Settles O18: the line goes high and the device sees the deselect edge, whatever ERR is. -/
theorem deselectStep : Obligations.DeselectStep := by
  intro s hp hr
  refine ⟨_, step_eq_phaseStep (by simp [hp]) hr (by simp [State.stuck, hp]), ?_⟩
  rw [phaseStep_desel hp]
  exact ⟨rfl, rfl, rfl, Device.deselect_frame _ _, ⟨rfl, rfl, rfl, rfl⟩, ⟨rfl, rfl, rfl⟩, ⟨rfl, rfl⟩,
    rfl, rfl, rfl, rfl, rfl⟩

/-- Settles O19: the settle delay runs, and nothing but the device sees it. -/
theorem settleStep : Obligations.SettleStep := by
  intro s hp hr
  refine ⟨_, step_eq_phaseStep (by simp [hp]) hr (by simp [State.stuck, hp]), ?_⟩
  rw [phaseStep_settle hp]
  exact ⟨rfl, rfl, rfl, ⟨rfl, rfl, rfl, rfl⟩, ⟨rfl, rfl, rfl⟩, ⟨rfl, rfl⟩, rfl, rfl, rfl, rfl, rfl⟩

theorem resultLength_eq (c : Command) (n : Half) : resultLength c n = if c.dir = .inward then n else 0#16 := by
  unfold resultLength
  cases c.dir <;> rfl

/-- Settles O20: the command completes with BusError if ERR is set, and with its result otherwise. -/
theorem doneStep : Obligations.DoneStep := by
  intro s c hp hr hc
  have hkind := (Command.kind_of_ofKind hc).symm
  rw [step_eq_phaseStep (by simp [hp]) hr (stuck_eq_none_of_command hc (by simp [hp]))]
  constructor
  · intro herr
    rw [phaseStep_done_err hp hkind herr]
    rfl
  · intro herr
    rw [phaseStep_done_ok hp hkind herr, resultLength_eq]
    rfl

end Sys2Proof.Machine
end

section
/-! PROOFS. A command that completes on a bus that does not fail (R104 to R113), and the two commands of the latch, WREN
and WRDI (R58, R120, R121). -/

namespace Sys2Proof.Machine

variable {s t : State} {c : Command} {o : Operands} {f : DeviceFrame}

/-! ### Completion with STATUS OK -/

/-- As many transfers as the frame has bytes, in either direction (R94). -/
theorem okTransfers_length (hv : commandCheck Config.pageSize o.addr o.len c = true) :
    (okTransfers c o s).length = (c.header o.addr).length + (c.nData o.len).toNat := by
  unfold okTransfers
  split
  · simp [sent, got]
  · simp [sent, frame_length hv]

/-- A valid instruction on a bus that does not fail for its transfers completes with STATUS OK (R112, R113). -/
theorem exec_completedOk {i : Instr} (h : s.Ready) (hv : instrValid i = true)
    (hbus : s.BusOk ((i.command.header i.operands.addr).length + (i.command.nData i.operands.len).toNat)) :
    ∃ rest, exec i s = .next (okState i.command i.operands rest s) ∧
      CompletedOk i.command i.operands (resultLength i.command (i.command.nData i.operands.len))
        (okTransfers i.command i.operands s) s (okState i.command i.operands rest s) := by
  refine ⟨_, exec_ok h hv hbus.oks_eq, ⟨rfl, rfl, rfl, rfl, rfl, rfl, rfl, rfl, rfl⟩, rfl, rfl, rfl, rfl, ?_, rfl, rfl⟩
  rw [okTransfers_length (instrValid_eq i ▸ hv)]
  rfl

/-! ### The effect of a whole WREN or WRDI frame -/

theorem Device.endFrame_wrdi (d : Device) (draw : Nat) :
    d.endFrame draw (.whole [0x04#8]) = { d with wel := false } := rfl

/-- A frame whose one effect is on the latch leaves the array and the status register (R58). -/
theorem DeviceTook.only_latch {draw : Nat} {latch : Bool} (h : DeviceTook f draw s t)
    (hend : ({ s.dev with frame := some f } : Device).endFrame draw f = { s.dev with frame := some f, wel := latch }) :
    t.dev.wel = latch ∧ (∀ a, t.memByte a = s.memByte a) ∧ t.dev.sr = s.dev.sr := by
  obtain ⟨hcell, hwel, hsr⟩ := Device.elapse_keeps { s.dev with frame := none, wel := latch } Config.tSettleMs
  rw [← h.dev_of_endFrame hend] at hcell hwel hsr
  exact ⟨hwel, hcell, hsr⟩

/-! ### WREN and WRDI -/

/-- Settles O28: the one-byte frame `06` arrives whole, and its effect is the latch set. -/
theorem wrenCompletes : Obligations.WrenCompletes := by
  intro o s hready hbus hq
  obtain ⟨rest, hexec, hdone⟩ := exec_completedOk (i := .wren o) hready rfl hbus
  have htook := okState_deviceTook (c := .wren) (o := o) (rest := rest) hq
  exact ⟨_, hexec, hdone, rfl, htook.only_latch (Device.endFrame_wren _ _)⟩

/-- Settles O29: the one-byte frame `04` arrives whole, and its effect is the latch cleared. -/
theorem wrdiCompletes : Obligations.WrdiCompletes := by
  intro o s hready hbus hq
  obtain ⟨rest, hexec, hdone⟩ := exec_completedOk (i := .wrdi o) hready rfl hbus
  have htook := okState_deviceTook (c := .wrdi) (o := o) (rest := rest) hq
  exact ⟨_, hexec, hdone, rfl, htook.only_latch (Device.endFrame_wrdi _ _)⟩

end Sys2Proof.Machine
end

section
/-! PROOFS. The two commands of the status register on a bus that does not fail: RDSR (R61, R130) and WRSR
(R62, R131, R154). -/

namespace Sys2Proof.Machine

variable {s t : State} {o : Operands}

/-! ### The effect of a whole WRSR frame (R62) -/

theorem Device.endFrame_wrsr (d : Device) (draw : Nat) (b : Byte) :
    d.endFrame draw (.whole [0x01#8, b]) = d.endWrsr draw := rfl

theorem Device.endWrsr_of_latch_clear {d : Device} (h : d.wel = false) (draw : Nat) : d.endWrsr draw = d := if_pos h

/-- A latch that was set is cleared by the write it allowed. -/
theorem Device.endWrsr_wel (d : Device) (draw : Nat) : (d.endWrsr draw).wel = false := by
  cases h : d.wel with
  | false => rw [Device.endWrsr_of_latch_clear h, h]
  | true => simp [Device.endWrsr, h, Device.afterWrite]

/-- What a command with a whole WRSR frame leaves in the device. -/
theorem DeviceTook.of_wrsr {draw : Nat} {b : Byte} (h : DeviceTook (.whole [0x01#8, b]) draw s t) :
    (∀ a, t.memByte a = s.memByte a) ∧ t.dev.wel = false ∧ (s.dev.wel = false → t.dev.sr = s.dev.sr) := by
  have hend := Device.endFrame_wrsr { s.dev with frame := some (.whole [0x01#8, b]) } draw b
  refine ⟨fun a => ?_, ?_, fun hclear => ?_⟩
  · rw [h.memByte, hend, Device.cell_endWrsr]
    rfl
  · obtain ⟨-, hwel, -⟩ := Device.elapse_keeps _ _
    rw [h.dev_of_endFrame hend, hwel]
    exact Device.endWrsr_wel _ draw
  · obtain ⟨-, -, hsr⟩ := h.deviceKept (hend.trans (Device.endWrsr_of_latch_clear (by exact hclear) draw))
    exact hsr

/-! ### The bytes of an RDSR and of a WRSR (R94) -/

/-- The byte the device answers to an RDSR; the spec fixes nothing of it (R61). -/
def statusAnswer (s : State) : Byte := (s.dev.select.push [0x05#8]).answer s.draws

theorem okTransfers_rdsr (o : Operands) (s : State) :
    okTransfers .rdsr o s = sent [0x05#8] ++ got [statusAnswer s] := rfl

/-- The one byte an RDSR clocks in goes to the start of RBUF. -/
theorem okRbuf_rdsr_getElem_zero (o : Operands) (s : State) : (okRbuf .rdsr o s)[0] = statusAnswer s :=
  fillFrom_getElem s.rbuf 0 [statusAnswer s] 0 (by decide)

theorem frame_wrsr (o : Operands) : Command.frame o .wrsr = [0x01#8, o.wdata[0]] := by
  have hdata : o.wdata.toList.take 1 = [o.wdata[0]] := by
    simp [List.take_one, List.head?_eq_getElem?]
  exact congrArg (0x01#8 :: ·) hdata

/-! ### RDSR and WRSR -/

/-- Settles O30: the byte the device answers comes into RBUF, and a frame that reads has no effect on the device. -/
theorem rdsrCompletes : Obligations.RdsrCompletes := by
  intro o s hready hbus hq
  obtain ⟨rest, hexec, hdone⟩ := exec_completedOk (i := .rdsr o) hready rfl hbus
  have htook := okState_deviceTook (c := .rdsr) (o := o) (rest := rest) hq
  have hread : ∀ b ∈ (Command.frame o .rdsr).head?, b = 0x03#8 ∨ b = 0x05#8 := fun _ hb =>
    .inr (Option.mem_some.mp hb).symm
  exact ⟨_, statusAnswer s, hexec, hdone, okRbuf_rdsr_getElem_zero o s,
    htook.deviceKept (Device.endFrame_of_read _ rfl hread)⟩

/-- Settles O31: the two-byte frame arrives whole, and the device takes it as a write to the status register. -/
theorem wrsrCompletes : Obligations.WrsrCompletes := by
  intro o s hready hbus hq
  obtain ⟨rest, hexec, hdone⟩ := exec_completedOk (i := .wrsr o) hready rfl hbus
  have htook := okState_deviceTook (c := .wrsr) (o := o) (rest := rest) hq
  rw [frame_wrsr] at htook
  have htransfers : okTransfers .wrsr o s = sent [0x01#8, o.wdata[0]] := congrArg sent (frame_wrsr o)
  exact ⟨_, hexec, htransfers ▸ hdone, rfl, htook.of_wrsr⟩

end Sys2Proof.Machine
end

section
/-! PROOFS. READ and its two aliases on a bus that does not fail (R59, R140 to R143), and the checks of the three aliases
(R142, R143, R153). -/

namespace Sys2Proof.Machine

variable {s : State} {o : Operands}

/-! ### The checks of the aliases -/

/-- One byte never crosses a page (R54). -/
theorem not_crosses_one {pageSize : Nat} (h : 0 < pageSize) (a : Nat) : crosses pageSize a 1 = false :=
  crosses_eq_false_iff.mpr (Nat.mod_lt a h)

/-- Settles O5: the LEN of each alias lies in the range of its check, and the one byte of WRITE_BYTE in its page. -/
theorem aliasChecksAlwaysPass : Obligations.AliasChecksAlwaysPass := by
  intro a v
  simp only [instrValid_eq]
  exact ⟨(readCheck_eq_true_iff (len := 16#16)).mpr (by decide), (readCheck_eq_true_iff (len := 1#16)).mpr (by decide),
    (writeCheck_eq_true_iff (len := 1#16)).mpr ⟨by decide, by decide, not_crosses_one (by decide) a.toNat⟩⟩

/-! ### The bytes of a READ (R59, R94) -/

/-- The bytes the device answers to a READ. -/
def readAnswers (o : Operands) (s : State) : List Byte :=
  (s.dev.select.push (Command.header o.addr .read)).answers s.draws o.len.toNat

theorem readAnswers_length (o : Operands) (s : State) : (readAnswers o s).length = o.len.toNat :=
  Device.answers_length _ _ _

theorem okTransfers_read (o : Operands) (s : State) :
    okTransfers .read o s = sent [0x03#8, lowByte o.addr, highByte o.addr] ++ got (readAnswers o s) := rfl

theorem okRbuf_read (o : Operands) (s : State) : okRbuf .read o s = fillFrom s.rbuf 0 (readAnswers o s) := rfl

/-- RBUF holds the answers from its start on. -/
theorem okRbuf_read_getElem? {i : Nat} (hpage : i < Config.pageSize) (hlen : i < o.len.toNat) :
    (okRbuf .read o s)[i]? = (readAnswers o s)[i]? := by
  have hi : i < (readAnswers o s).length := by rwa [readAnswers_length]
  rw [Vector.getElem?_eq_getElem hpage, List.getElem?_eq_getElem hi, okRbuf_read, fillFrom_getElem _ _ _ _ hpage,
    dif_pos ⟨Nat.zero_le i, by rwa [Nat.zero_add]⟩]
  rfl

/-- A quiet device answers with the content of its array (R59). -/
theorem readAnswers_getElem? (hq : s.DeviceQuiet) {i : Nat} (hlen : i < o.len.toNat)
    (hin : o.addr.toNat + i < Config.memSize) : (readAnswers o s)[i]? = some (s.memByte (o.addr.toNat + i)) := by
  have hframe : (s.dev.select.push (Command.header o.addr .read)).frame =
      some (.whole [0x03#8, lowByte o.addr, highByte o.addr]) := by
    rw [Device.select_push_of_quiet hq]
    rfl
  rw [readAnswers, Device.answers_of_read hlen s.draws hframe, joinBytes_low_high, List.length_nil, Nat.zero_add,
    Device.readAt, if_pos hin]
  rfl

/-- A list of one byte for each index of a page is the page. -/
theorem page_toList_eq {p : Page} {l : List Byte} (hlen : l.length = Config.pageSize)
    (h : ∀ i, i < Config.pageSize → p[i]? = l[i]?) : p.toList = l := by
  refine List.ext_getElem? fun i => ?_
  rw [Vector.getElem?_toList]
  rcases Nat.lt_or_ge i Config.pageSize with hi | hi
  · exact h i hi
  · rw [Vector.getElem?_eq_none hi, List.getElem?_eq_none (hlen.le.trans hi)]

/-! ### READ and its aliases -/

/-- Settles O32: the device answers with one byte of its array after the other, RBUF takes the answers from its start
on, and a frame that reads has no effect on the device. -/
theorem readCompletes : Obligations.ReadCompletes := by
  intro o s hready hv hbus hq
  obtain ⟨rest, hexec, hdone⟩ := exec_completedOk (i := .read o) hready hv hbus
  obtain ⟨hpage, -⟩ := commandCheck_bounds (instrValid_eq (.read o) ▸ hv)
  have htook := okState_deviceTook (c := .read) (o := o) (rest := rest) hq
  have hread : ∀ b ∈ (Command.frame o .read).head?, b = 0x03#8 ∨ b = 0x05#8 := fun _ hb =>
    .inl (Option.mem_some.mp hb).symm
  exact ⟨_, readAnswers o s, hexec, readAnswers_length o s, hdone,
    fun _ hi => okRbuf_read_getElem? (Nat.lt_of_lt_of_le hi hpage) hi,
    fun _ hi hin => readAnswers_getElem? hq hi hin,
    htook.deviceKept (Device.endFrame_of_read _ rfl hread)⟩

/-- READ_PAGE is the READ it expands to (R91, R142). -/
theorem exec_readPage (a : Half) (s : State) :
    exec (.readPage a) s = exec (.read (Instr.operands (.readPage a))) s := rfl

/-- READ_BYTE is the READ it expands to (R91, R143). -/
theorem exec_readByte (a : Half) (s : State) :
    exec (.readByte a) s = exec (.read (Instr.operands (.readByte a))) s := rfl

/-- Settles O33: an alias is the READ it expands to, whose check always passes. -/
theorem readAliasesComplete : Obligations.ReadAliasesComplete := by
  intro a s hready hq
  obtain ⟨hpage, hbyte, -⟩ := aliasChecksAlwaysPass a 0#8
  constructor
  · intro hbus
    obtain ⟨t, received, hexec, hlen, hdone, hrbuf, hmem, hkept⟩ := readCompletes _ s hready hpage hbus hq
    exact ⟨t, received, (exec_readPage a s).trans hexec, hlen, hdone, page_toList_eq hlen hrbuf, hmem, hkept⟩
  · intro hbus
    obtain ⟨t, received, hexec, hlen, hdone, hrbuf, hmem, hkept⟩ := readCompletes _ s hready hbyte hbus hq
    obtain ⟨v, rfl⟩ := List.length_eq_one_iff.mp hlen
    refine ⟨t, v, (exec_readByte a s).trans hexec, hdone, ?_, fun hin => ?_, hkept⟩
    · exact Option.some.inj ((Vector.getElem?_eq_getElem (by decide)).symm.trans (hrbuf 0 Nat.one_pos))
    · exact Option.some.inj (hmem 0 Nat.one_pos hin)

end Sys2Proof.Machine
end

section
/-! PROOFS. WRITE, WRITE_PAGE and WRITE_BYTE: what they store on a bus that does not fail (R51, R60, R150 to R153), and
that without the latch they store nothing, whatever the bus does (R154). -/

namespace Sys2Proof.Machine

variable {s t : State} {d : Device} {f : DeviceFrame} {c : Command} {o : Operands}

/-! ### A write without the latch (R60, R154) -/

/-- While the latch is clear a WRITE frame, whole or cut, has no effect. -/
theorem Device.endFrame_write_of_latch_clear (draw : Nat) (hwel : d.wel = false) (hc : f.inCycle = false)
    (hop : ∀ b ∈ f.bytes.head?, b = 0x02#8) : d.endFrame draw f = d := by
  unfold Device.endFrame
  cases hb : f.bytes with
  | nil => simp [hc]
  | cons op rest =>
    obtain rfl : op = 0x02#8 := hop op (by simp [hb])
    simp [hc, Device.endWrite, hwel]

/-- What the two write commands share (R84, R85). -/
theorem opcode_hasAddr_dir_of_write (hc : c = .write ∨ c = .writePage) :
    c.opcode = 0x02#8 ∧ c.hasAddr = true ∧ c.dir = .out := by
  rcases hc with rfl | rfl <;> exact ⟨rfl, rfl, rfl⟩

/-- Settles O39: the frame of a write, whole or cut, holds no byte or starts with the opcode of WRITE, and with the
latch clear neither has an effect. -/
theorem writeWithoutEnableIsIgnored : Obligations.WriteWithoutEnableIsIgnored := by
  intro i s t hi hready hq hwel hexec
  rcases exec_deviceTook hready hq hexec with hdev | ⟨g, draw, htook, hopcode⟩
  · exact deviceKept_of_dev_eq hdev
  · obtain ⟨hwrite, -⟩ := opcode_hasAddr_dir_of_write hi
    exact htook.deviceKept (Device.endFrame_write_of_latch_clear draw hwel htook.quiet fun b hb =>
      (hopcode b hb).trans hwrite)

/-! ### The effect of a whole WRITE frame (R51, R60) -/

/-- What a write of `data` to the bytes from `a` on leaves in the device: with the latch set and the bytes inside the
array they are stored and the latch is cleared; with the latch clear the device is as before. -/
def WriteTook (a : Nat) (data : List Byte) (s t : State) : Prop :=
  (s.dev.wel = true → a + data.length ≤ Config.memSize →
    StoredBytes a data s t ∧ t.dev.wel = false ∧ t.dev.sr = s.dev.sr) ∧
  (s.dev.wel = false → DeviceKept s t)

/-- What a command with a whole WRITE frame inside a page leaves in the device. -/
theorem DeviceTook.of_write {draw : Nat} {lo hi : Byte} {data : List Byte}
    (h : DeviceTook (.whole (0x02#8 :: lo :: hi :: data)) draw s t) (hne : data ≠ [])
    (hc : crosses Config.pageSize (joinBytes lo hi).toNat data.length = false) :
    WriteTook (joinBytes lo hi).toNat data s t := by
  constructor
  · intro hwel hin
    have hend := Device.endFrame_write (d := { s.dev with frame := some (.whole (0x02#8 :: lo :: hi :: data)) }) draw
      hwel hne hc hin
    obtain ⟨hstored, -⟩ := write_stores hwel hne hc hin h
    obtain ⟨-, hlatch, hsr⟩ := Device.elapse_keeps _ _
    have hdev := h.dev_of_endFrame hend
    refine ⟨⟨hstored, fun x hx => ?_⟩, ?_, ?_⟩
    · rw [h.memByte, hend, Device.cell_afterWrite, Device.cell_writeBytes, dif_neg (by omega)]
      rfl
    · rw [hdev, hlatch]
      rfl
    · rw [hdev, hsr]
      rfl
  · intro hwel
    exact h.deviceKept (Device.endFrame_write_of_latch_clear draw hwel rfl fun _ hb => (Option.mem_some.mp hb).symm)

/-! ### The bytes of a write (R94) -/

/-- The payload of a write: the first LEN bytes of WDATA. -/
def writePayload (o : Operands) : List Byte := o.wdata.toList.take o.len.toNat

theorem frame_of_write (hc : c = .write ∨ c = .writePage) (o : Operands) :
    c.frame o = 0x02#8 :: lowByte o.addr :: highByte o.addr :: writePayload o := by
  rcases hc with rfl | rfl <;> rfl

theorem okTransfers_of_write (hc : c = .write ∨ c = .writePage) (o : Operands) (s : State) :
    okTransfers c o s = sent (0x02#8 :: lowByte o.addr :: highByte o.addr :: writePayload o) := by
  rcases hc with rfl | rfl <;> rfl

/-- A write that passes its check has a payload of LEN bytes, at least one. -/
theorem writePayload_length (hc : c = .write ∨ c = .writePage)
    (hv : commandCheck Config.pageSize o.addr o.len c = true) :
    (writePayload o).length = o.len.toNat ∧ writePayload o ≠ [] := by
  obtain ⟨-, haddr, -⟩ := opcode_hasAddr_dir_of_write hc
  obtain ⟨hpage, hpos⟩ := commandCheck_bounds hv
  rw [Command.nData_of_hasAddr haddr] at hpage hpos
  have hlength : (writePayload o).length = o.len.toNat := by
    rw [writePayload, List.length_take, Vector.length_toList]
    exact Nat.min_eq_left hpage
  exact ⟨hlength, List.ne_nil_of_length_pos (hlength ▸ hpos haddr)⟩

/-! ### The three write instructions on a bus that does not fail -/

/-- A valid write sends its header and payload, completes with STATUS OK, and the device takes the payload. -/
theorem exec_write_completes {i : Instr} (hi : i.command = .write ∨ i.command = .writePage) (hready : s.Ready)
    (hv : instrValid i = true) (hbus : s.BusOk (3 + i.operands.len.toNat)) (hq : s.DeviceQuiet) :
    ∃ t, exec i s = .next t ∧
      CompletedOk i.command i.operands 0#16
        (sent (0x02#8 :: lowByte i.operands.addr :: highByte i.operands.addr :: writePayload i.operands)) s t ∧
      t.rbuf = s.rbuf ∧ WriteTook i.operands.addr.toNat (writePayload i.operands) s t := by
  have hcheck := instrValid_eq i ▸ hv
  obtain ⟨-, haddr, hdir⟩ := opcode_hasAddr_dir_of_write hi
  obtain ⟨hlength, hne⟩ := writePayload_length hi hcheck
  have hbytes : (i.command.header i.operands.addr).length + (i.command.nData i.operands.len).toNat =
      3 + i.operands.len.toNat := by
    rw [Command.header_length, if_pos haddr, Command.nData_of_hasAddr haddr]
  have hrlen : resultLength i.command (i.command.nData i.operands.len) = 0#16 := by rw [resultLength, hdir]
  have hrbuf : okRbuf i.command i.operands s = s.rbuf := by rw [okRbuf, hdir]
  obtain ⟨rest, hexec, hdone⟩ := exec_completedOk hready hv (hbytes ▸ hbus)
  have htook := okState_deviceTook (c := i.command) (o := i.operands) (rest := rest) hq
  rw [frame_of_write hi] at htook
  rw [hrlen, okTransfers_of_write hi] at hdone
  have hcrosses := not_crosses_of_write hi hcheck
  rw [← joinBytes_low_high i.operands.addr, ← hlength] at hcrosses
  have heffect := htook.of_write hne hcrosses
  rw [joinBytes_low_high] at heffect
  exact ⟨_, hexec, hdone, hrbuf, heffect⟩

/-- Settles O34: the device takes the whole frame of a WRITE, whose payload has LEN bytes. -/
theorem writeCompletes : Obligations.WriteCompletes := by
  intro o s hready hv hbus hq
  obtain ⟨hlength, -⟩ := writePayload_length (.inl rfl) (instrValid_eq (.write o) ▸ hv)
  obtain ⟨t, hexec, hdone, hrbuf, hset, hclear⟩ := exec_write_completes (i := .write o) (.inl rfl) hready hv hbus hq
  exact ⟨t, hexec, hdone, hrbuf, fun hwel hin => hset hwel (hlength.symm ▸ hin), hclear⟩

/-- Settles O35: the check of WRITE_PAGE leaves LEN one value, so that the payload is the whole of WDATA. -/
theorem writePageCompletes : Obligations.WritePageCompletes := by
  intro o s hready hv hbus hq
  obtain ⟨hlen, -⟩ := writePageCheck_eq_true_iff.mp (instrValid_eq (.writePage o) ▸ hv)
  have hpayload : writePayload (Instr.operands (.writePage o)) = o.wdata.toList :=
    List.take_of_length_le (by rw [hlen, Vector.length_toList])
  obtain ⟨t, hexec, hdone, hrbuf, hset, hclear⟩ :=
    exec_write_completes (i := .writePage o) (.inr rfl) hready hv (hlen.symm ▸ hbus) hq
  rw [hpayload] at hdone hset
  rw [Vector.length_toList] at hset
  exact ⟨t, hexec, hdone, hrbuf, hset, hclear⟩

/-- The expansion of WRITE_BYTE carries its one byte (R91). -/
theorem writePayload_writeByte (a : Half) (v : Byte) : writePayload (Instr.operands (.writeByte a v)) = [v] := rfl

/-- Settles O36: the check of WRITE_BYTE always passes, and of a payload of one byte one byte is stored. -/
theorem writeByteCompletes : Obligations.WriteByteCompletes := by
  intro a v s hready hbus hq
  obtain ⟨-, -, hv⟩ := aliasChecksAlwaysPass a v
  obtain ⟨t, hexec, hdone, hrbuf, hset, hclear⟩ :=
    exec_write_completes (i := .writeByte a v) (.inl rfl) hready hv hbus hq
  rw [writePayload_writeByte] at hdone hset
  refine ⟨t, hexec, hdone, hrbuf, fun hwel hin => ?_, hclear⟩
  obtain ⟨⟨hstored, hkept⟩, hlatch, hsr⟩ := hset hwel hin
  exact ⟨hstored 0 Nat.one_pos, fun x hx => hkept x (Nat.lt_or_gt_of_ne hx), hlatch, hsr⟩

end Sys2Proof.Machine
end

section
/-! PROOFS. InvalidArgument (R172): the operands that raise it, and all that it leaves. -/

namespace Sys2Proof.Machine

variable {s : State}

/-- A whole page does not cross exactly when it starts at a page boundary (R152). -/
theorem crosses_pageSize_iff {pageSize a : Nat} : crosses pageSize a pageSize = true ↔ offsetOf pageSize a ≠ 0 := by
  rw [crosses_eq_true_iff]
  omega

/-- Settles O44: each cause is a clause of the command's check that fails. -/
theorem invalidArgumentCauses : Obligations.InvalidArgumentCauses := by
  intro o
  have hzero : o.len = 0#16 ↔ ¬ 1 ≤ o.len.toNat := by
    rw [← BitVec.toNat_inj, BitVec.toNat_ofNat]
    omega
  simp only [instrValid_eq]
  refine ⟨?_, ?_, ?_, rfl, rfl, rfl, rfl⟩
  · change writeCheck Config.pageSize o.addr o.len = false ↔ _
    rw [← Bool.not_eq_true, writeCheck_eq_true_iff, hzero, not_and_or, not_and_or, Nat.not_le (a := o.len.toNat),
      Bool.not_eq_false]
  · change writePageCheck Config.pageSize o.addr o.len = false ↔ _
    rw [← Bool.not_eq_true, writePageCheck_eq_true_iff, not_and_or, Bool.not_eq_false]
    refine or_congr_right' fun hlen => ?_
    rw [not_not.mp hlen, crosses_pageSize_iff]
  · change readCheck Config.pageSize o.len = false ↔ _
    rw [← Bool.not_eq_true, readCheck_eq_true_iff, hzero, not_and_or, Nat.not_le (a := o.len.toNat)]

/-- Settles O43: a command that fails its check is issued and completes, and neither leaves the machine's IDLE or
touches the bus. -/
theorem invalidArgumentTransmitsNothing : Obligations.InvalidArgumentTransmitsNothing := by
  intro i s hready hv
  rw [exec_invalid hready hv]
  obtain ⟨hidle, -⟩ := hready
  simp [raiseException, State.complete, State.goto, State.record, issue, Instr.descriptor, hidle]

end Sys2Proof.Machine
end

section
/-! PROOFS. The command port serves a requester whenever one waits (R65, R188), and a machine that meets the invariant
always makes a step (R170, R177). -/

namespace Sys2Proof.Machine

variable {s : State}

/-- Nothing is accepted only when no requester waits: the free choice falls on one that does (R188). -/
theorem nobody_waits_of_arbitrate_none (h : arbitrate s = none) : ∀ l ∈ s.requesters, l = [] := by
  unfold arbitrate at h
  split at h
  case h_1 hw => exact waiting_eq_nil hw
  case h_2 => cases h
  case h_3 =>
    simp only at h
    split at h
    · next hnone =>
      rw [List.getElem?_eq_none_iff] at hnone
      exact absurd (Nat.mod_lt _ (by simp)) (Nat.not_lt.mpr hnone)
    · cases h

/-- Settles O25: the law of the port, and its converse for a machine with a waiting requester. -/
theorem arbitrationServesAWaitingRequester : Obligations.ArbitrationServesAWaitingRequester := by
  refine ⟨fun s t a => arbitrate_spec, fun s ⟨l, hl, hne⟩ => ?_⟩
  cases ha : arbitrate s with
  | none => exact absurd (nobody_waits_of_arbitrate_none ha l hl) hne
  | some served => exact ⟨served.1, served.2, rfl⟩

/-- The phase of a machine that meets the invariant has an enabled step. -/
theorem exists_advance (h : s.Inv) : ∃ t, advance s = .next t :=
  ⟨_, advance_eq_next_iff.mpr ⟨stuck_none h, rfl⟩⟩

theorem exists_runCommand (d : Descriptor) (h : s.Inv) : ∃ t, runCommand d s = .next t := by
  unfold runCommand
  split
  · exact ⟨_, rfl⟩
  · split
    · exact exists_advance h
    · exact ⟨_, rfl⟩

theorem exists_accept (a : HostAction) (h : s.Inv) : ∃ t, accept a s = .next t := by
  cases a with
  | wait ms => exact ⟨_, rfl⟩
  | issue d =>
    rw [accept_issue]
    exact exists_runCommand d h

/-- Settles O54: a reset and an empty port always have their next state; a phase and an accepted action have one from a
state that meets the invariant, which arbitration keeps. -/
theorem machineNeverStops : Obligations.MachineNeverStops := by
  intro s hinv
  unfold step
  split
  · exact ⟨_, rfl⟩
  · split
    · exact exists_advance hinv
    · split
      · exact ⟨_, rfl⟩
      · next a u ha => exact exists_accept a (arbitrate_inv hinv ha)

end Sys2Proof.Machine
end

section
/-! PROOFS. BusError (R173): the transfers of a frame up to the one that fails, and what a cut frame does to the
device (I13). -/

namespace Sys2Proof.Machine

variable {R : List Transfer} {oracle : Nat → Byte × Bool} {c : Command} {o : Operands} {s t : State} {k : Nat}

/-! ### A run of transfers that fails -/

/-- The transfers made clock out the first bytes of the frame, whatever the bus reports. -/
theorem bytesOut_runTransfers_eq_take (oracle : Nat → Byte × Bool) (R : List Transfer) :
    bytesOut (runTransfers oracle R).events =
      (R.map Transfer.byteOut).take (runTransfers oracle R).events.length := by
  induction R generalizing oracle with
  | nil => rfl
  | cons tr R ih =>
    cases h : (oracle 0).2 with
    | true =>
      have hrest := ih fun k => oracle (k + 1)
      rw [bytesOut] at hrest
      rw [runTransfers_cons_ok h, bytesOut, List.flatMap_cons, hrest, Transfer.event_byteOut]
      rfl
    | false =>
      rw [runTransfers_cons_failed h, bytesOut, List.flatMap_singleton, Transfer.event_byteOut]
      rfl

/-- Transfers of which the one at index `k` is the first to fail end with it. -/
theorem runTransfers_failsAt (hk : k < R.length) (hok : ∀ j, j < k → (oracle j).2 = true)
    (hfail : (oracle k).2 = false) :
    (runTransfers oracle R).failed = true ∧
      ∃ es last, (runTransfers oracle R).events = es ++ [last] ∧ es.length = k ∧ last.succeeded = false := by
  induction R generalizing oracle k with
  | nil => exact absurd hk (Nat.not_lt_zero k)
  | cons tr R ih =>
    cases k with
    | zero =>
      rw [runTransfers_cons_failed hfail]
      exact ⟨rfl, [], _, rfl, rfl, tr.event_succeeded _ _⟩
    | succ k =>
      obtain ⟨hfailed, es, last, hevents, hlen, hlast⟩ := ih (oracle := fun j => oracle (j + 1))
        (Nat.lt_of_succ_lt_succ hk) (fun j hj => hok (j + 1) (Nat.succ_lt_succ hj)) hfail
      rw [runTransfers_cons_ok (hok 0 k.succ_pos), hevents]
      exact ⟨hfailed, _ :: es, last, rfl, congrArg (· + 1) hlen, hlast⟩

/-- The script of a bus that fails after `k` transfers, flag by flag. -/
theorem State.BusFailsAfter.getElem (h : s.BusFailsAfter k) :
    (∀ j, j < k → ∃ hj : j < s.oks.length, s.oks[j] = true) ∧ ∃ hk : k < s.oks.length, s.oks[k] = false := by
  have hget (j : Nat) (hj : j < k + 1) : s.oks[j]? = (List.replicate k true ++ [false])[j]? := by
    rw [← h, List.getElem?_take_of_lt hj]
  refine ⟨fun j hj => List.getElem?_eq_some_iff.mp ?_, List.getElem?_eq_some_iff.mp ?_⟩
  · rw [hget j (by omega), List.getElem?_append_left (by simpa using hj), List.getElem?_replicate_of_lt hj]
  · rw [hget k (by omega), List.getElem?_append_right (by simp)]
    simp

/-! ### The device of a cut frame -/

/-- Of a valid command the device took the first bytes of its frame, and the frame failed if a transfer did. -/
theorem FrameEnds.deviceTook_prefix (hq : s.DeviceQuiet)
    (h : FrameEnds c (frameTransfers o c) oracle (openedFrame c o s) t) :
    ∃ g draw, DeviceTook g draw s t ∧ g.failed = (runTransfers oracle (frameTransfers o c)).failed ∧
      g.bytes <+: c.frame o := by
  obtain ⟨g, draw, hdev, hcycle, -, hfailed, hbytes⟩ := h.device _ rfl
  have hout : bytesOut (runTransfers oracle (frameTransfers o c)).events <+: c.frame o := by
    rw [bytesOut_runTransfers_eq_take, map_byteOut_frameTransfers]
    exact List.take_prefix _ _
  refine ⟨g, draw, ⟨hdev, hcycle.trans hq⟩, hfailed, ?_⟩
  rcases hbytes with hb | ⟨-, hb⟩ <;> rw [hb]
  · exact hout
  · exact ((List.dropLast_prefix _).flatMap _).trans hout

theorem opcode_eq_write_iff : c.opcode = 0x02#8 ↔ c = .write ∨ c = .writePage := by cases c <;> decide

/-- A cut frame other than a write leaves a device outside its write cycle as it was (I13). -/
theorem FrameEnds.deviceKept_of_failed (hq : s.DeviceQuiet) (hc : ¬ (c = .write ∨ c = .writePage))
    (hfailed : (runTransfers oracle (frameTransfers o c)).failed = true)
    (h : FrameEnds c (frameTransfers o c) oracle (openedFrame c o s) t) : DeviceKept s t := by
  obtain ⟨g, draw, htook, hg, hbytes⟩ := h.deviceTook_prefix hq
  refine htook.deviceKept (Device.endFrame_failed draw htook.quiet (hg.trans hfailed) fun hop => hc ?_)
  obtain ⟨rest, hrest⟩ := List.head?_eq_some_iff.mp hop
  rw [hrest] at hbytes
  exact opcode_eq_write_iff.mp (List.cons_prefix_cons.mp hbytes).1.symm

/-! ### A command whose transfer fails -/

/-- Settles O45: the frame of the command stops at the failed transfer, and its ending is that of a valid command. -/
theorem busErrorCutsTheFrame : Obligations.BusErrorCutsTheFrame := by
  intro i s k hready hv hk hbus
  obtain ⟨t, hexec, hlatched, hhost, -, herr, hrlen⟩ := validCommandEndsIdle i s hready hv
  rw [instrValid_eq] at hv
  obtain ⟨oracle, hscript, u, hrun, hends⟩ := runCommand_any hready hv
  obtain rfl : t = u := by
    rw [exec_eq, Instr.descriptor, hrun] at hexec
    cases hexec
    rfl
  obtain ⟨hoks, hlt, hfail⟩ := hbus.getElem
  rw [← Command.frame_length_eq hv, ← map_byteOut_frameTransfers, List.length_map] at hk
  obtain ⟨hfailed, es, last, hevents, hlen, hlast⟩ := runTransfers_failsAt hk
    (fun j hj => let ⟨hj', hok⟩ := hoks j hj; (hscript j hj').trans hok) ((hscript k hlt).trans hfail)
  have hstatus : t.status = statusBusError := by rw [hends.status, hfailed]; rfl
  rw [hstatus] at hhost
  have htransfer (e : Event) (he : e ∈ es ++ [last]) : e.isTransfer = true := runTransfers_isTransfer (hevents ▸ he)
  refine ⟨t, es, last, hexec, hlen, ?_, fun e he => ⟨htransfer e (by simp [he]), ?_⟩, htransfer last (by simp), hlast,
    ?_, hstatus, ?_, herr.mpr hstatus, hlatched, hhost, ?_, fun hq hw hp => ?_⟩
  · rw [AddedTrace, hends.trace_framed, hevents]
  · exact runTransfers_dropLast_succeeded (by rw [hevents, List.dropLast_concat]; exact he)
  · change bytesOut _ = _
    rw [← hevents, bytesOut_runTransfers_eq_take, map_byteOut_frameTransfers, encode_eq, hevents, List.length_append,
      hlen]
    rfl
  · rw [hrlen, hstatus]
    rfl
  · rw [hends.oks, hevents, List.length_append, hlen]
    rfl
  · exact hends.deviceKept_of_failed hq (not_or.mpr ⟨hw, hp⟩) hfailed

end Sys2Proof.Machine
end

section
/-! PROOFS. A reset that is due (R200 to R202): what the step that takes it leaves, and what it does to the device in
the frame of a write (R60, R201); and the wait after such a reset (R206). -/

namespace Sys2Proof.Machine

variable {s : State} {f : DeviceFrame} {rest : List Nat}

/-- A reset that is due is taken, whatever the phase. -/
theorem step_of_reset (h : s.resets = 0 :: rest) : step s = .next (applyReset { s with resets := rest }) := by
  simp [step, State.resetDue, takeReset, h]

/-- Settles O58: the step takes the reset, and what a reset leaves does not depend on the phase. -/
theorem resetEndsACommand : Obligations.ResetEndsACommand := by
  intro s rest hdue
  obtain ⟨hphase, hline, hstatus, hrlen, hhost, hrequesters, hoks, hresets, htrace, hdev⟩ :=
    applyReset_spec { s with resets := rest }
  exact ⟨_, step_of_reset hdue, hphase, hline, hstatus, hrlen, htrace, hhost, hrequesters, hoks, hresets,
    fun hhigh => hdev.trans (if_pos hhigh)⟩

/-- A reset that is due within a frame leaves the array as the cut frame leaves it (R201). -/
theorem step_of_reset_in_frame (hdue : s.resets = 0 :: rest) (hlow : s.csN = false) (hf : s.dev.frame = some f) :
    ∃ t, step s = .next t ∧
      ∀ x, t.memByte x = (s.dev.cutFrame.endFrame s.draws { f with cut := true }).cell x := by
  obtain ⟨-, -, -, -, -, -, -, -, -, hdev⟩ := applyReset_spec { s with resets := rest }
  have hcut : s.dev.cutFrame.frame = some { f with cut := true } := by rw [Device.cutFrame, hf]; rfl
  refine ⟨_, step_of_reset hdue, fun x => ?_⟩
  rw [State.memByte, hdev, hlow, if_neg Bool.false_ne_true, Device.deselect_of_frame hcut]
  rfl

/-- Settles O59: the reset cuts the frame, and a cut WRITE frame has no effect with the latch clear and otherwise stays
in the page its header names. -/
theorem resetInAWriteStaysInItsPage : Obligations.ResetInAWriteStaysInItsPage := by
  intro s rest f lo hi data hdue hlow hf hcycle hbytes
  obtain ⟨t, hstep, hcell⟩ := step_of_reset_in_frame hdue hlow hf
  refine ⟨t, hstep, fun hwel x => (hcell x).trans ?_, fun x hx => (hcell x).trans ?_⟩
  · have hopcode : ∀ b ∈ f.bytes.head?, b = 0x02#8 := by simp [hbytes]
    rw [Device.endFrame_write_of_latch_clear (d := s.dev.cutFrame) (f := { f with cut := true }) _ hwel hcycle hopcode]
    rfl
  · exact Device.cell_endFrame_outside (d := s.dev.cutFrame) _ hcycle hbytes hx

/-- Settles O56: accepting the wait leaves the device and the reset input alone, and T_SETTLE_MS ends any write
cycle. -/
theorem waitingEndsTheWriteCycle : Obligations.WaitingEndsTheWriteCycle := by
  intro s t hready hcycle harb
  obtain ⟨-, hresets⟩ := ready_of_arbitrate hready harb
  obtain ⟨_, _, _, -, ht⟩ := arbitrate_spec harb
  have hleft : t.dev.cycleLeft ≤ Config.tWcMs := by rwa [ht]
  rw [step_of_arbitrate hready harb, accept, hostWait, countdown_of_none hresets, Device.elapse_settled hleft]

end Sys2Proof.Machine
end
